-- ==== Sys2Proof/Word.lean ====
section
/-! DEFINITION. The two widths of data the device handles: bytes (samples) and 32-bit words (registers, command words). -/

namespace Sys2Proof

/-- One sample or one memory byte: 8 bits, unsigned (00_scope.md R9, `SAMPLE_W`). -/
abbrev Byte := BitVec 8

/-- One register or one command word: 32 bits (00_scope.md R9, `REG_W`; 30_encoding.md R80). -/
abbrev Word := BitVec 32

end Sys2Proof
end

