-- ==== Sys2Proof/Config.lean ====
section
/-! DEFINITION. What an implementation or the platform fixes, and the free values of everything the spec leaves open.
An `opaque` constant has no body: nothing can be proved of its value, so a claim holds whatever it is. -/

namespace Sys2Proof

/-- The address space holds the byte addresses below this bound (20_memory.md R60, `ADDR_W` = 32). -/
def Config.addressLimit : Nat := 4294967296

/-- The constant `ID` register (10_state.md R21). -/
def Config.deviceId : Word := 0xDBF00007#32

/-- `STRENGTH_MAX` (00_scope.md R9). -/
def Config.strengthMax : Nat := 12

/-- `BLOCK`, the edge grid spacing (00_scope.md R9). -/
def Config.block : Nat := 8

/-- What a byte of memory that nothing has written reads as. The spec gives no power-on contents
(10_state.md R40 says only that a reset does not change memory). DESIGN CHOICE, unsafe: log entry 7. -/
def Config.unwrittenByte : Byte := 0#8

/-- `REG_BASE`, the host address at which the platform maps the register block (20_memory.md R61, 10_state.md R39): an open
parameter, so it has no body and a claim holds for every base. The spec gives the host bus no width, so an address on it is a
number. Log entry 10. -/
opaque Config.regBase : Nat

/-- The size of the register block in bytes (10_state.md R20). -/
def Config.regBlockBytes : Nat := 64

/-- FREE VALUE: the byte found at an address of a write footprint after a bus error (60_exceptions.md R225) or an
aborting reset (70_reset_and_hazards.md R262). First argument: the draw (fresh each time); second: the address. Log entry 5. -/
opaque Config.freeByte : Nat → Nat → Byte

/-- FREE VALUE: a field of the operand latch after a reset (10_state.md R33, R40: unspecified). First argument: the draw;
second: which field. Log entry 6. -/
opaque Config.freeWord : Nat → Nat → Word

/-- FREE VALUE: the latency of the command accepted at a draw, counted in outside operations that may pass before it
completes (70_reset_and_hazards.md R270, 92_eei_decisions.md D39: finite, not bounded). Log entry 3. -/
opaque Config.latency : Nat → Nat

end Sys2Proof
end

