-- ==== Sys2Proof/Syntax.lean ====
section
/-! DEFINITION. The commands, one constructor per row of spec/opcode_table.json (30_encoding.md R85).
Every constructor carries its row's reserved bits as its first operand: a word with reserved bits set still selects its
row (R85), and only validation ends it (R89). So every 32-bit word with a listed opcode is exactly one `Instr`. -/

namespace Sys2Proof

/-- A command of the opcode map (30_encoding.md R85). -/
inductive Instr where
  /-- Format N (R81), opcode 0x00. -/
  | nop (resv : BitVec 24)
  /-- Format Q (R82), opcode 0x01: `Q` is a quantizer index. -/
  | qlookup (resv : BitVec 19) (q : BitVec 5)
  /-- Format S (R83), opcode 0x02. Bits 7 and 6 (`V`, `H`) are reserved for EDGE and are the two low bits of `resv`. -/
  | edge (resv : BitVec 18) (qm : BitVec 1) (sq : BitVec 5)
  /-- Format S (R83), opcode 0x03: `v` and `h` enable the vertical and the horizontal pass. -/
  | deblock (resv : BitVec 16) (v h qm : BitVec 1) (sq : BitVec 5)
  /-- Format T (R84), opcode 0x10: `tsel` selects a table, `idx` an entry. -/
  | lutrd (resv : BitVec 13) (tsel : BitVec 3) (idx : BitVec 8)
  /-- Format N (R81), opcode 0x11. -/
  | cvt (resv : BitVec 24)
  /-- Format N (R81), opcode 0x12. -/
  | ups (resv : BitVec 24)
  /-- Format N (R81), opcode 0x13. -/
  | compose (resv : BitVec 24)
  deriving DecidableEq, Repr

end Sys2Proof
end

