-- ==== Sys2Proof/WellFormed.lean ====
section
/-! DEFINITION. Well-formed commands: those an assembler emits under the constraints of 30_encoding.md R91, which are the
checks of 40_command_control.md R103 steps 2 and 3 that look at the command word alone. An ill-formed command still decodes
and still runs: it ends with the error code R103 names. (R91 lets an assembler emit `QLOOKUP 0` to test that path; it is
ill-formed here all the same.) -/

namespace Sys2Proof

/-- Every reserved bit of the command's format is 0 (30_encoding.md R89). -/
def Instr.reservedClear : Instr → Bool
  | .nop resv => resv == 0
  | .qlookup resv _ => resv == 0
  | .edge resv _ _ => resv == 0
  | .deblock resv _ _ _ _ => resv == 0
  | .lutrd resv _ _ => resv == 0
  | .cvt resv => resv == 0
  | .ups resv => resv == 0
  | .compose resv => resv == 0

/-- The `SQ` field is a legal strength (`QM` = 0) or a legal quantizer index (`QM` = 1) (30_encoding.md R83, R87). -/
def strengthFieldLegal (qm : BitVec 1) (sq : BitVec 5) : Bool :=
  if qm = 0#1 then decide (sq.toNat ≤ Config.strengthMax) else sq != 0#5

/-- The operand fields are legal (30_encoding.md R82, R83, R84, R88). -/
def Instr.fieldsLegal : Instr → Bool
  | .nop _ => true
  | .qlookup _ q => q != 0#5
  | .edge _ qm sq => strengthFieldLegal qm sq
  | .deblock _ _ _ qm sq => strengthFieldLegal qm sq
  | .lutrd _ tsel _ => decide (tsel.toNat ≤ 4)
  | .cvt _ => true
  | .ups _ => true
  | .compose _ => true

/-- Reserved bits clear and operand fields legal. -/
def Instr.wellFormed (i : Instr) : Bool := i.reservedClear && i.fieldsLegal

end Sys2Proof
end

