-- ==== Sys2Proof/Decode.lean ====
section
/-! DEFINITION. The decoder of 30_encoding.md R86, total on 32-bit words, and the encoder written from the formats R81 to R84.
A command is one 32-bit word written to CMD (R80); the register port carries whole words only (20_memory.md R61), so there is
no byte order to decide. -/

namespace Sys2Proof

/-- Why a word is no command. -/
inductive DecodeError where
  /-- The opcode is not in the map of 30_encoding.md R85 (R90). The engine accepts such a word and ends it with
  ILLEGAL_OPCODE, so this is a verdict of the decoder and never stops the machine. -/
  | illegalOpcode (opc : BitVec 8)
  deriving DecidableEq, Repr

/-- `OPC`, bits 31:24 (30_encoding.md R80). -/
def opcodeOf (w : Word) : BitVec 8 := w.extractLsb' 24 8

/-- `decode` of 30_encoding.md R86, with the reserved bits `resv(w)` of the word's format kept as an operand. -/
def decode (w : Word) : Except DecodeError Instr :=
  let opc := opcodeOf w
  if opc = 0x00#8 then .ok (.nop (w.extractLsb' 0 24))
  else if opc = 0x01#8 then .ok (.qlookup (w.extractLsb' 5 19) (w.extractLsb' 0 5))
  else if opc = 0x02#8 then .ok (.edge (w.extractLsb' 6 18) (w.extractLsb' 5 1) (w.extractLsb' 0 5))
  else if opc = 0x03#8 then
    .ok (.deblock (w.extractLsb' 8 16) (w.extractLsb' 7 1) (w.extractLsb' 6 1) (w.extractLsb' 5 1) (w.extractLsb' 0 5))
  else if opc = 0x10#8 then .ok (.lutrd (w.extractLsb' 11 13) (w.extractLsb' 8 3) (w.extractLsb' 0 8))
  else if opc = 0x11#8 then .ok (.cvt (w.extractLsb' 0 24))
  else if opc = 0x12#8 then .ok (.ups (w.extractLsb' 0 24))
  else if opc = 0x13#8 then .ok (.compose (w.extractLsb' 0 24))
  else .error (.illegalOpcode opc)

/-- The command word of an instruction, field by field from the formats N, Q, S and T (30_encoding.md R81 to R85). -/
def encode : Instr → Word
  | .nop resv => (0x00#8 ++ resv : BitVec 32)
  | .qlookup resv q => (0x01#8 ++ resv ++ q : BitVec 32)
  | .edge resv qm sq => (0x02#8 ++ resv ++ qm ++ sq : BitVec 32)
  | .deblock resv v h qm sq => (0x03#8 ++ resv ++ v ++ h ++ qm ++ sq : BitVec 32)
  | .lutrd resv tsel idx => (0x10#8 ++ resv ++ tsel ++ idx : BitVec 32)
  | .cvt resv => (0x11#8 ++ resv : BitVec 32)
  | .ups resv => (0x12#8 ++ resv : BitVec 32)
  | .compose resv => (0x13#8 ++ resv : BitVec 32)

/-- The command word that a table row's bits stand for: every row has 32 bits, and bits above `nbits` are 0. -/
def tableWord (nbits w : Nat) : Word := BitVec.ofNat 32 (w % 2 ^ nbits)

/-- The instruction the decoder reads from a word numbered as spec/opcode_table.json numbers it (bit 0 the least
significant bit of the one command word); none where the opcode is illegal. -/
def decodeTableWord (nbits w : Nat) : Option Instr :=
  match decode (tableWord nbits w) with
  | .ok i => some i
  | .error _ => none

end Sys2Proof
end

