-- ==== Sys2Proof/Machine/State.lean ====
section
/-! DEFINITION. The state as plain data: the register block, the operand latch, the engine state and the memory that the
spec gives the machine, then the model's own fields (the outside's pending operations and the spec's open parameters).
Also why a step can stop, and the state after reset. -/

namespace Sys2Proof.Machine

/-- A range `[base, base + len)` of byte addresses, without wrap-around (20_memory.md R66, R67). -/
structure Span where
  base : Nat
  len : Nat
  deriving DecidableEq, Repr

/-- The memory ranges a command may read and may write (20_memory.md R66). -/
structure Footprint where
  reads : List Span
  writes : List Span
  deriving DecidableEq, Repr

/-- The footprint of a command that touches no memory. -/
def Footprint.none : Footprint := ⟨[], []⟩

/-- The kind of an engine access, as the memory oracle `mem_ok(addr, kind)` sees it (20_memory.md R65). -/
inductive AccessKind where
  | read
  | write
  deriving DecidableEq, Repr

/-- The engine is idle or has exactly one command in flight (10_state.md R34). -/
inductive EngineState where
  | idle
  | busy
  deriving DecidableEq, Repr

/-- The operand latch `L` (10_state.md R33). -/
structure Latch where
  cmd : Word
  src0 : Word
  src1 : Word
  src2 : Word
  dst : Word
  dim : Word
  edgeIn : Word
  pixIn : Word
  pos : Word
  deriving DecidableEq, Repr

/-- Memory: (address, byte) pairs in canonical form (`Memory.wf`); an unlisted address reads as `Config.unwrittenByte`. -/
abbrev Memory := List Host.Cell

/-- Another instance's command in flight, named by that instance's REG_BASE (60_exceptions.md R243). -/
structure Peer where
  regBase : Nat
  footprint : Footprint
  deriving DecidableEq, Repr

/-- One thing the world outside the engine does: a host operation of 30_encoding.md R94, the reset input
(70_reset_and_hazards.md R260), a change of the memory's answers (20_memory.md R65), or another instance's command
(60_exceptions.md R243). `ISSUE cmd` is a write of CMD and `CLEAR` a write of STATUS (`HostOp.issue`, `HostOp.clear`). -/
inductive HostOp where
  /-- A register write of `width` bytes at a host address: register `r` is at `Config.regBase` plus its offset (R61, R20). -/
  | writeReg (width : Nat) (addr : Nat) (value : Word)
  /-- A register read of `width` bytes at a host address. -/
  | readReg (width : Nat) (addr : Nat)
  /-- `WAIT`: read STATUS until BUSY is 0. -/
  | wait
  /-- `MEM.W8`. -/
  | memWrite (addr : BitVec 32) (value : Byte)
  /-- `MEM.R8`. -/
  | memRead (addr : BitVec 32)
  /-- The platform asserts the reset input (70_reset_and_hazards.md R260). -/
  | assertReset
  /-- The platform releases the reset input (R260). -/
  | releaseReset
  /-- From here on the memory answers exactly these engine accesses with a bus error. -/
  | memAnswers (errs : List (Nat × AccessKind))
  /-- The instance at this REG_BASE accepts a command with this footprint. -/
  | peerAccept (regBase : Nat) (footprint : Footprint)
  /-- The instance at this REG_BASE completes, having left these bytes in memory. -/
  | peerComplete (regBase : Nat) (stores : List (BitVec 32 × Byte))
  deriving DecidableEq, Repr

/-- What one of the host's reads returned; a register is named by its offset in the block. -/
inductive Observation where
  | register (offset : BitVec 6) (value : Word)
  | memory (addr : BitVec 32) (value : Byte)
  deriving DecidableEq, Repr

/-- The whole machine. Reset values: `State.reset`. -/
structure State where
  /-- CTRL (10_state.md R22); bit 0 is IRQ_EN, every other bit reads 0. -/
  ctrl : Word
  /-- STATUS.DONE (R23). -/
  done : Bool
  /-- STATUS.ERR (R23). -/
  err : Bool
  /-- STATUS.OVR (R23). -/
  ovr : Bool
  /-- STATUS.ERRCODE (R23). -/
  errcode : BitVec 4
  /-- The CMD read value (R25). -/
  cmd : Word
  /-- SRC0 (R26). -/
  src0 : Word
  /-- SRC1 (R26). -/
  src1 : Word
  /-- SRC2 (R26). -/
  src2 : Word
  /-- DST (R26). -/
  dst : Word
  /-- DIM (R27). -/
  dim : Word
  /-- EDGE_IN (R28). -/
  edgeIn : Word
  /-- PIX_IN (R29); bits 31:24 read 0. -/
  pixIn : Word
  /-- POS (R30). -/
  pos : Word
  /-- RESULT (R31). -/
  result : Word
  /-- The operand latch (R33). -/
  latch : Latch
  /-- IDLE or BUSY (R34); STATUS.BUSY is this field. -/
  engine : EngineState
  /-- The pending footprint (R34). -/
  pending : Footprint
  /-- The reset input is asserted, and the device holds its reset state until it is released (70_reset_and_hazards.md R260).
  Log entry 17. -/
  resetHeld : Bool
  /-- Memory (20_memory.md R60). -/
  mem : Memory
  /-- The model's own: outside operations not yet performed, the next one first. Log entry 2. -/
  host : List HostOp
  /-- The model's own: what the host's reads returned, newest first. Log entry 18. -/
  seen : List Observation
  /-- The model's own: outside operations that may pass before the command in flight completes. Log entry 3. -/
  delay : Nat
  /-- The model's own: free values drawn so far. Log entry 5. -/
  draws : Nat
  /-- The model's own: the engine accesses the memory answers with a bus error (R65). Log entry 4. -/
  memErr : List (Nat × AccessKind)
  /-- The model's own: address ranges that are not ordinary memory (R65). Log entry 8. -/
  nonOrdinary : List Span
  /-- The model's own: other instances' commands in flight (60_exceptions.md R243). Log entry 12. -/
  peers : List Peer
  deriving DecidableEq, Repr

/-- Why the machine stops with a fault. -/
inductive Fault where
  /-- HAZARD_FOOTPRINT (70_reset_and_hazards.md R265, 60_exceptions.md R243): raised by a host access to the footprint of
  a command in flight, and by two instances' conflicting footprints in flight. Safe: the spec names this fault, and no
  next state is claimed. -/
  | hazardFootprint
  deriving DecidableEq, Repr

/-- Why the model gives no meaning. -/
inductive Refusal where
  /-- Raised by no arm of this model (every command has a meaning); the host's form asks for it. Safe. -/
  | notModelled (mnemonic : String)
  /-- A register access that is not an aligned 32-bit one (20_memory.md R61: "The model refuses such an access"). Raised by
  the register port. Safe: no next state is claimed. -/
  | illegalRegisterAccess
  /-- A register access whose host address lies outside this device's register block, which is 64 bytes from REG_BASE
  (20_memory.md R61, 10_state.md R20). The spec does not say what answers there. Raised by the register port. Safe: no next
  state is claimed. Log entry 10. -/
  | outsideRegisterBlock
  /-- A footprint that the engine would access, or a host access, that touches memory which is not ordinary
  (20_memory.md R65: "the model treats such a program as refused"). Raised by DEBLOCK, UPS and COMPOSE, by a reset that
  aborts one, and by host memory accesses. Safe: no next state is claimed. -/
  | nonOrdinaryMemory
  deriving DecidableEq, Repr

/-- The outcome of a step of this machine. -/
abbrev Result := Host.Outcome State Fault Refusal

/-- A latch of zeros: what the latch holds in `State.reset`, where the spec leaves it unspecified (10_state.md R40).
DESIGN CHOICE, log entry 6. -/
def Latch.zero : Latch := ⟨0, 0, 0, 0, 0, 0, 0, 0, 0⟩

/-- The machine right after reset (10_state.md R40), with memory as at power-on and nothing pending outside. -/
def State.reset : State where
  ctrl := 0
  done := false
  err := false
  ovr := false
  errcode := 0
  cmd := 0
  src0 := 0
  src1 := 0
  src2 := 0
  dst := 0
  dim := 0
  edgeIn := 0
  pixIn := 0
  pos := 0
  result := 0
  latch := Latch.zero
  engine := .idle
  pending := Footprint.none
  resetHeld := false
  mem := []
  host := []
  seen := []
  delay := 0
  draws := 0
  memErr := []
  nonOrdinary := []
  peers := []

end Sys2Proof.Machine
end

