-- ==== Sys2Proof/Machine/Flags.lean ====
section
/-! DEFINITION. The STATUS register: the error codes, how STATUS reads, how it is cleared, what a finished command leaves in
it, and the interrupt output that follows it. -/

namespace Sys2Proof.Machine

/-- The results a command can end with (60_exceptions.md R220). -/
inductive ErrCode where
  | ok
  | illegalOpcode
  | reservedNonzero
  | badStrength
  | badQuant
  | badTable
  | badPos
  | addrRange
  | overlap
  | busError
  deriving DecidableEq, Repr

/-- The 4-bit code of a result (R220). -/
def errBits : ErrCode → BitVec 4
  | .ok => 0
  | .illegalOpcode => 1
  | .reservedNonzero => 2
  | .badStrength => 3
  | .badQuant => 4
  | .badTable => 5
  | .badPos => 6
  | .addrRange => 7
  | .overlap => 8
  | .busError => 9

/-- STATUS.BUSY (10_state.md R34). -/
def State.busy (s : State) : Bool := decide (s.engine = .busy)

/-- STATUS as the host reads it (R23): BUSY 0, DONE 1, ERR 2, OVR 3, ERRCODE 11:8, the rest 0. -/
def State.statusWord (s : State) : Word :=
  (0#20 ++ s.errcode ++ 0#4 ++ BitVec.ofBool s.ovr ++ BitVec.ofBool s.err ++ BitVec.ofBool s.done ++ BitVec.ofBool s.busy
    : BitVec 32)

/-- A host write of `v` to STATUS (R24): a 1 in bit 1, 2 or 3 clears DONE, ERR or OVR. -/
def State.clearStatus (v : Word) (s : State) : State :=
  { s with
    done := s.done && !v.getLsbD 1
    err := s.err && !v.getLsbD 2
    ovr := s.ovr && !v.getLsbD 3 }

/-- CTRL.IRQ_EN (R22). -/
def State.irqEnabled (s : State) : Bool := s.ctrl.getLsbD 0

/-- The interrupt output (60_exceptions.md R230). -/
def State.irq (s : State) : Bool := s.irqEnabled && (s.done || s.err || s.ovr)

/-- The finish of 40_command_control.md R104, which is `complete()` for `ok` and `raise CmdError(code)` otherwise
(00_scope.md R13, 60_exceptions.md R221): the one way a command ends. -/
def State.finish (code : ErrCode) (s : State) : State :=
  { s with
    errcode := errBits code
    err := s.err || decide (code ≠ .ok)
    done := true
    engine := .idle
    pending := Footprint.none }

end Sys2Proof.Machine
end

