-- ==== Sys2Proof/Machine/Memory.lean ====
section
/-! DEFINITION. Memory: reading and writing one byte, the canonical form, address ranges, what an unspecified write footprint
holds, and the engine's accesses with the memory's answer to each. -/

namespace Sys2Proof.Machine

/-- The byte at an address. -/
def Memory.read : Memory → Nat → Byte
  | [], _ => Config.unwrittenByte
  | (b, u) :: m, a => if a = b then u else Memory.read m a

/-- Store one byte, keeping the canonical form: storing what an unlisted address reads as removes the entry. -/
def Memory.write : Memory → Nat → Byte → Memory
  | [], a, v => if v = Config.unwrittenByte then [] else [(a, v)]
  | (b, u) :: m, a, v =>
    if a < b then
      if v = Config.unwrittenByte then (b, u) :: m else (a, v) :: (b, u) :: m
    else if a = b then
      if v = Config.unwrittenByte then m else (a, v) :: m
    else (b, u) :: Memory.write m a v

/-- The entries are at strictly rising addresses from `lo` on, inside the address space, and none holds the unlisted byte. -/
def Memory.risingFrom : Nat → Memory → Bool
  | _, [] => true
  | lo, (a, v) :: m =>
    decide (lo ≤ a) && decide (a < Config.addressLimit) && decide (v ≠ Config.unwrittenByte) && Memory.risingFrom (a + 1) m

/-- The canonical form of memory. -/
def Memory.wf (m : Memory) : Bool := Memory.risingFrom 0 m

/-- The address lies in the range. -/
def Span.contains (r : Span) (a : Nat) : Bool := decide (r.base ≤ a) && decide (a < r.base + r.len)

/-- The address lies in one of the ranges. -/
def inSpans (rs : List Span) (a : Nat) : Bool := rs.any fun r => r.contains a

/-- Both ranges are nonempty and they share an address (40_command_control.md R103 step 6). -/
def Span.overlaps (r q : Span) : Bool :=
  decide (0 < r.len) && decide (0 < q.len) && decide (r.base < q.base + q.len) && decide (q.base < r.base + r.len)

/-- Some range of one list overlaps some range of the other. -/
def spansMeet (rs qs : List Span) : Bool := rs.any fun r => qs.any fun q => r.overlaps q

/-- An empty range, or one that ends at or below 2^32 (20_memory.md R67). -/
def Span.valid (r : Span) : Bool := decide (r.len = 0) || decide (r.base + r.len ≤ Config.addressLimit)

/-- Two footprints that must not be in flight at once: they overlap where either writes (60_exceptions.md R243). -/
def Footprint.conflicts (f g : Footprint) : Bool :=
  spansMeet f.writes (g.reads ++ g.writes) || spansMeet f.reads g.writes

/-- Each of the `n` bytes from address `a` holds a free value of this draw. -/
def Memory.scrambleFrom (draw : Nat) : Nat → Nat → Memory → Memory
  | 0, _, m => m
  | n + 1, a, m => Memory.scrambleFrom draw n (a + 1) (m.write a (Config.freeByte draw a))

/-- Each byte of the ranges holds a free value of this draw (60_exceptions.md R225, 70_reset_and_hazards.md R262). -/
def Memory.scramble (draw : Nat) : List Span → Memory → Memory
  | [], m => m
  | r :: rs, m => Memory.scramble draw rs (Memory.scrambleFrom draw r.len r.base m)

/-- `mem_ok(addr, kind)`: the memory's answer to an engine access (20_memory.md R65). -/
def memOk (errs : List (Nat × AccessKind)) (a : Nat) (k : AccessKind) : Bool := !errs.contains (a, k)

/-- `MemRead(addr, 1)` by the engine (00_scope.md R13); none is a bus error. -/
def engineRead (errs : List (Nat × AccessKind)) (m : Memory) (a : Nat) : Option Byte :=
  if memOk errs a .read then some (m.read a) else none

/-- `MemWrite(addr, 1, v)` by the engine (00_scope.md R13); none is a bus error. -/
def engineWrite (errs : List (Nat × AccessKind)) (m : Memory) (a : Nat) (v : Byte) : Option Memory :=
  if memOk errs a .write then some (m.write a v) else none

/-- A `for` loop of the pseudocode over the memory, which a bus error ends at once. -/
def forEach {α : Type} (f : α → Memory → Option Memory) : List α → Memory → Option Memory
  | [], m => some m
  | x :: xs, m =>
    match f x m with
    | none => none
    | some m' => forEach f xs m'

/-- Sample `(x, y)` of a plane with base `b` and width `w` (20_memory.md R68). -/
def planeAddr (b w x y : Nat) : Nat := b + y * w + x

end Sys2Proof.Machine
end

