-- ==== Sys2Proof/Machine/Arith.lean ====
section
/-! DEFINITION. The arithmetic helpers of 00_scope.md R12, on unbounded integers (R11), and the narrowing of a result to a
byte. Integer `/` by a positive literal is floor division here (Lean's Euclidean quotient). -/

namespace Sys2Proof.Machine

/-- `tdiv(a, b)`, truncation toward zero, for `b > 0` (R12). -/
def tdiv (a b : Int) : Int := if 0 ≤ a then a / b else -((-a) / b)

/-- `sign(x)` (R12). -/
def sgn (x : Int) : Int := if 0 < x then 1 else if x < 0 then -1 else 0

/-- `abs(x)` (R12). -/
def absInt (x : Int) : Int := if 0 ≤ x then x else -x

/-- `clamp(x, lo, hi)` for `lo <= hi` (R12). -/
def clamp (x lo hi : Int) : Int := min (max x lo) hi

/-- `asr(x, n)`, arithmetic shift right (R12). -/
def asr (x : Int) (n : Nat) : Int := x / 2 ^ n

/-- Narrowing of an integer to an 8-bit sample (R11: only where a rule writes it). -/
def toByte (x : Int) : Byte := BitVec.ofInt 8 x

/-- Bits `[8k+7 : 8k]` of a word. -/
def byteOf (w : Word) (k : Nat) : Byte := w.extractLsb' (8 * k) 8

/-- Bits `[15:0]` of a word, as a number (WIDTH, X). -/
def lowHalf (w : Word) : Nat := (w.extractLsb' 0 16).toNat

/-- Bits `[31:16]` of a word, as a number (HEIGHT, Y). -/
def highHalf (w : Word) : Nat := (w.extractLsb' 16 16).toNat

/-- `{b3, b2, b1, b0}`: four bytes packed with `b0` in bits 7:0. -/
def packBytes (b3 b2 b1 b0 : Byte) : Word := (b3 ++ b2 ++ b1 ++ b0 : BitVec 32)

end Sys2Proof.Machine
end

