-- ==== Sys2Proof/Machine/Rom.lean ====
section
/-! DEFINITION. The constant tables (10_state.md R36): StrengthTable and the five ColorLUT tables. The ColorLUT contents are the
listed ROM contents of 42_color_lut.md R162; `lutFormula` beside them is the formula of R160 and R161 they were computed from. -/

namespace Sys2Proof.Machine

/-- StrengthTable (41_deblock.md R120), index 0 first. Entry 0 is a placeholder that no command uses. -/
def strengthTable : List (BitVec 4) :=
  [0, 1, 1, 2, 2, 3, 3, 4, 4, 4, 5, 5, 6, 6, 7, 7, 7, 8, 8, 8, 9, 9, 9, 10, 10, 10, 11, 11, 11, 12, 12, 12]

/-- `StrengthTable[q]` (R120). -/
def strengthEntry (q : BitVec 5) : BitVec 4 := strengthTable.getD q.toNat 0

/-- The five ColorLUT tables, in the order of TSEL (30_encoding.md R88). -/
inductive LutTable where
  | yToGray
  | crToR
  | crToG
  | cbToG
  | cbToB
  deriving DecidableEq, Repr

/-- `y_to_gray` (42_color_lut.md R162), sixteen entries to a row. -/
def yToGrayRows : List (List Int) :=
  [[-298, -279, -261, -242, -224, -205, -186, -168, -149, -130, -112, -93, -75, -56, -37, -19],
   [0, 19, 37, 56, 75, 93, 112, 130, 149, 168, 186, 205, 224, 242, 261, 279],
   [298, 317, 335, 354, 373, 391, 410, 428, 447, 466, 484, 503, 522, 540, 559, 578],
   [596, 615, 633, 652, 671, 689, 708, 727, 745, 764, 782, 801, 820, 838, 857, 876],
   [894, 913, 932, 950, 969, 987, 1006, 1025, 1043, 1062, 1081, 1099, 1118, 1136, 1155, 1174],
   [1192, 1211, 1230, 1248, 1267, 1285, 1304, 1323, 1341, 1360, 1379, 1397, 1416, 1435, 1453, 1472],
   [1490, 1509, 1528, 1546, 1565, 1584, 1602, 1621, 1639, 1658, 1677, 1695, 1714, 1733, 1751, 1770],
   [1788, 1807, 1826, 1844, 1863, 1882, 1900, 1919, 1938, 1956, 1975, 1993, 2012, 2031, 2049, 2068],
   [2087, 2105, 2124, 2142, 2161, 2180, 2198, 2217, 2236, 2254, 2273, 2292, 2310, 2329, 2347, 2366],
   [2385, 2403, 2422, 2441, 2459, 2478, 2496, 2515, 2534, 2552, 2571, 2590, 2608, 2627, 2645, 2664],
   [2683, 2701, 2720, 2739, 2757, 2776, 2795, 2813, 2832, 2850, 2869, 2888, 2906, 2925, 2944, 2962],
   [2981, 2999, 3018, 3037, 3055, 3074, 3093, 3111, 3130, 3148, 3167, 3186, 3204, 3223, 3242, 3260],
   [3279, 3298, 3316, 3335, 3353, 3372, 3391, 3409, 3428, 3447, 3465, 3484, 3502, 3521, 3540, 3558],
   [3577, 3596, 3614, 3633, 3652, 3670, 3689, 3707, 3726, 3745, 3763, 3782, 3801, 3819, 3838, 3856],
   [3875, 3894, 3912, 3931, 3950, 3968, 3987, 4005, 4024, 4043, 4061, 4080, 4099, 4117, 4136, 4155],
   [4173, 4192, 4210, 4229, 4248, 4266, 4285, 4304, 4322, 4341, 4359, 4378, 4397, 4415, 4434, 4453]]

/-- `cr_to_r` (42_color_lut.md R162), sixteen entries to a row. -/
def crToRRows : List (List Int) :=
  [[-3196, -3171, -3146, -3121, -3096, -3071, -3046, -3021, -2996, -2971, -2946, -2921, -2896, -2871, -2846, -2821],
   [-2796, -2771, -2746, -2721, -2696, -2671, -2646, -2621, -2597, -2572, -2547, -2522, -2497, -2472, -2447, -2422],
   [-2397, -2372, -2347, -2322, -2297, -2272, -2247, -2222, -2197, -2172, -2147, -2122, -2097, -2072, -2047, -2022],
   [-1997, -1972, -1947, -1922, -1897, -1872, -1848, -1823, -1798, -1773, -1748, -1723, -1698, -1673, -1648, -1623],
   [-1598, -1573, -1548, -1523, -1498, -1473, -1448, -1423, -1398, -1373, -1348, -1323, -1298, -1273, -1248, -1223],
   [-1198, -1173, -1148, -1123, -1099, -1074, -1049, -1024, -999, -974, -949, -924, -899, -874, -849, -824],
   [-799, -774, -749, -724, -699, -674, -649, -624, -599, -574, -549, -524, -499, -474, -449, -424],
   [-399, -374, -350, -325, -300, -275, -250, -225, -200, -175, -150, -125, -100, -75, -50, -25],
   [0, 25, 50, 75, 100, 125, 150, 175, 200, 225, 250, 275, 300, 325, 350, 374],
   [399, 424, 449, 474, 499, 524, 549, 574, 599, 624, 649, 674, 699, 724, 749, 774],
   [799, 824, 849, 874, 899, 924, 949, 974, 999, 1024, 1049, 1074, 1099, 1123, 1148, 1173],
   [1198, 1223, 1248, 1273, 1298, 1323, 1348, 1373, 1398, 1423, 1448, 1473, 1498, 1523, 1548, 1573],
   [1598, 1623, 1648, 1673, 1698, 1723, 1748, 1773, 1798, 1823, 1848, 1872, 1897, 1922, 1947, 1972],
   [1997, 2022, 2047, 2072, 2097, 2122, 2147, 2172, 2197, 2222, 2247, 2272, 2297, 2322, 2347, 2372],
   [2397, 2422, 2447, 2472, 2497, 2522, 2547, 2572, 2597, 2621, 2646, 2671, 2696, 2721, 2746, 2771],
   [2796, 2821, 2846, 2871, 2896, 2921, 2946, 2971, 2996, 3021, 3046, 3071, 3096, 3121, 3146, 3171]]

/-- `cr_to_g` (42_color_lut.md R162), sixteen entries to a row. -/
def crToGRows : List (List Int) :=
  [[1627, 1615, 1602, 1589, 1576, 1564, 1551, 1538, 1526, 1513, 1500, 1487, 1475, 1462, 1449, 1437],
   [1424, 1411, 1398, 1386, 1373, 1360, 1348, 1335, 1322, 1309, 1297, 1284, 1271, 1259, 1246, 1233],
   [1221, 1208, 1195, 1182, 1170, 1157, 1144, 1132, 1119, 1106, 1093, 1081, 1068, 1055, 1043, 1030],
   [1017, 1004, 992, 979, 966, 954, 941, 928, 915, 903, 890, 877, 865, 852, 839, 826],
   [814, 801, 788, 776, 763, 750, 737, 725, 712, 699, 687, 674, 661, 648, 636, 623],
   [610, 598, 585, 572, 559, 547, 534, 521, 509, 496, 483, 470, 458, 445, 432, 420],
   [407, 394, 381, 369, 356, 343, 331, 318, 305, 292, 280, 267, 254, 242, 229, 216],
   [203, 191, 178, 165, 153, 140, 127, 114, 102, 89, 76, 64, 51, 38, 25, 13],
   [0, -13, -25, -38, -51, -64, -76, -89, -102, -114, -127, -140, -153, -165, -178, -191],
   [-203, -216, -229, -242, -254, -267, -280, -292, -305, -318, -331, -343, -356, -369, -381, -394],
   [-407, -420, -432, -445, -458, -470, -483, -496, -509, -521, -534, -547, -559, -572, -585, -598],
   [-610, -623, -636, -648, -661, -674, -687, -699, -712, -725, -737, -750, -763, -776, -788, -801],
   [-814, -826, -839, -852, -865, -877, -890, -903, -915, -928, -941, -954, -966, -979, -992, -1004],
   [-1017, -1030, -1043, -1055, -1068, -1081, -1093, -1106, -1119, -1132, -1144, -1157, -1170, -1182, -1195, -1208],
   [-1221, -1233, -1246, -1259, -1271, -1284, -1297, -1309, -1322, -1335, -1348, -1360, -1373, -1386, -1398, -1411],
   [-1424, -1437, -1449, -1462, -1475, -1487, -1500, -1513, -1526, -1538, -1551, -1564, -1576, -1589, -1602, -1615]]

/-- `cb_to_g` (42_color_lut.md R162), sixteen entries to a row. -/
def cbToGRows : List (List Int) :=
  [[787, 781, 775, 769, 763, 756, 750, 744, 738, 732, 726, 720, 713, 707, 701, 695],
   [689, 683, 676, 670, 664, 658, 652, 646, 640, 633, 627, 621, 615, 609, 603, 597],
   [590, 584, 578, 572, 566, 560, 553, 547, 541, 535, 529, 523, 517, 510, 504, 498],
   [492, 486, 480, 474, 467, 461, 455, 449, 443, 437, 430, 424, 418, 412, 406, 400],
   [394, 387, 381, 375, 369, 363, 357, 351, 344, 338, 332, 326, 320, 314, 307, 301],
   [295, 289, 283, 277, 271, 264, 258, 252, 246, 240, 234, 228, 221, 215, 209, 203],
   [197, 191, 184, 178, 172, 166, 160, 154, 148, 141, 135, 129, 123, 117, 111, 105],
   [98, 92, 86, 80, 74, 68, 61, 55, 49, 43, 37, 31, 25, 18, 12, 6],
   [0, -6, -12, -18, -25, -31, -37, -43, -49, -55, -61, -68, -74, -80, -86, -92],
   [-98, -105, -111, -117, -123, -129, -135, -141, -148, -154, -160, -166, -172, -178, -184, -191],
   [-197, -203, -209, -215, -221, -228, -234, -240, -246, -252, -258, -264, -271, -277, -283, -289],
   [-295, -301, -307, -314, -320, -326, -332, -338, -344, -351, -357, -363, -369, -375, -381, -387],
   [-394, -400, -406, -412, -418, -424, -430, -437, -443, -449, -455, -461, -467, -474, -480, -486],
   [-492, -498, -504, -510, -517, -523, -529, -535, -541, -547, -553, -560, -566, -572, -578, -584],
   [-590, -597, -603, -609, -615, -621, -627, -633, -640, -646, -652, -658, -664, -670, -676, -683],
   [-689, -695, -701, -707, -713, -720, -726, -732, -738, -744, -750, -756, -763, -769, -775, -781]]

/-- `cb_to_b` (42_color_lut.md R162), sixteen entries to a row. -/
def cbToBRows : List (List Int) :=
  [[-4039, -4008, -3976, -3944, -3913, -3881, -3850, -3818, -3787, -3755, -3724, -3692, -3660, -3629, -3597, -3566],
   [-3534, -3503, -3471, -3440, -3408, -3376, -3345, -3313, -3282, -3250, -3219, -3187, -3156, -3124, -3092, -3061],
   [-3029, -2998, -2966, -2935, -2903, -2872, -2840, -2808, -2777, -2745, -2714, -2682, -2651, -2619, -2588, -2556],
   [-2524, -2493, -2461, -2430, -2398, -2367, -2335, -2304, -2272, -2240, -2209, -2177, -2146, -2114, -2083, -2051],
   [-2020, -1988, -1956, -1925, -1893, -1862, -1830, -1799, -1767, -1736, -1704, -1672, -1641, -1609, -1578, -1546],
   [-1515, -1483, -1452, -1420, -1388, -1357, -1325, -1294, -1262, -1231, -1199, -1168, -1136, -1104, -1073, -1041],
   [-1010, -978, -947, -915, -884, -852, -820, -789, -757, -726, -694, -663, -631, -600, -568, -536],
   [-505, -473, -442, -410, -379, -347, -316, -284, -252, -221, -189, -158, -126, -95, -63, -32],
   [0, 32, 63, 95, 126, 158, 189, 221, 252, 284, 316, 347, 379, 410, 442, 473],
   [505, 536, 568, 600, 631, 663, 694, 726, 757, 789, 820, 852, 884, 915, 947, 978],
   [1010, 1041, 1073, 1104, 1136, 1168, 1199, 1231, 1262, 1294, 1325, 1357, 1388, 1420, 1452, 1483],
   [1515, 1546, 1578, 1609, 1641, 1672, 1704, 1736, 1767, 1799, 1830, 1862, 1893, 1925, 1956, 1988],
   [2020, 2051, 2083, 2114, 2146, 2177, 2209, 2240, 2272, 2304, 2335, 2367, 2398, 2430, 2461, 2493],
   [2524, 2556, 2588, 2619, 2651, 2682, 2714, 2745, 2777, 2808, 2840, 2872, 2903, 2935, 2966, 2998],
   [3029, 3061, 3092, 3124, 3156, 3187, 3219, 3250, 3282, 3313, 3345, 3376, 3408, 3440, 3471, 3503],
   [3534, 3566, 3597, 3629, 3660, 3692, 3724, 3755, 3787, 3818, 3850, 3881, 3913, 3944, 3976, 4008]]

/-- The listed rows of a table (42_color_lut.md R162). -/
def lutRows : LutTable → List (List Int)
  | .yToGray => yToGrayRows
  | .crToR => crToRRows
  | .crToG => crToGRows
  | .cbToG => cbToGRows
  | .cbToB => cbToBRows

/-- The ROM entry of a table: a 16-bit two's-complement word in 12.4 fixed point (R162). -/
def lutEntry (t : LutTable) (v : Byte) : BitVec 16 :=
  BitVec.ofInt 16 (((lutRows t).getD (v.toNat / 16) []).getD (v.toNat % 16) 0)

/-- The ROM entry as the signed integer that conversion adds (R163). -/
def lutValue (t : LutTable) (v : Byte) : Int := (lutEntry t v).toInt

/-- `round(n / d)` for `d > 0`: to the nearest integer, halves away from zero (R160). -/
def roundQuot (n d : Int) : Int := if 0 ≤ n then (2 * n + d) / (2 * d) else -((2 * -n + d) / (2 * d))

/-- The coefficient of a chroma table in millionths (R161); the luma table has none. -/
def lutCoefficient : LutTable → Int
  | .yToGray => 0
  | .crToR => 1370705
  | .crToG => -698001
  | .cbToG => -337633
  | .cbToB => 1732446

/-- The formula the ROM was computed from (R160, R161), in exact rational arithmetic. No meaning uses it: the ROM is `lutEntry`. -/
def lutFormula (t : LutTable) (v : Byte) : Int :=
  match t with
  | .yToGray => roundQuot (((v.toNat : Int) - 16) * 255 * 16) 219
  | _ => roundQuot (((v.toNat : Int) - 128) * 255 * lutCoefficient t * 16) (224 * 1000000)

/-- `TSEL` of format T (30_encoding.md R88); 5, 6 and 7 select no table. -/
def tableOf (tsel : BitVec 3) : Option LutTable :=
  if tsel = 0 then some .yToGray
  else if tsel = 1 then some .crToR
  else if tsel = 2 then some .crToG
  else if tsel = 3 then some .cbToG
  else if tsel = 4 then some .cbToB
  else none

end Sys2Proof.Machine
end

