-- ==== Sys2Proof/Machine/Operands.lean ====
section
/-! DEFINITION. Operand assembly (30_encoding.md R87, R88), the plane sizes (10_state.md R27), the footprint of a command
(20_memory.md R66) and its validation (40_command_control.md R103). -/

namespace Sys2Proof.Machine

/-- WIDTH of the latched DIM (10_state.md R27). -/
def Latch.width (L : Latch) : Nat := lowHalf L.dim

/-- HEIGHT of the latched DIM (R27). -/
def Latch.height (L : Latch) : Nat := highHalf L.dim

/-- `CW`, the chroma width (R27). -/
def Latch.chromaWidth (L : Latch) : Nat := (L.width + 1) / 2

/-- `CH`, the chroma height (R27). -/
def Latch.chromaHeight (L : Latch) : Nat := (L.height + 1) / 2

/-- The luma column of the latched POS (R30). -/
def Latch.posX (L : Latch) : Nat := lowHalf L.pos

/-- The luma row of the latched POS (R30). -/
def Latch.posY (L : Latch) : Nat := highHalf L.pos

/-- The strength that `SQ` and `QM` select when they are legal (30_encoding.md R87). -/
def strengthValue (qm : BitVec 1) (sq : BitVec 5) : Nat :=
  if qm = 0#1 then sq.toNat else (strengthEntry sq).toNat

/-- `strength_of(SQ, QM)` (R87). -/
def strengthOf (qm : BitVec 1) (sq : BitVec 5) : Except ErrCode Nat :=
  if qm = 0#1 then
    if Config.strengthMax < sq.toNat then .error .badStrength else .ok (strengthValue qm sq)
  else if sq = 0#5 then .error .badQuant
  else .ok (strengthValue qm sq)

/-- `quant_of(Q)` (R87). -/
def quantOf (q : BitVec 5) : Except ErrCode (BitVec 5) := if q = 0#5 then .error .badQuant else .ok q

/-- The code of an operand assembly. -/
def codeOf {α : Type} : Except ErrCode α → ErrCode
  | .ok _ => .ok
  | .error e => e

/-- The footprint of a command (20_memory.md R66). -/
def footprintOf (i : Instr) (L : Latch) : Footprint :=
  let luma := L.width * L.height
  let chroma := L.chromaWidth * L.chromaHeight
  match i with
  | .deblock _ _ _ _ _ => ⟨[⟨L.src0.toNat, luma⟩], [⟨L.src0.toNat, luma⟩]⟩
  | .ups _ => ⟨[⟨L.src1.toNat, chroma⟩, ⟨L.src2.toNat, chroma⟩], []⟩
  | .compose _ =>
    ⟨[⟨L.src0.toNat, luma⟩, ⟨L.src1.toNat, chroma⟩, ⟨L.src2.toNat, chroma⟩], [⟨L.dst.toNat, 4 * luma⟩]⟩
  | .nop _ => Footprint.none
  | .qlookup _ _ => Footprint.none
  | .edge _ _ _ => Footprint.none
  | .lutrd _ _ _ => Footprint.none
  | .cvt _ => Footprint.none

/-- The footprint of the latched command word, empty if the word is illegal (40_command_control.md R101). -/
def latchFootprint (L : Latch) : Footprint :=
  match decode L.cmd with
  | .ok i => footprintOf i L
  | .error _ => Footprint.none

/-- The code of a format's reserved bits (30_encoding.md R89). -/
def reservedCode {n : Nat} (resv : BitVec n) : ErrCode := if resv = 0 then .ok else .reservedNonzero

/-- Validation step 2 (R103). -/
def checkReserved : Instr → ErrCode
  | .nop resv => reservedCode resv
  | .qlookup resv _ => reservedCode resv
  | .edge resv _ _ => reservedCode resv
  | .deblock resv _ _ _ _ => reservedCode resv
  | .lutrd resv _ _ => reservedCode resv
  | .cvt resv => reservedCode resv
  | .ups resv => reservedCode resv
  | .compose resv => reservedCode resv

/-- Validation step 3 (R103). -/
def checkFields : Instr → ErrCode
  | .nop _ => .ok
  | .qlookup _ q => codeOf (quantOf q)
  | .edge _ qm sq => codeOf (strengthOf qm sq)
  | .deblock _ _ _ qm sq => codeOf (strengthOf qm sq)
  | .lutrd _ tsel _ => if 4 < tsel.toNat then .badTable else .ok
  | .cvt _ => .ok
  | .ups _ => .ok
  | .compose _ => .ok

/-- Validation step 4 (R103). -/
def checkPosition (i : Instr) (L : Latch) : ErrCode :=
  match i with
  | .ups _ => if L.width ≤ L.posX ∨ L.height ≤ L.posY then .badPos else .ok
  | .nop _ => .ok
  | .qlookup _ _ => .ok
  | .edge _ _ _ => .ok
  | .deblock _ _ _ _ _ => .ok
  | .lutrd _ _ _ => .ok
  | .cvt _ => .ok
  | .compose _ => .ok

/-- Validation step 5 (R103): every nonempty range ends at or below 2^32 (20_memory.md R67). -/
def checkRanges (f : Footprint) : ErrCode := if (f.reads ++ f.writes).all Span.valid then .ok else .addrRange

/-- Validation step 6 (R103): the RGBA range of COMPOSE meets none of its three source ranges. -/
def checkOverlap (i : Instr) (f : Footprint) : ErrCode :=
  match i with
  | .compose _ => if spansMeet f.writes f.reads then .overlap else .ok
  | .nop _ => .ok
  | .qlookup _ _ => .ok
  | .edge _ _ _ => .ok
  | .deblock _ _ _ _ _ => .ok
  | .lutrd _ _ _ => .ok
  | .cvt _ => .ok
  | .ups _ => .ok

/-- The first check that fails gives the code (R103, 60_exceptions.md R223). -/
def firstError : List ErrCode → ErrCode
  | [] => .ok
  | c :: cs => if c = .ok then firstError cs else c

/-- `validate(L)` of R103 for a word that decodes (step 1 is the decoder's). -/
def validate (i : Instr) (L : Latch) : ErrCode :=
  firstError
    [checkReserved i, checkFields i, checkPosition i L, checkRanges (footprintOf i L), checkOverlap i (footprintOf i L)]

end Sys2Proof.Machine
end

