-- ==== Sys2Proof/Machine/Ops.lean ====
section
/-! DEFINITION. The shared operations on the state: how each kind of command ends (40_command_control.md R104), acceptance
(R101), and the reset with the abort of a command in flight (70_reset_and_hazards.md R260 to R262). -/

namespace Sys2Proof.Machine

/-- A register-mode command that passed validation writes RESULT and completes; one that failed only finishes (R104). -/
def State.finishRegister (code : ErrCode) (v : Word) (s : State) : State :=
  if code = .ok then ({ s with result := v } : State).finish .ok else s.finish code

/-- `raise CmdError(BUS_ERROR)`: the write footprint holds free values of a fresh draw (60_exceptions.md R225). -/
def State.finishBusError (f : Footprint) (s : State) : State :=
  ({ s with mem := s.mem.scramble s.draws f.writes, draws := s.draws + 1 } : State).finish .busError

/-- The footprint touches memory that is not ordinary (20_memory.md R65). -/
def State.touchesNonOrdinary (f : Footprint) (s : State) : Bool := spansMeet (f.reads ++ f.writes) s.nonOrdinary

/-- The frame of every command that reaches memory (DEBLOCK, UPS, COMPOSE): validation first, then no access to memory that
is not ordinary, then the command's own accesses, where none is a bus error (R104). -/
def runMemoryCommand {α : Type} (i : Instr) (body : Option α) (done : α → State) (s : State) : Result :=
  if validate i s.latch = .ok then
    if s.touchesNonOrdinary (footprintOf i s.latch) then .refused .nonOrdinaryMemory
    else
      match body with
      | some x => .next (done x)
      | none => .next (s.finishBusError (footprintOf i s.latch))
  else .next (s.finish (validate i s.latch))

/-- The operand latch as acceptance of the word loads it (R101). -/
def State.capture (w : Word) (s : State) : Latch :=
  { cmd := w, src0 := s.src0, src1 := s.src1, src2 := s.src2, dst := s.dst, dim := s.dim
    edgeIn := s.edgeIn, pixIn := s.pixIn, pos := s.pos }

/-- Acceptance of a command word (R101), with the latency the command will have (70_reset_and_hazards.md R270). -/
def State.accept (w : Word) (latency : Nat) (s : State) : State :=
  { s with
    latch := s.capture w
    cmd := w
    done := false
    engine := .busy
    pending := latchFootprint (s.capture w)
    delay := latency }

/-- The footprint that an abort leaves unspecified: the write footprint of a command in flight that passes validation
(70_reset_and_hazards.md R262: one that ends with an error before any write leaves memory unchanged). -/
def State.abortedFootprint (s : State) : Footprint :=
  if s.engine = .busy then
    match decode s.latch.cmd with
    | .ok i => if validate i s.latch = .ok then footprintOf i s.latch else Footprint.none
    | .error _ => Footprint.none
  else Footprint.none

/-- A latch of free values (10_state.md R40: unspecified after a reset). -/
def freeLatch (draw : Nat) : Latch :=
  { cmd := Config.freeWord draw 0, src0 := Config.freeWord draw 1, src1 := Config.freeWord draw 2
    src2 := Config.freeWord draw 3, dst := Config.freeWord draw 4, dim := Config.freeWord draw 5
    edgeIn := Config.freeWord draw 6, pixIn := Config.freeWord draw 7, pos := Config.freeWord draw 8 }

/-- The state either reset leaves, with the reset input not asserted (10_state.md R40, 70_reset_and_hazards.md R260 to R262):
every register at its reset value, the engine idle, memory as it was but for an aborted command's write footprint. What lies
outside the device is kept. -/
def State.afterReset (s : State) : State :=
  { State.reset with
    latch := freeLatch s.draws
    mem := s.mem.scramble s.draws s.abortedFootprint.writes
    draws := s.draws + 1
    host := s.host
    seen := s.seen
    memErr := s.memErr
    nonOrdinary := s.nonOrdinary
    peers := s.peers }

/-- Soft reset (R261). Aborting a command that may have touched memory which is not ordinary is refused
(20_memory.md R65). -/
def State.resetDevice (s : State) : Result :=
  if s.touchesNonOrdinary s.abortedFootprint then .refused .nonOrdinaryMemory else .next s.afterReset

/-- The platform asserts the reset input (R260): the state change of a reset, which then lasts until the input is released.
Asserting it again changes nothing. -/
def State.assertReset (s : State) : Result :=
  if s.resetHeld then .next s
  else if s.touchesNonOrdinary s.abortedFootprint then .refused .nonOrdinaryMemory
  else .next { s.afterReset with resetHeld := true }

/-- The platform releases the reset input: the device waits in IDLE for a CMD write (R260). -/
def State.releaseReset (s : State) : State := { s with resetHeld := false }

end Sys2Proof.Machine
end

