-- ==== Sys2Proof/Machine/Color.lean ====
section
/-! DEFINITION. The colour unit (42_color_lut.md): the conversion function, LUTRD and CVT. -/

namespace Sys2Proof.Machine

/-- One converted pixel. -/
structure Rgb where
  r : Byte
  g : Byte
  b : Byte
  deriving DecidableEq, Repr

/-- One channel: round the 12.4 sum to an integer and clamp it (R163). -/
def channel (sum : Int) : Byte := toByte (clamp (asr (sum + 8) 4) 0 255)

/-- `YCC2RGB(y, cb, cr)` (R163). -/
def convert (y cb cr : Byte) : Rgb :=
  let gray := lutValue .yToGray y
  { r := channel (gray + lutValue .crToR cr)
    g := channel (gray + lutValue .crToG cr + lutValue .cbToG cb)
    b := channel (gray + lutValue .cbToB cb) }

/-- RESULT of CVT: R in bits 7:0, then G, B, and 255 on top (R168). -/
def rgbaWord (p : Rgb) : Word := packBytes 255 p.b p.g p.r

/-- RESULT of LUTRD: the 16-bit entry sign-extended (R167); a TSEL that selects no table never gets here. -/
def lutWord (tsel : BitVec 3) (idx : BitVec 8) : Word :=
  match tableOf tsel with
  | some t => (lutEntry t idx).signExtend 32
  | none => 0

/-- LUTRD (R167). -/
def execLutrd (resv : BitVec 13) (tsel : BitVec 3) (idx : BitVec 8) (s : State) : Result :=
  .next (s.finishRegister (validate (.lutrd resv tsel idx) s.latch) (lutWord tsel idx))

/-- CVT (R168): `y`, `cb` and `cr` are bytes 0, 1 and 2 of the latched PIX_IN. -/
def execCvt (resv : BitVec 24) (s : State) : Result :=
  .next (s.finishRegister (validate (.cvt resv) s.latch)
    (rgbaWord (convert (byteOf s.latch.pixIn 0) (byteOf s.latch.pixIn 1) (byteOf s.latch.pixIn 2))))

end Sys2Proof.Machine
end

