-- ==== Sys2Proof/Machine/Chroma.lean ====
section
/-! DEFINITION. The chroma upsampler and the frame compositor (43_upsample_compose.md): UPS and COMPOSE. -/

namespace Sys2Proof.Machine

/-- The nearer chroma index, before clamping (R191). -/
def nearIndex (p : Nat) : Int := if p % 2 = 1 then ((p : Int) - 1) / 2 else (p : Int) / 2

/-- The farther chroma index, before clamping (R191). -/
def farIndex (p : Nat) : Int := if p % 2 = 1 then nearIndex p + 1 else nearIndex p - 1

/-- An index clamped to a chroma dimension `n` (R191). -/
def clampIndex (i : Int) (n : Nat) : Nat := (clamp i 0 ((n : Int) - 1)).toNat

/-- `nearfar(p, n)` (R191). -/
def nearFar (p n : Nat) : Nat × Nat := (clampIndex (nearIndex p) n, clampIndex (farIndex p) n)

/-- The 9:3:3:1 kernel with its single rounding (R192); the arguments are the samples at (near, near), (far, near),
(near, far) and (far, far), column before row. -/
def upsampleValue (nn fn nf ff : Byte) : Byte :=
  BitVec.ofNat 8 ((9 * nn.toNat + 3 * fn.toNat + 3 * nf.toNat + ff.toNat + 8) / 16)

/-- `UpsampleAt(C, x, y)` for the chroma plane at `base` (R192); none is a bus error. -/
def upsampleAt (errs : List (Nat × AccessKind)) (m : Memory) (base cw ch x y : Nat) : Option Byte := do
  let col := nearFar x cw
  let row := nearFar y ch
  let nn ← engineRead errs m (planeAddr base cw col.1 row.1)
  let fn ← engineRead errs m (planeAddr base cw col.2 row.1)
  let nf ← engineRead errs m (planeAddr base cw col.1 row.2)
  let ff ← engineRead errs m (planeAddr base cw col.2 row.2)
  some (upsampleValue nn fn nf ff)

/-- RESULT of UPS: Cb in bits 7:0, Cr in bits 15:8 (R196); none is a bus error. -/
def upsampledWord (errs : List (Nat × AccessKind)) (m : Memory) (L : Latch) : Option Word := do
  let cb ← upsampleAt errs m L.src1.toNat L.chromaWidth L.chromaHeight L.posX L.posY
  let cr ← upsampleAt errs m L.src2.toNat L.chromaWidth L.chromaHeight L.posX L.posY
  some (packBytes 0 0 cr cb)

/-- `PixelRGBA(x, y)` without its constant alpha (R195); none is a bus error. -/
def pixelRgb (errs : List (Nat × AccessKind)) (L : Latch) (m : Memory) (x y : Nat) : Option Rgb := do
  let luma ← engineRead errs m (planeAddr L.src0.toNat L.width x y)
  let cb ← upsampleAt errs m L.src1.toNat L.chromaWidth L.chromaHeight x y
  let cr ← upsampleAt errs m L.src2.toNat L.chromaWidth L.chromaHeight x y
  some (convert luma cb cr)

/-- RGBA byte `k` of pixel `(x, y)` (20_memory.md R68). -/
def rgbaAddr (L : Latch) (x y k : Nat) : Nat := L.dst.toNat + 4 * (y * L.width + x) + k

/-- Write the four bytes of one pixel, in the order R, G, B, A (R197, 20_memory.md R64). -/
def writePixel (errs : List (Nat × AccessKind)) (L : Latch) (x y : Nat) (p : Rgb) (m : Memory) : Option Memory := do
  let m ← engineWrite errs m (rgbaAddr L x y 0) p.r
  let m ← engineWrite errs m (rgbaAddr L x y 1) p.g
  let m ← engineWrite errs m (rgbaAddr L x y 2) p.b
  engineWrite errs m (rgbaAddr L x y 3) 255

/-- Compose one pixel (R197). -/
def composePixel (errs : List (Nat × AccessKind)) (L : Latch) (y x : Nat) (m : Memory) : Option Memory := do
  let p ← pixelRgb errs L m x y
  writePixel errs L x y p m

/-- The memory effect of COMPOSE: row by row, column by column (R197); none is a bus error. -/
def composeFrame (errs : List (Nat × AccessKind)) (L : Latch) (m : Memory) : Option Memory :=
  forEach (fun y => forEach (fun x => composePixel errs L y x) (List.range L.width)) (List.range L.height) m

/-- UPS (R196). DEDUCED, log entry 25: it reads chroma bytes as R196 and 20_memory.md R60 and R66 say, where
60_exceptions.md R244 lists it among commands with no memory access. -/
def execUps (resv : BitVec 24) (s : State) : Result :=
  runMemoryCommand (.ups resv) (upsampledWord s.memErr s.mem s.latch) (fun v => s.finishRegister .ok v) s

/-- COMPOSE (R197). -/
def execCompose (resv : BitVec 24) (s : State) : Result :=
  runMemoryCommand (.compose resv) (composeFrame s.memErr s.latch s.mem)
    (fun m => ({ s with mem := m } : State).finish .ok) s

end Sys2Proof.Machine
end

