-- ==== Sys2Proof/Machine/Control.lean ====
section
/-! DEFINITION. The control family: NOP (40_command_control.md R105). -/

namespace Sys2Proof.Machine

/-- NOP (R105): completes, or ends with RESERVED_NONZERO. -/
def execNop (resv : BitVec 24) (s : State) : Result := .next (s.finish (validate (.nop resv) s.latch))

end Sys2Proof.Machine
end

