-- ==== Sys2Proof/Machine/Deblock.lean ====
section
/-! DEFINITION. The deblocking unit (41_deblock.md): EdgeFilter, the two passes, and QLOOKUP, EDGE, DEBLOCK. -/

namespace Sys2Proof.Machine

/-- The four samples on one line across an edge; `b` and `c` are adjacent to it (R123). -/
structure Samples where
  a : Byte
  b : Byte
  c : Byte
  d : Byte
  deriving DecidableEq, Repr

/-- `ramp(x, s)` (R124). -/
def ramp (x s : Int) : Int := sgn x * max 0 (absInt x - max 0 (2 * (absInt x - s)))

/-- `clip(x, lim)` (R125). -/
def clip (x lim : Int) : Int := clamp x (-(absInt lim)) (absInt lim)

/-- `d` of R126. -/
def edgeD (a b c d : Int) : Int := tdiv (a - 4 * b + 4 * c - d) 8

/-- `d1` of R126. -/
def edgeD1 (a b c d s : Int) : Int := ramp (edgeD a b c d) s

/-- `d2` of R126. -/
def edgeD2 (a b c d s : Int) : Int := clip (tdiv (a - d) 4) (tdiv (edgeD1 a b c d s) 2)

/-- `A'` of R126 before narrowing: no clamp is needed (R128). -/
def edgeA (a b c d s : Int) : Int := a - edgeD2 a b c d s

/-- `B'` of R126. -/
def edgeB (a b c d s : Int) : Int := clamp (b + edgeD1 a b c d s) 0 255

/-- `C'` of R126. -/
def edgeC (a b c d s : Int) : Int := clamp (c - edgeD1 a b c d s) 0 255

/-- `D'` of R126 before narrowing: no clamp is needed (R128). -/
def edgeDOut (a b c d s : Int) : Int := d + edgeD2 a b c d s

/-- EdgeFilter on four 8-bit samples (R122, R126), narrowed to 8 bits where the results are written. -/
def edgeFilter (x : Samples) (s : Nat) : Samples :=
  let a : Int := x.a.toNat
  let b : Int := x.b.toNat
  let c : Int := x.c.toNat
  let d : Int := x.d.toNat
  { a := toByte (edgeA a b c d s), b := toByte (edgeB a b c d s)
    c := toByte (edgeC a b c d s), d := toByte (edgeDOut a b c d s) }

/-- The samples of EDGE_IN (R132, 10_state.md R28). -/
def edgeOperands (w : Word) : Samples := ⟨byteOf w 0, byteOf w 1, byteOf w 2, byteOf w 3⟩

/-- RESULT of EDGE: `D'`, `C'`, `B'`, `A'` from the top byte down (R132). -/
def edgeWord (x : Samples) : Word := packBytes x.d x.c x.b x.a

/-- EdgeFilter applied to four bytes of memory in place: four reads, then four writes (R134). -/
def filterAt (errs : List (Nat × AccessKind)) (s : Nat) (pa pb pc pd : Nat) (m : Memory) : Option Memory := do
  let a ← engineRead errs m pa
  let b ← engineRead errs m pb
  let c ← engineRead errs m pc
  let d ← engineRead errs m pd
  let y := edgeFilter ⟨a, b, c, d⟩ s
  let m ← engineWrite errs m pa y.a
  let m ← engineWrite errs m pb y.b
  let m ← engineWrite errs m pc y.c
  engineWrite errs m pd y.d

/-- The edge positions 8, 16, 24, … up to `n - 2` (R134, R135; none when `n < 10`, R137). -/
def edgePositions (n : Nat) : List Nat := (List.range ((n - 2) / Config.block)).map fun k => Config.block * (k + 1)

/-- EdgeFilter across the horizontal edge at row `y` in column `x` (R134). -/
def filterRowEdge (errs : List (Nat × AccessKind)) (b w s y x : Nat) (m : Memory) : Option Memory :=
  filterAt errs s (planeAddr b w x (y - 2)) (planeAddr b w x (y - 1)) (planeAddr b w x y) (planeAddr b w x (y + 1)) m

/-- EdgeFilter across the vertical edge at column `x` in row `y` (R135). -/
def filterColumnEdge (errs : List (Nat × AccessKind)) (b w s x y : Nat) (m : Memory) : Option Memory :=
  filterAt errs s (planeAddr b w (x - 2) y) (planeAddr b w (x - 1) y) (planeAddr b w x y) (planeAddr b w (x + 1) y) m

/-- `HorizontalPass(b, W, H, s)` (R134). -/
def horizontalPass (errs : List (Nat × AccessKind)) (b w h s : Nat) (m : Memory) : Option Memory :=
  forEach (fun y => forEach (fun x => filterRowEdge errs b w s y x) (List.range w)) (edgePositions h) m

/-- `VerticalPass(b, W, H, s)` (R135). -/
def verticalPass (errs : List (Nat × AccessKind)) (b w h s : Nat) (m : Memory) : Option Memory :=
  forEach (fun x => forEach (fun y => filterColumnEdge errs b w s x y) (List.range h)) (edgePositions w) m

/-- The memory effect of DEBLOCK: the enabled passes, the horizontal one first (R133, R136); none is a bus error.
DESIGN CHOICE, log entry 24: the engine accesses exactly the samples of the passes' pseudocode, so a byte of the plane on no
filtered line cannot give BUS_ERROR, where 95_test_vectors.md X9 expects one. -/
def deblockPlane (errs : List (Nat × AccessKind)) (hp vp : BitVec 1) (b w h s : Nat) (m : Memory) : Option Memory :=
  (if hp = 1#1 then horizontalPass errs b w h s m else some m).bind fun m =>
    if vp = 1#1 then verticalPass errs b w h s m else some m

/-- QLOOKUP (R131). -/
def execQlookup (resv : BitVec 19) (q : BitVec 5) (s : State) : Result :=
  .next (s.finishRegister (validate (.qlookup resv q) s.latch) ((strengthEntry q).setWidth 32))

/-- EDGE (R132). -/
def execEdge (resv : BitVec 18) (qm : BitVec 1) (sq : BitVec 5) (s : State) : Result :=
  .next (s.finishRegister (validate (.edge resv qm sq) s.latch)
    (edgeWord (edgeFilter (edgeOperands s.latch.edgeIn) (strengthValue qm sq))))

/-- DEBLOCK (R133). -/
def execDeblock (resv : BitVec 16) (v h qm : BitVec 1) (sq : BitVec 5) (s : State) : Result :=
  runMemoryCommand (.deblock resv v h qm sq)
    (deblockPlane s.memErr h v s.latch.src0.toNat s.latch.width s.latch.height (strengthValue qm sq) s.mem)
    (fun m => ({ s with mem := m } : State).finish .ok) s

end Sys2Proof.Machine
end

