-- ==== Sys2Proof/Machine/Dispatch.lean ====
section
/-! DEFINITION. One arm per command: the completion step of the decoded command in flight (40_command_control.md R104). -/

namespace Sys2Proof.Machine

def exec (i : Instr) (s : State) : Host.Outcome State Fault Refusal :=
  match i with
  | .nop resv => Sys2Proof.Machine.execNop resv s
  | .qlookup resv q => Sys2Proof.Machine.execQlookup resv q s
  | .edge resv qm sq => Sys2Proof.Machine.execEdge resv qm sq s
  | .deblock resv v h qm sq => Sys2Proof.Machine.execDeblock resv v h qm sq s
  | .lutrd resv tsel idx => Sys2Proof.Machine.execLutrd resv tsel idx s
  | .cvt resv => Sys2Proof.Machine.execCvt resv s
  | .ups resv => Sys2Proof.Machine.execUps resv s
  | .compose resv => Sys2Proof.Machine.execCompose resv s

end Sys2Proof.Machine
end

