-- ==== Sys2Proof/Machine/HostPort.lean ====
section
/-! DEFINITION. What the world outside the engine does in one step: register accesses (10_state.md R20 to R35, 20_memory.md
R61), command issue (40_command_control.md R101, R102), memory accesses with the footprint hazard (70_reset_and_hazards.md
R265), the reset input (R260), the memory's answers (20_memory.md R65) and other instances (60_exceptions.md R243). -/

namespace Sys2Proof.Machine

/-- The registers of the block (10_state.md R20). -/
inductive Reg where
  | id
  | ctrl
  | status
  | cmd
  | src0
  | src1
  | src2
  | dst
  | dim
  | edgeIn
  | pixIn
  | pos
  | result
  | unassigned
  deriving DecidableEq, Repr

/-- The register at an aligned byte offset (R20); 0x34, 0x38 and 0x3C are unassigned (R32). -/
def regAt (offset : BitVec 6) : Reg :=
  if offset = 0x00#6 then .id
  else if offset = 0x04#6 then .ctrl
  else if offset = 0x08#6 then .status
  else if offset = 0x0C#6 then .cmd
  else if offset = 0x10#6 then .src0
  else if offset = 0x14#6 then .src1
  else if offset = 0x18#6 then .src2
  else if offset = 0x1C#6 then .dst
  else if offset = 0x20#6 then .dim
  else if offset = 0x24#6 then .edgeIn
  else if offset = 0x28#6 then .pixIn
  else if offset = 0x2C#6 then .pos
  else if offset = 0x30#6 then .result
  else .unassigned

/-- The offset of a host address in this device's register block; none outside the block, which is 64 bytes from `REG_BASE`
(20_memory.md R61). -/
def portOffset (addr : Nat) : Option (BitVec 6) :=
  if Config.regBase ≤ addr ∧ addr < Config.regBase + Config.regBlockBytes then some (BitVec.ofNat 6 (addr - Config.regBase))
  else none

/-- The only legal register access: 32 bits wide, at a multiple of 4 (20_memory.md R61). -/
def legalAccess (width : Nat) (offset : BitVec 6) : Bool := decide (width = 4) && decide (offset.toNat % 4 = 0)

/-- What a host read of a register returns (R21 to R32). -/
def State.readReg (s : State) : Reg → Word
  | .id => Config.deviceId
  | .ctrl => s.ctrl
  | .status => s.statusWord
  | .cmd => s.cmd
  | .src0 => s.src0
  | .src1 => s.src1
  | .src2 => s.src2
  | .dst => s.dst
  | .dim => s.dim
  | .edgeIn => s.edgeIn
  | .pixIn => s.pixIn
  | .pos => s.pos
  | .result => s.result
  | .unassigned => 0

/-- Record what a host read returned. -/
def State.observe (o : Observation) (s : State) : State := { s with seen := o :: s.seen }

/-- Another instance's command in flight conflicts with this footprint (60_exceptions.md R243). -/
def State.peerConflict (f : Footprint) (s : State) : Bool := s.peers.any fun p => f.conflicts p.footprint

/-- A host write of a word to CMD (10_state.md R25): accepted when idle (40_command_control.md R101), with a fresh latency;
dropped with OVR set when busy (R102). Accepting a footprint that conflicts with another instance's is the hazard of R243. -/
def State.issue (w : Word) (s : State) : Result :=
  if s.engine = .busy then .next { s with ovr := true }
  else if s.peerConflict (latchFootprint (s.capture w)) then .fault .hazardFootprint
  else .next (({ s with draws := s.draws + 1 } : State).accept w (Config.latency s.draws))

/-- A host write to CTRL (R22): SRST resets the device and the rest of the write is discarded; else IRQ_EN is written. -/
def State.writeCtrl (v : Word) (s : State) : Result :=
  if v.getLsbD 1 then s.resetDevice else .next { s with ctrl := v &&& 1#32 }

/-- A host write of a register (R20 to R32, R35). -/
def State.writeReg (r : Reg) (v : Word) (s : State) : Result :=
  match r with
  | .id => .next s
  | .ctrl => s.writeCtrl v
  | .status => .next (s.clearStatus v)
  | .cmd => s.issue v
  | .src0 => .next { s with src0 := v }
  | .src1 => .next { s with src1 := v }
  | .src2 => .next { s with src2 := v }
  | .dst => .next { s with dst := v }
  | .dim => .next { s with dim := v }
  | .edgeIn => .next { s with edgeIn := v }
  | .pixIn => .next { s with pixIn := v &&& 0x00FFFFFF#32 }
  | .pos => .next { s with pos := v }
  | .result => .next s
  | .unassigned => .next s

/-- A host write at the register port (20_memory.md R61). While the reset input is asserted the device holds its reset state, so
the write changes nothing (70_reset_and_hazards.md R260; log entry 17). -/
def State.portWrite (r : Reg) (v : Word) (s : State) : Result := if s.resetHeld then .next s else s.writeReg r v

/-- A host access of the register port (20_memory.md R61): refused outside the block (log entry 10) and where it is not an
aligned 32-bit access (log entry 9); else `act` at its offset. -/
def portAccess (width addr : Nat) (act : BitVec 6 → Result) : Result :=
  match portOffset addr with
  | none => .refused .outsideRegisterBlock
  | some offset => if legalAccess width offset then act offset else .refused .illegalRegisterAccess

/-- A host write of this address is the footprint hazard (70_reset_and_hazards.md R265): it lies in the pending footprint of
this device or of another instance. -/
def State.writeHazard (a : Nat) (s : State) : Bool :=
  (s.busy && inSpans (s.pending.reads ++ s.pending.writes) a)
    || s.peers.any fun p => inSpans (p.footprint.reads ++ p.footprint.writes) a

/-- A host read of this address is the footprint hazard (R265): it lies in a pending write range. -/
def State.readHazard (a : Nat) (s : State) : Bool :=
  (s.busy && inSpans s.pending.writes a) || s.peers.any fun p => inSpans p.footprint.writes a

/-- A host byte write of memory (30_encoding.md R94, R265). -/
def State.hostStore (addr : BitVec 32) (v : Byte) (s : State) : Result :=
  if s.writeHazard addr.toNat then .fault .hazardFootprint
  else if inSpans s.nonOrdinary addr.toNat then .refused .nonOrdinaryMemory
  else .next { s with mem := s.mem.write addr.toNat v }

/-- A host byte read of memory (R94, R265). -/
def State.hostLoad (addr : BitVec 32) (s : State) : Result :=
  if s.readHazard addr.toNat then .fault .hazardFootprint
  else if inSpans s.nonOrdinary addr.toNat then .refused .nonOrdinaryMemory
  else .next (s.observe (.memory addr (s.mem.read addr.toNat)))

/-- One poll of `WAIT` (R94): read STATUS, and poll again while BUSY is 1. -/
def State.poll (s : State) : State :=
  let t := s.observe (.register 0x08#6 s.statusWord)
  if s.engine = .busy then { t with host := .wait :: t.host } else t

/-- Another instance accepts a command (R243). A word that a busy instance drops changes nothing here; a footprint that
conflicts with one in flight is the hazard. -/
def State.acceptPeer (regBase : Nat) (f : Footprint) (s : State) : Result :=
  if s.peers.any fun p => p.regBase = regBase then .next s
  else if (s.busy && f.conflicts s.pending) || s.peerConflict f then .fault .hazardFootprint
  else .next { s with peers := ⟨regBase, f⟩ :: s.peers }

/-- The stores of another instance that lie in its write ranges: "No command accesses memory outside its footprint" (R66). -/
def storeInside (ws : List Span) : List (BitVec 32 × Byte) → Memory → Memory
  | [], m => m
  | (a, v) :: rest, m => storeInside ws rest (if inSpans ws a.toNat then m.write a.toNat v else m)

/-- Another instance completes, having left these bytes in its write ranges (R243). -/
def State.completePeer (regBase : Nat) (stores : List (BitVec 32 × Byte)) (s : State) : State :=
  match s.peers.find? fun p => p.regBase = regBase with
  | none => s
  | some p =>
    { s with
      mem := storeInside p.footprint.writes stores s.mem
      peers := s.peers.filter fun q => q.regBase ≠ regBase }

/-- The effect of one outside operation. -/
def hostEffect (op : HostOp) (s : State) : Result :=
  match op with
  | .writeReg width addr v => portAccess width addr fun offset => s.portWrite (regAt offset) v
  | .readReg width addr =>
    portAccess width addr fun offset => .next (s.observe (.register offset (s.readReg (regAt offset))))
  | .wait => .next s.poll
  | .memWrite addr v => s.hostStore addr v
  | .memRead addr => s.hostLoad addr
  | .assertReset => s.assertReset
  | .releaseReset => .next s.releaseReset
  | .memAnswers errs => .next { s with memErr := errs }
  | .peerAccept regBase f => s.acceptPeer regBase f
  | .peerComplete regBase stores => .next (s.completePeer regBase stores)

/-- `ISSUE` of a command word: a write of CMD (30_encoding.md R94). -/
def HostOp.issue (w : Word) : HostOp := .writeReg 4 (Config.regBase + 0x0C) w

/-- `CLEAR`: a write of 0x0000_000E to STATUS (R94). -/
def HostOp.clear : HostOp := .writeReg 4 (Config.regBase + 0x08) 0x0000000E#32

/-- The step of the outside: the next pending operation, counted against the latency of a command in flight; with nothing
pending the device waits (60_exceptions.md R245: all state persists while idle). -/
def hostStep (s : State) : Result :=
  match s.host with
  | [] => .next s
  | op :: rest => hostEffect op { s with host := rest, delay := s.delay - 1 }

end Sys2Proof.Machine
end

