-- ==== Sys2Proof/Machine/Engine.lean ====
section
/-! DEFINITION. The engine's completion step (40_command_control.md R100 stage 3, R103, R104), whose turn it is, and how a
command word comes to be in flight. -/

namespace Sys2Proof.Machine

/-- The completion step of the command in flight: the latched word's command, or ILLEGAL_OPCODE (R103 step 1). -/
def engineStep (s : State) : Result :=
  match decode s.latch.cmd with
  | .ok i => exec i s
  | .error _ => .next (s.finish .illegalOpcode)

/-- It is the engine's turn: a command is in flight, and its latency has passed or the outside has nothing to do
(70_reset_and_hazards.md R270: finite and weakly fair). -/
def State.engineTurn (s : State) : Bool := s.busy && (decide (s.delay = 0) || s.host.isEmpty)

/-- One step of the whole: the engine's or the outside's (00_scope.md R8). -/
def machineStep (s : State) : Result := if s.engineTurn then engineStep s else hostStep s

/-- The state with the word accepted (R101) and its latency passed, so that the very next step completes it. A command can be
in flight only while the reset input is released (70_reset_and_hazards.md R260). -/
def State.withCommand (w : Word) (s : State) : State := { s.accept w 0 with resetHeld := false }

end Sys2Proof.Machine
end

