-- ==== Sys2Proof/Machine/Step.lean ====
section
/-! DEFINITION. The step of the machine, and the state in which the next step runs a given command word. -/

namespace Sys2Proof.Machine

/-- One step: the engine's completion step or the next outside operation. -/
def step (s : State) : Host.Outcome State Fault Refusal := machineStep s

/-- The state in which the next step runs the word: the word accepted (40_command_control.md R101), which latches the
operand registers as they stand, and no latency left. Log entry 2. -/
def State.withFetchWord (s : State) (nbits w : Nat) : State := s.withCommand (tableWord nbits w)

end Sys2Proof.Machine
end

