-- ==== Sys2Proof/Machine/Assembler.lean ====
section
/-! DEFINITION. The assembler's forms (30_encoding.md R91) and pseudo-instructions (R92), as data and their expansion to
commands, and the text of one line read into them. Log entry 20 names what R91 and R92 leave open. -/

namespace Sys2Proof.Machine

/-- `s=n` or `q=n` (R91). -/
inductive StrengthArg where
  | strength (n : Nat)
  | quant (n : Nat)
  deriving DecidableEq, Repr

/-- The pass selection `p` of DEBLOCK (R91). -/
inductive Passes where
  | hv
  | h
  | v
  | off
  deriving DecidableEq, Repr

/-- One line of assembly (R91), the pseudo-instructions of R92 last. `deblockH` and `deblockV` take `q=n` besides the `s=n` that R92
lists: DESIGN CHOICE, log entry 20. -/
inductive AsmLine where
  | nop
  | qlookup (q : Nat)
  | edge (arg : StrengthArg)
  | deblock (p : Passes) (arg : StrengthArg)
  | lutrd (t : LutTable) (i : Nat)
  | cvt
  | ups
  | compose
  | deblockDefault (arg : StrengthArg)
  | deblockH (arg : StrengthArg)
  | deblockV (arg : StrengthArg)
  | yuv2rgba
  deriving DecidableEq, Repr

/-- `QM` and `SQ` of an argument; none where R91's constraint fails. R91 states the range of `n` for EDGE; DEBLOCK takes the same
range here: DESIGN CHOICE, log entry 20. -/
def assembleStrength : StrengthArg → Option (BitVec 1 × BitVec 5)
  | .strength n => if n ≤ Config.strengthMax then some (0#1, BitVec.ofNat 5 n) else none
  | .quant n => if 1 ≤ n ∧ n ≤ 31 then some (1#1, BitVec.ofNat 5 n) else none

/-- `V` and `H` of a pass selection: `P << 6` sets H (bit 6) for H and V (bit 7) for V (R91). -/
def passBits : Passes → BitVec 1 × BitVec 1
  | .hv => (1#1, 1#1)
  | .h => (0#1, 1#1)
  | .v => (1#1, 0#1)
  | .off => (0#1, 0#1)

/-- `TSEL` of a table name (30_encoding.md R88). -/
def tableSelect : LutTable → BitVec 3
  | .yToGray => 0
  | .crToR => 1
  | .crToG => 2
  | .cbToG => 3
  | .cbToB => 4

/-- DEBLOCK with these passes (R91). -/
def assembleDeblock (p : Passes) (arg : StrengthArg) : Option Instr :=
  match assembleStrength arg with
  | some (qm, sq) => some (.deblock 0 (passBits p).1 (passBits p).2 qm sq)
  | none => none

/-- The command a line stands for; none where a constraint of R91 fails. `QLOOKUP 0` is emitted (R91). -/
def assemble : AsmLine → Option Instr
  | .nop => some (.nop 0)
  | .qlookup q => if q ≤ 31 then some (.qlookup 0 (BitVec.ofNat 5 q)) else none
  | .edge arg =>
    match assembleStrength arg with
    | some (qm, sq) => some (.edge 0 qm sq)
    | none => none
  | .deblock p arg => assembleDeblock p arg
  | .lutrd t i => if i ≤ 255 then some (.lutrd 0 (tableSelect t) (BitVec.ofNat 8 i)) else none
  | .cvt => some (.cvt 0)
  | .ups => some (.ups 0)
  | .compose => some (.compose 0)
  | .deblockDefault arg => assembleDeblock .hv arg
  | .deblockH arg => assembleDeblock .h arg
  | .deblockV arg => assembleDeblock .v arg
  | .yuv2rgba => some (.compose 0)

/-! ### The text of a line (R91) -/

/-- Drop a comment, which `;` starts. -/
def dropComment : List Char → List Char
  | [] => []
  | c :: cs => if c = ';' then [] else c :: dropComment cs

/-- The words of a line, a comma being a word of its own; `acc` is the word being read, last character first. -/
def wordsOf : List Char → List Char → List (List Char)
  | acc, [] => if acc.isEmpty then [] else [acc.reverse]
  | acc, c :: cs =>
    if c = ' ' ∨ c = '\t' then (if acc.isEmpty then [] else [acc.reverse]) ++ wordsOf [] cs
    else if c = ',' then (if acc.isEmpty then [] else [acc.reverse]) ++ [','] :: wordsOf [] cs
    else wordsOf (c :: acc) cs

/-- A letter in lower case. -/
def lowerChar (c : Char) : Char := if 65 ≤ c.toNat ∧ c.toNat ≤ 90 then Char.ofNat (c.toNat + 32) else c

/-- The value of a digit in a base of at most 16. -/
def digitValue (base : Nat) (c : Char) : Option Nat :=
  let n := (lowerChar c).toNat
  let v := if 48 ≤ n ∧ n ≤ 57 then n - 48 else if 97 ≤ n ∧ n ≤ 102 then n - 87 else base
  if v < base then some v else none

/-- Digits read on from `acc`; in a hex literal `_` only groups digits (00_scope.md R10). -/
def digitsFrom (base : Nat) : Nat → List Char → Option Nat
  | acc, [] => some acc
  | acc, c :: cs =>
    if base = 16 ∧ c = '_' then digitsFrom base acc cs
    else
      match digitValue base c with
      | some d => digitsFrom base (acc * base + d) cs
      | none => none

/-- A number, decimal or hex with `0x` (R91). -/
def numberOf : List Char → Option Nat
  | [] => none
  | '0' :: 'x' :: d :: ds => if d = '_' then none else digitsFrom 16 0 (d :: ds)
  | cs => digitsFrom 10 0 cs

/-- `s=n` or `q=n`. -/
def strengthArgOf : List Char → Option StrengthArg
  | 's' :: '=' :: cs => (numberOf cs).map .strength
  | 'q' :: '=' :: cs => (numberOf cs).map .quant
  | _ => none

/-- The pass selection of DEBLOCK. -/
def passesOf (w : List Char) : Option Passes :=
  if w = ['H', 'V'] then some .hv
  else if w = ['H'] then some .h
  else if w = ['V'] then some .v
  else if w = ['N', 'O', 'N', 'E'] then some .off
  else none

/-- The table names of LUTRD. -/
def tableNamed (w : List Char) : Option LutTable :=
  if w = ['y', '_', 't', 'o', '_', 'g', 'r', 'a', 'y'] then some .yToGray
  else if w = ['c', 'r', '_', 't', 'o', '_', 'r'] then some .crToR
  else if w = ['c', 'r', '_', 't', 'o', '_', 'g'] then some .crToG
  else if w = ['c', 'b', '_', 't', 'o', '_', 'g'] then some .cbToG
  else if w = ['c', 'b', '_', 't', 'o', '_', 'b'] then some .cbToB
  else none

/-- A line with this mnemonic, in lower case, and these operand words. R92 lists `DEBLOCK.H` and `DEBLOCK.V` with `s=n` alone and is
silent on `q=n`; both operands are read here, as for `DEBLOCK`: DESIGN CHOICE, log entry 20. -/
def lineOf (mnemonic : List Char) (operands : List (List Char)) : Option AsmLine :=
  match operands with
  | [] =>
    if mnemonic = ['n', 'o', 'p'] then some .nop
    else if mnemonic = ['c', 'v', 't'] then some .cvt
    else if mnemonic = ['u', 'p', 's'] then some .ups
    else if mnemonic = ['c', 'o', 'm', 'p', 'o', 's', 'e'] then some .compose
    else if mnemonic = ['y', 'u', 'v', '2', 'r', 'g', 'b', 'a'] then some .yuv2rgba
    else none
  | [a] =>
    if mnemonic = ['q', 'l', 'o', 'o', 'k', 'u', 'p'] then (numberOf a).map .qlookup
    else if mnemonic = ['e', 'd', 'g', 'e'] then (strengthArgOf a).map .edge
    else if mnemonic = ['d', 'e', 'b', 'l', 'o', 'c', 'k'] then (strengthArgOf a).map .deblockDefault
    else if mnemonic = ['d', 'e', 'b', 'l', 'o', 'c', 'k', '.', 'h'] then (strengthArgOf a).map .deblockH
    else if mnemonic = ['d', 'e', 'b', 'l', 'o', 'c', 'k', '.', 'v'] then (strengthArgOf a).map .deblockV
    else none
  | [a, [','], b] =>
    if mnemonic = ['d', 'e', 'b', 'l', 'o', 'c', 'k'] then
      (passesOf a).bind fun p => (strengthArgOf b).map fun x => .deblock p x
    else if mnemonic = ['l', 'u', 't', 'r', 'd'] then (tableNamed a).bind fun t => (numberOf b).map fun i => .lutrd t i
    else none
  | _ => none

/-- One line of assembly: mnemonics in any case, a comment after `;` (R91). -/
def parseLine (text : List Char) : Option AsmLine :=
  match wordsOf [] (dropComment text) with
  | [] => none
  | m :: ws => lineOf (m.map lowerChar) ws

/-- The command word of one line of assembly; none where the line or a constraint of R91 fails. -/
def assembleText (text : List Char) : Option Word := ((parseLine text).bind assemble).map encode

end Sys2Proof.Machine
end

