-- ==== Sys2Proof/Safety.lean ====
section
/-! DEFINITION. The invariant of the machine's states, and what a safe run is. -/

namespace Sys2Proof.Machine

/-- The reserved bits of CTRL and PIX_IN read 0 (10_state.md R22, R29, R32). -/
def State.reservedClear (s : State) : Bool :=
  decide (s.ctrl &&& 0xFFFFFFFE#32 = 0#32) && decide (s.pixIn &&& 0xFF000000#32 = 0#32)

/-- The engine's bookkeeping: while busy, DONE is 0 (R101), the CMD read value is the word in flight and the pending
footprint is that word's (R34, R101); while idle, no footprint is pending (R104). -/
def State.engineConsistent (s : State) : Bool :=
  if s.engine = .busy then
    !s.done && decide (s.cmd = s.latch.cmd) && decide (s.pending = latchFootprint s.latch)
  else decide (s.pending = Footprint.none)

/-- No two of these footprints conflict (60_exceptions.md R243). -/
def footprintsApart : List Footprint → Bool
  | [] => true
  | f :: fs => !fs.any (fun g => f.conflicts g) && footprintsApart fs

/-- Everything in flight, here and in other instances, is apart. -/
def State.inFlightApart (s : State) : Bool := footprintsApart (s.pending :: s.peers.map Peer.footprint)

/-- While the reset input is asserted, every register holds its reset value and the engine is idle
(70_reset_and_hazards.md R260, 10_state.md R40). -/
def State.resetConsistent (s : State) : Bool :=
  !s.resetHeld ||
    (decide (s.engine = .idle) && decide (s.pending = Footprint.none) && !s.done && !s.err && !s.ovr && decide (s.errcode = 0)
      && decide (s.ctrl = 0) && decide (s.cmd = 0) && decide (s.src0 = 0) && decide (s.src1 = 0) && decide (s.src2 = 0)
      && decide (s.dst = 0) && decide (s.dim = 0) && decide (s.edgeIn = 0) && decide (s.pixIn = 0) && decide (s.pos = 0)
      && decide (s.result = 0))

/-- The invariant that every step keeps. -/
def State.inv (s : State) : Bool :=
  s.mem.wf && s.reservedClear && decide (s.errcode.toNat ≤ 9) && s.engineConsistent && s.inFlightApart && s.resetConsistent

/-- How every command ends (40_command_control.md R104), written out for claims: ERRCODE is the code, ERR is set if it is not
0, DONE is set, the engine is idle with no pending footprint, and EVERYTHING ELSE is as in `s`. -/
def State.endedWith (code : BitVec 4) (s : State) : State :=
  { s with
    errcode := code
    err := s.err || decide (code ≠ 0)
    done := true
    engine := .idle
    pending := ⟨[], []⟩ }

/-- The memory serves a footprint: it is ordinary memory there, and it answers OK to every access the footprint allows
(20_memory.md R65). -/
def State.memoryServes (f : Footprint) (s : State) : Bool :=
  !s.touchesNonOrdinary f
    && s.memErr.all fun e =>
      match e.2 with
      | .read => !inSpans f.reads e.1
      | .write => !inSpans f.writes e.1

/-- A range is empty or ends at or below 2^32 (20_memory.md R67). -/
abbrev RangeFits (base len : Nat) : Prop := len = 0 ∨ base + len ≤ 2 ^ 32

/-- Two ranges share no address. -/
abbrev RangesApart (base len base' len' : Nat) : Prop :=
  len = 0 ∨ len' = 0 ∨ base + len ≤ base' ∨ base' + len' ≤ base

/-- The four samples across the horizontal edge at row `y`, in column `x` of a plane (41_deblock.md R134). -/
def columnLine (m : Memory) (b w x y : Nat) : Samples :=
  ⟨m.read (b + (y - 2) * w + x), m.read (b + (y - 1) * w + x), m.read (b + y * w + x), m.read (b + (y + 1) * w + x)⟩

/-- The four samples across the vertical edge at column `x`, in row `y` of a plane (R135). -/
def rowLine (m : Memory) (b w x y : Nat) : Samples :=
  ⟨m.read (b + y * w + (x - 2)), m.read (b + y * w + (x - 1)), m.read (b + y * w + x), m.read (b + y * w + (x + 1))⟩

/-- `q` is an edge position of a dimension `n`: 8, 16, 24, … while `q <= n - 2` (R134, R135). -/
abbrev EdgeAt (n q : Nat) : Prop := q % 8 = 0 ∧ 8 ≤ q ∧ q + 2 ≤ n

/-- The upsampled chroma of a plane in memory at luma position `(x, y)`, as a number (43_upsample_compose.md R192). -/
def upsampledAt (m : Memory) (base cw ch x y : Nat) : Nat :=
  let sample (i j : Nat) : Nat := (m.read (base + j * cw + i)).toNat
  let nx := (nearFar x cw).1
  let fx := (nearFar x cw).2
  let ny := (nearFar y ch).1
  let fy := (nearFar y ch).2
  (9 * sample nx ny + 3 * sample fx ny + 3 * sample nx fy + sample fx fy + 8) / 16

/-- Some access that DEBLOCK's enabled passes make over a plane at `b` errs: a read or a write of one of the four samples of a
filtered line (41_deblock.md R133 to R135). -/
def deblockErrs (errs : List (Nat × AccessKind)) (hp vp : BitVec 1) (b w h : Nat) : Prop :=
  (hp = 1 ∧ ∃ x y q, x < w ∧ EdgeAt h y ∧ y ≤ q + 2 ∧ q ≤ y + 1 ∧
    ((b + q * w + x, AccessKind.read) ∈ errs ∨ (b + q * w + x, AccessKind.write) ∈ errs)) ∨
  (vp = 1 ∧ ∃ x y q, EdgeAt w x ∧ y < h ∧ x ≤ q + 2 ∧ q ≤ x + 1 ∧
    ((b + y * w + q, AccessKind.read) ∈ errs ∨ (b + y * w + q, AccessKind.write) ∈ errs))

/-- Some read of the upsampler at luma position `(x, y)` of the chroma plane at `base` errs (43_upsample_compose.md R192). -/
def upsampleErrs (errs : List (Nat × AccessKind)) (base cw ch x y : Nat) : Prop :=
  ∃ i j, (i = (nearFar x cw).1 ∨ i = (nearFar x cw).2) ∧ (j = (nearFar y ch).1 ∨ j = (nearFar y ch).2) ∧
    (base + j * cw + i, AccessKind.read) ∈ errs

/-- Some access to the pixel `(x, y)` of a frame errs: the luma read, a chroma read or one of the four RGBA writes (R195, R197). -/
def pixelErrs (errs : List (Nat × AccessKind)) (L : Latch) (x y : Nat) : Prop :=
  (L.src0.toNat + y * L.width + x, AccessKind.read) ∈ errs ∨
  upsampleErrs errs L.src1.toNat L.chromaWidth L.chromaHeight x y ∨
  upsampleErrs errs L.src2.toNat L.chromaWidth L.chromaHeight x y ∨
  ∃ k, k < 4 ∧ (L.dst.toNat + 4 * (y * L.width + x) + k, AccessKind.write) ∈ errs

/-- The memory answers an access that the command's pseudocode makes with a bus error (20_memory.md R65). -/
def State.accessErrs (i : Instr) (s : State) : Prop :=
  match i with
  | .deblock _ v h _ _ => deblockErrs s.memErr h v s.latch.src0.toNat s.latch.width s.latch.height
  | .ups _ =>
    upsampleErrs s.memErr s.latch.src1.toNat s.latch.chromaWidth s.latch.chromaHeight s.latch.posX s.latch.posY ∨
    upsampleErrs s.memErr s.latch.src2.toNat s.latch.chromaWidth s.latch.chromaHeight s.latch.posX s.latch.posY
  | .compose _ => ∃ x y, x < s.latch.width ∧ y < s.latch.height ∧ pixelErrs s.memErr s.latch x y
  | .nop _ => False
  | .qlookup _ _ => False
  | .edge _ _ _ => False
  | .lutrd _ _ _ => False
  | .cvt _ => False

/-- The state with every operand register the host can write while a command is in flight replaced (10_state.md R33). -/
def State.withOperands (o : Latch) (s : State) : State :=
  { s with
    src0 := o.src0, src1 := o.src1, src2 := o.src2, dst := o.dst, dim := o.dim
    edgeIn := o.edgeIn, pixIn := o.pixIn, pos := o.pos }

/-- Apply a change to the next state of an outcome. -/
def mapNext (f : State → State) : Result → Result
  | .next t => .next (f t)
  | .fault e => .fault e
  | .refused r => .refused r

/-- A safe run of `n` steps: no footprint hazard and no refusal (70_reset_and_hazards.md R265). -/
def State.runsSafely (n : Nat) (s : State) : Prop := ∃ t, Sys2Proof.core.run n s = .next t

end Sys2Proof.Machine
end

