-- ==== Sys2Proof/Certificates/Slice0/Obligations.lean ====
section
/-! DEFINITION. The statements for the provers, one `Prop` each, listed in OBLIGATIONS.json. `State.endedWith` (Safety) writes
out how a command ends and what stays as it was; `… .endedWith c` in a conclusion therefore states the frame too: every register,
flag, latch field and byte of memory that the equation does not name is unchanged. -/

open Sys2Proof Sys2Proof.Machine

/-! ### Encoding -/

/-- Decoding the encoding of any command, well-formed or not, gives the command back (30_encoding.md R81 to R86). -/
def Obligations.DecodeOfEncodeIsTheCommand : Prop := ∀ i : Instr, decode (encode i) = .ok i

/-- No word is dropped or merged: the command decoded from a word encodes to that word (30_encoding.md R85, R86). -/
def Obligations.EncodeOfDecodeIsTheWord : Prop := ∀ (w : Word) (i : Instr), decode w = .ok i → encode i = w

/-- Exactly the opcodes 0x04 to 0x0F and 0x14 to 0xFF are illegal, and a word with one of them, once in flight, ends with
ILLEGAL_OPCODE whatever its other bits are (30_encoding.md R90; 40_command_control.md R103 step 1). -/
def Obligations.IllegalOpcodesEndWithIllegalOpcode : Prop :=
  ∀ (w : Word),
    ((∀ i, decode w ≠ .ok i) ↔
      ((0x04 ≤ w.toNat / 2 ^ 24 ∧ w.toNat / 2 ^ 24 ≤ 0x0F) ∨ (0x14 ≤ w.toNat / 2 ^ 24 ∧ w.toNat / 2 ^ 24 ≤ 0xFF))) ∧
    ∀ s : State, s.engineTurn = true → s.latch.cmd = w → (∀ i, decode w ≠ .ok i) → step s = .next (s.endedWith 1)

/-- The encoding examples of 30_encoding.md R93, line by line. -/
def Obligations.AssemblyExamplesEncodeAsListed : Prop :=
  (assemble .nop).map encode = some 0x00000000#32 ∧
  (assemble (.qlookup 13)).map encode = some 0x0100000D#32 ∧
  (assemble (.edge (.strength 6))).map encode = some 0x02000006#32 ∧
  (assemble (.edge (.quant 13))).map encode = some 0x0200002D#32 ∧
  (assemble (.deblock .hv (.strength 6))).map encode = some 0x030000C6#32 ∧
  (assemble (.deblock .hv (.quant 13))).map encode = some 0x030000ED#32 ∧
  (assemble (.deblock .v (.strength 12))).map encode = some 0x0300008C#32 ∧
  (assemble (.deblock .h (.strength 12))).map encode = some 0x0300004C#32 ∧
  (assemble (.deblock .off (.strength 0))).map encode = some 0x03000000#32 ∧
  (assemble (.lutrd .crToR 0)).map encode = some 0x10000100#32 ∧
  (assemble (.lutrd .cbToB 255)).map encode = some 0x100004FF#32 ∧
  (assemble .cvt).map encode = some 0x11000000#32 ∧
  (assemble .ups).map encode = some 0x12000000#32 ∧
  (assemble .compose).map encode = some 0x13000000#32

/-- A few words, written out from the formats, decode to the command they stand for (30_encoding.md R82 to R86). -/
def Obligations.SampleWordsDecode : Prop :=
  decode 0x030000ED#32 = .ok (.deblock 0 1 1 1 13) ∧
  decode 0x0200004C#32 = .ok (.edge 1 0 12) ∧
  decode 0x100004FF#32 = .ok (.lutrd 0 4 255) ∧
  decode 0x0100001F#32 = .ok (.qlookup 0 31) ∧
  decode 0x13000001#32 = .ok (.compose 1)

/-! ### The step -/

/-- When it is the engine's turn, a step is `exec` of the command latched in L.CMD, on the same state; nothing is added around
it. `withFetchWord` is a state of that kind for any word (40_command_control.md R100, R104). -/
def Obligations.StepRunsTheDecodedCommand : Prop :=
  (∀ (s : State) (i : Instr), s.engineTurn = true → decode s.latch.cmd = .ok i → step s = exec i s) ∧
  (∀ (s : State) (w : Nat) (i : Instr), decodeTableWord 32 w = some i →
    step (s.withFetchWord 32 w) = exec i (s.withFetchWord 32 w))

/-- With no command in flight and nothing pending outside, the device waits: the step changes nothing
(70_reset_and_hazards.md R260, R263; 60_exceptions.md R245). -/
def Obligations.IdleDeviceWaits : Prop :=
  ∀ s : State, s.engine = .idle → s.host = [] → step s = .next s

/-- A `WAIT` polls while the command's latency lasts and leaves the command in flight as it was; then it is the engine's turn
(70_reset_and_hazards.md R270). The count of polls is the model's latency (log entry 3). -/
def Obligations.WaitReachesTheCompletionStep : Prop :=
  ∀ (s : State) (rest : List HostOp), s.engine = .busy → s.host = .wait :: rest →
    ∃ t, Sys2Proof.core.run s.delay s = .next t ∧ t.engineTurn = true ∧ t.latch = s.latch ∧ t.mem = s.mem ∧
      t.memErr = s.memErr ∧ t.nonOrdinary = s.nonOrdinary ∧ t.host = s.host

/-- Weak fairness: whatever the outside does, within the latency either it is the engine's turn, or a reset has made the
engine idle, or the run has stopped with a fault or a refusal (70_reset_and_hazards.md R270). -/
def Obligations.CommandInFlightGetsItsTurn : Prop :=
  ∀ s : State, s.engine = .busy →
    ∃ n, n ≤ s.delay ∧
      match Sys2Proof.core.run n s with
      | .next t => t.engineTurn = true ∨ t.engine = .idle
      | .fault _ => True
      | .refused _ => True

/-! ### Register-mode commands and NOP: completion, result and frame, with every form -/

/-- NOP completes and changes nothing but STATUS and the engine state; with a reserved bit set it ends with
RESERVED_NONZERO (40_command_control.md R105, R104). -/
def Obligations.NopCompletes : Prop :=
  ∀ (resv : BitVec 24) (s : State),
    exec (.nop resv) s = .next (if resv = 0 then s.endedWith 0 else s.endedWith 2)

/-- QLOOKUP puts the listed strength in RESULT, or ends with RESERVED_NONZERO or BAD_QUANT (41_deblock.md R120, R131). -/
def Obligations.QlookupReturnsTheStrength : Prop :=
  ∀ (resv : BitVec 19) (q : BitVec 5) (s : State),
    exec (.qlookup resv q) s = .next
      (if resv ≠ 0 then s.endedWith 2
       else if q = 0 then s.endedWith 4
       else ({ s with
          result := BitVec.ofNat 32
            ([0, 1, 1, 2, 2, 3, 3, 4, 4, 4, 5, 5, 6, 6, 7, 7, 7, 8, 8, 8, 9, 9, 9, 10, 10, 10, 11, 11, 11, 12, 12, 12].getD
              q.toNat 0) } : State).endedWith 0)

/-- EDGE, every form (41_deblock.md R126, R132). A nonzero reserved bit (H and V among them) ends it with RESERVED_NONZERO, a
strength above 12 with BAD_STRENGTH, a quantizer index 0 with BAD_QUANT, in that priority, RESULT left alone. With a legal strength
it completes with the four filtered samples in RESULT, each exactly the integer of R126 (A' and D' need no clamp, R128). Nothing
else changes but STATUS and the engine state. -/
def Obligations.EdgeReturnsTheFilteredSamples : Prop :=
  ∀ (resv : BitVec 18) (qm : BitVec 1) (sq : BitVec 5) (s : State),
    (resv ≠ 0 → exec (.edge resv qm sq) s = .next (s.endedWith 2)) ∧
    (resv = 0 → qm = 0 → 12 < sq.toNat → exec (.edge resv qm sq) s = .next (s.endedWith 3)) ∧
    (resv = 0 → qm = 1 → sq = 0 → exec (.edge resv qm sq) s = .next (s.endedWith 4)) ∧
    (resv = 0 → strengthFieldLegal qm sq = true →
      ∃ r : Word, exec (.edge resv qm sq) s = .next (({ s with result := r } : State).endedWith 0) ∧
        let str : Int := if qm = 0 then (sq.toNat : Int) else ((strengthEntry sq).toNat : Int)
        let a : Int := (s.latch.edgeIn.extractLsb' 0 8).toNat
        let b : Int := (s.latch.edgeIn.extractLsb' 8 8).toNat
        let c : Int := (s.latch.edgeIn.extractLsb' 16 8).toNat
        let d : Int := (s.latch.edgeIn.extractLsb' 24 8).toNat
        let d1 : Int := ramp (tdiv (a - 4 * b + 4 * c - d) 8) str
        let d2 : Int := clip (tdiv (a - d) 4) (tdiv d1 2)
        ((r.extractLsb' 0 8).toNat : Int) = a - d2 ∧
        ((r.extractLsb' 8 8).toNat : Int) = clamp (b + d1) 0 255 ∧
        ((r.extractLsb' 16 8).toNat : Int) = clamp (c - d1) 0 255 ∧
        ((r.extractLsb' 24 8).toNat : Int) = d + d2)

/-- LUTRD puts the sign-extended ROM entry in RESULT, or ends with RESERVED_NONZERO or BAD_TABLE
(42_color_lut.md R167, 30_encoding.md R88). -/
def Obligations.LutrdReturnsTheEntry : Prop :=
  ∀ (resv : BitVec 13) (tsel : BitVec 3) (idx : BitVec 8) (s : State),
    exec (.lutrd resv tsel idx) s = .next
      (if resv ≠ 0 then s.endedWith 2
       else if tsel = 0 then ({ s with result := BitVec.ofInt 32 (lutValue .yToGray idx) } : State).endedWith 0
       else if tsel = 1 then ({ s with result := BitVec.ofInt 32 (lutValue .crToR idx) } : State).endedWith 0
       else if tsel = 2 then ({ s with result := BitVec.ofInt 32 (lutValue .crToG idx) } : State).endedWith 0
       else if tsel = 3 then ({ s with result := BitVec.ofInt 32 (lutValue .cbToG idx) } : State).endedWith 0
       else if tsel = 4 then ({ s with result := BitVec.ofInt 32 (lutValue .cbToB idx) } : State).endedWith 0
       else s.endedWith 5)

/-- CVT puts alpha 255 and the three converted channels in RESULT, each exactly the integer of 42_color_lut.md R163, and
changes nothing else but STATUS and the engine state; with a reserved bit set it ends with RESERVED_NONZERO (R168). -/
def Obligations.CvtReturnsTheConvertedPixel : Prop :=
  ∀ (resv : BitVec 24) (s : State),
    (resv ≠ 0 → exec (.cvt resv) s = .next (s.endedWith 2)) ∧
    (resv = 0 → ∃ w : Word, exec (.cvt resv) s = .next (({ s with result := w } : State).endedWith 0) ∧
      let y : Byte := s.latch.pixIn.extractLsb' 0 8
      let cb : Byte := s.latch.pixIn.extractLsb' 8 8
      let cr : Byte := s.latch.pixIn.extractLsb' 16 8
      let gray : Int := lutValue .yToGray y
      ((w.extractLsb' 0 8).toNat : Int) = clamp (asr (gray + lutValue .crToR cr + 8) 4) 0 255 ∧
      ((w.extractLsb' 8 8).toNat : Int) = clamp (asr (gray + lutValue .crToG cr + lutValue .cbToG cb + 8) 4) 0 255 ∧
      ((w.extractLsb' 16 8).toNat : Int) = clamp (asr (gray + lutValue .cbToB cb + 8) 4) 0 255 ∧
      w.extractLsb' 24 8 = 255#8)

/-- UPS, every form but the reserved bits and the bus error, which other statements cover (43_upsample_compose.md R192, R196;
40_command_control.md R103). A position outside the frame ends it with BAD_POS, else a chroma range that leaves the address space
with ADDR_RANGE. Otherwise, over a memory that serves the chroma ranges, it completes with the two upsampled samples in RESULT and 0
above them. Nothing else changes but STATUS and the engine state. -/
def Obligations.UpsReturnsTheUpsampledChroma : Prop :=
  ∀ s : State,
    let L := s.latch
    ((L.width ≤ L.posX ∨ L.height ≤ L.posY) → exec (.ups 0) s = .next (s.endedWith 6)) ∧
    (L.posX < L.width → L.posY < L.height →
      (2 ^ 32 < L.src1.toNat + L.chromaWidth * L.chromaHeight ∨ 2 ^ 32 < L.src2.toNat + L.chromaWidth * L.chromaHeight) →
      exec (.ups 0) s = .next (s.endedWith 7)) ∧
    (L.posX < L.width → L.posY < L.height →
      RangeFits L.src1.toNat (L.chromaWidth * L.chromaHeight) → RangeFits L.src2.toNat (L.chromaWidth * L.chromaHeight) →
      s.memoryServes (footprintOf (.ups 0) L) = true →
      ∃ w : Word, exec (.ups 0) s = .next (({ s with result := w } : State).endedWith 0) ∧
        (w.extractLsb' 0 8).toNat = upsampledAt s.mem L.src1.toNat L.chromaWidth L.chromaHeight L.posX L.posY ∧
        (w.extractLsb' 8 8).toNat = upsampledAt s.mem L.src2.toNat L.chromaWidth L.chromaHeight L.posX L.posY ∧
        w.extractLsb' 16 16 = 0#16)

/-! ### The deblocking unit -/

/-- The closed form of ramp and its properties (41_deblock.md R124). -/
def Obligations.RampClosedForm : Prop :=
  ∀ x s : Int, 0 ≤ s →
    ramp x s = (if absInt x ≤ s then x else if absInt x < 2 * s then sgn x * (2 * s - absInt x) else 0) ∧
    ramp x s = sgn x * max 0 (absInt x - max 0 (2 * (absInt x - s))) ∧
    absInt (ramp x s) ≤ s ∧ ramp 0 s = 0 ∧ ramp (-x) s = -ramp x s ∧ ramp x 0 = 0

/-- clip is the clamp to plus and minus |lim|; its result has the sign of x or is 0, and magnitude min(|x|, |lim|)
(41_deblock.md R125). -/
def Obligations.ClipKeepsSignAndBoundsMagnitude : Prop :=
  ∀ x lim : Int,
    clip x lim = clamp x (-(absInt lim)) (absInt lim) ∧
    (clip x lim = 0 ∨ sgn (clip x lim) = sgn x) ∧ absInt (clip x lim) = min (absInt x) (absInt lim)

/-- The identities of EdgeFilter (41_deblock.md R127): strength 0 gives d1 = d2 = 0 and is the identity; a flat line gives
d = d1 = d2 = 0 and is unchanged at every strength; a step of at least twice the strength gives d1 = d2 = 0 and is left alone. -/
def Obligations.EdgeFilterIdentities : Prop :=
  (∀ x : Samples,
    edgeD1 x.a.toNat x.b.toNat x.c.toNat x.d.toNat 0 = 0 ∧ edgeD2 x.a.toNat x.b.toNat x.c.toNat x.d.toNat 0 = 0 ∧
    edgeFilter x 0 = x) ∧
  (∀ (v : Byte) (s : Nat),
    edgeD v.toNat v.toNat v.toNat v.toNat = 0 ∧ edgeD1 v.toNat v.toNat v.toNat v.toNat s = 0 ∧
    edgeD2 v.toNat v.toNat v.toNat v.toNat s = 0 ∧ edgeFilter ⟨v, v, v, v⟩ s = ⟨v, v, v, v⟩) ∧
  (∀ (x : Samples) (s : Nat), 2 * (s : Int) ≤ absInt (edgeD x.a.toNat x.b.toNat x.c.toNat x.d.toNat) →
    edgeD1 x.a.toNat x.b.toNat x.c.toNat x.d.toNat s = 0 ∧ edgeD2 x.a.toNat x.b.toNat x.c.toNat x.d.toNat s = 0 ∧
    edgeFilter x s = x)

/-- A' and D' lie between A and D, so in 0..255, and the 8-bit store of them never truncates (41_deblock.md R128). -/
def Obligations.OuterSamplesStayBetween : Prop :=
  (∀ a b c d s : Int, 0 ≤ s →
    min a d ≤ edgeA a b c d s ∧ edgeA a b c d s ≤ max a d ∧ min a d ≤ edgeDOut a b c d s ∧ edgeDOut a b c d s ≤ max a d) ∧
  (∀ (x : Samples) (s : Nat),
    ((edgeFilter x s).a.toNat : Int) = edgeA x.a.toNat x.b.toNat x.c.toNat x.d.toNat s ∧
    ((edgeFilter x s).d.toNat : Int) = edgeDOut x.a.toNat x.b.toNat x.c.toNat x.d.toNat s)

/-- Entries 1..31 lie in 1..12, the table does not decrease, and every strength 1..12 is reached by at least two indices
(41_deblock.md R121). -/
def Obligations.StrengthTableProperties : Prop :=
  (∀ q : BitVec 5, q ≠ 0 → 1 ≤ (strengthEntry q).toNat ∧ (strengthEntry q).toNat ≤ 12) ∧
  (∀ p q : BitVec 5, p.toNat ≤ q.toNat → (strengthEntry p).toNat ≤ (strengthEntry q).toNat) ∧
  (∀ k : BitVec 4, 1 ≤ k.toNat → k.toNat ≤ 12 →
    ∃ p q : BitVec 5, p ≠ q ∧ p ≠ 0 ∧ q ≠ 0 ∧ strengthEntry p = k ∧ strengthEntry q = k)

/-- DEBLOCK, with any passes, a legal strength, a plane inside the address space and a memory that serves it, completes; it
writes no RESULT and no byte outside the plane (41_deblock.md R133, 20_memory.md R66). -/
def Obligations.DeblockCompletesInsideThePlane : Prop :=
  ∀ (v h qm : BitVec 1) (sq : BitVec 5) (s : State),
    let plane := s.latch.width * s.latch.height
    strengthFieldLegal qm sq = true → RangeFits s.latch.src0.toNat plane →
    s.memoryServes (footprintOf (.deblock 0 v h qm sq) s.latch) = true →
    ∃ m : Memory, exec (.deblock 0 v h qm sq) s = .next (({ s with mem := m } : State).endedWith 0) ∧
      ∀ a, (a < s.latch.src0.toNat ∨ s.latch.src0.toNat + plane ≤ a) → m.read a = s.mem.read a

/-- DEBLOCK with the horizontal pass alone: every line across every horizontal edge ends as EdgeFilter of what it held before
the command, and every byte on no such line is unchanged (41_deblock.md R134, R136, R137). -/
def Obligations.HorizontalPassFiltersEveryEdgeLine : Prop :=
  ∀ (qm : BitVec 1) (sq : BitVec 5) (s : State),
    let b := s.latch.src0.toNat; let W := s.latch.width; let H := s.latch.height
    s.mem.wf = true → strengthFieldLegal qm sq = true → RangeFits b (W * H) →
    s.memoryServes (footprintOf (.deblock 0 0 1 qm sq) s.latch) = true →
    ∃ m : Memory, exec (.deblock 0 0 1 qm sq) s = .next (({ s with mem := m } : State).endedWith 0) ∧
      (∀ x y, x < W → EdgeAt H y →
        columnLine m b W x y = edgeFilter (columnLine s.mem b W x y) (strengthValue qm sq)) ∧
      (∀ a, (∀ x y, x < W → EdgeAt H y →
          a ≠ b + (y - 2) * W + x ∧ a ≠ b + (y - 1) * W + x ∧ a ≠ b + y * W + x ∧ a ≠ b + (y + 1) * W + x) →
        m.read a = s.mem.read a)

/-- DEBLOCK with the vertical pass alone: every line across every vertical edge ends as EdgeFilter of what it held before the
command, and every byte on no such line is unchanged (41_deblock.md R135, R136, R137). -/
def Obligations.VerticalPassFiltersEveryEdgeLine : Prop :=
  ∀ (qm : BitVec 1) (sq : BitVec 5) (s : State),
    let b := s.latch.src0.toNat; let W := s.latch.width; let H := s.latch.height
    s.mem.wf = true → strengthFieldLegal qm sq = true → RangeFits b (W * H) →
    s.memoryServes (footprintOf (.deblock 0 1 0 qm sq) s.latch) = true →
    ∃ m : Memory, exec (.deblock 0 1 0 qm sq) s = .next (({ s with mem := m } : State).endedWith 0) ∧
      (∀ x y, EdgeAt W x → y < H →
        rowLine m b W x y = edgeFilter (rowLine s.mem b W x y) (strengthValue qm sq)) ∧
      (∀ a, (∀ x y, EdgeAt W x → y < H →
          a ≠ b + y * W + (x - 2) ∧ a ≠ b + y * W + (x - 1) ∧ a ≠ b + y * W + x ∧ a ≠ b + y * W + (x + 1)) →
        m.read a = s.mem.read a)

/-- Both passes in one DEBLOCK leave the plane that the horizontal pass and then, from its result, the vertical pass leave
(41_deblock.md R136, 70_reset_and_hazards.md R269). -/
def Obligations.BothPassesAreHorizontalThenVertical : Prop :=
  ∀ (qm : BitVec 1) (sq : BitVec 5) (s t : State),
    exec (.deblock 0 0 1 qm sq) s = .next t → t.errcode = 0 →
    ∀ u : State, exec (.deblock 0 1 0 qm sq) t = .next u → u.errcode = 0 →
      exec (.deblock 0 1 1 qm sq) s = .next (({ s with mem := u.mem } : State).endedWith 0)

/-- Within one pass order does not matter: any order of its lines, lanes included, leaves the same plane, or meets a bus error
whichever order it is, whatever accesses the memory answers with an error; for the horizontal pass (lines are columns across an edge
row) and for the vertical one (41_deblock.md R130, R136; 20_memory.md R69). -/
def Obligations.LineOrderWithinAPassIsUnobservable : Prop :=
  ∀ (errs : List (Nat × AccessKind)) (b w h s : Nat) (m : Memory) (lines : List (Nat × Nat)),
    m.wf = true → RangeFits b (w * h) →
    (lines.Perm ((edgePositions h).flatMap fun y => (List.range w).map fun x => (y, x)) →
      forEach (fun p => filterRowEdge errs b w s p.1 p.2) lines m = horizontalPass errs b w h s m) ∧
    (lines.Perm ((edgePositions w).flatMap fun x => (List.range h).map fun y => (x, y)) →
      forEach (fun p => filterColumnEdge errs b w s p.1 p.2) lines m = verticalPass errs b w h s m)

/-- A plane with height below 10 has no horizontal edge and one with width below 10 no vertical edge: a DEBLOCK whose enabled
passes have no edge (or that enables none) completes and changes no byte (41_deblock.md R133, R137). That it does so even if the
memory would answer every access with a bus error is, where a pass is enabled, the model's choice of log entry 24. -/
def Obligations.SmallPlanesAreLeftAlone : Prop :=
  ∀ (v h qm : BitVec 1) (sq : BitVec 5) (s : State),
    (h = 1 → s.latch.height < 10) → (v = 1 → s.latch.width < 10) →
    strengthFieldLegal qm sq = true → RangeFits s.latch.src0.toNat (s.latch.width * s.latch.height) →
    s.touchesNonOrdinary (footprintOf (.deblock 0 v h qm sq) s.latch) = false →
    exec (.deblock 0 v h qm sq) s = .next (s.endedWith 0)

/-! ### The colour unit -/

/-- Every listed ROM entry is the value of the table formulas, rounded to the nearest integer
(42_color_lut.md R160, R161, R162). -/
def Obligations.RomEqualsItsFormula : Prop := ∀ (t : LutTable) (v : Byte), lutValue t v = lutFormula t v

/-- The document's six conversion vectors (42_color_lut.md R165). -/
def Obligations.ConversionVectorsHold : Prop :=
  convert 16 128 128 = ⟨0, 0, 0⟩ ∧ convert 235 128 128 = ⟨255, 255, 255⟩ ∧ convert 15 128 128 = ⟨0, 0, 0⟩ ∧
  convert 236 128 128 = ⟨255, 255, 255⟩ ∧ convert 125 128 128 = ⟨127, 127, 127⟩ ∧ convert 126 128 128 = ⟨128, 128, 128⟩

/-- The sums before the shift lie in the stated ranges, and floor and truncating division by 16 give the same pixel
(42_color_lut.md R164). -/
def Obligations.ConversionSumsAreInRange : Prop :=
  ∀ y cb cr : Byte,
    let r := lutValue .yToGray y + lutValue .crToR cr + 8
    let g := lutValue .yToGray y + lutValue .crToG cr + lutValue .cbToG cb + 8
    let b := lutValue .yToGray y + lutValue .cbToB cb + 8
    (-3486 ≤ r ∧ r ≤ 7632) ∧ (-2686 ≤ g ∧ g ≤ 6875) ∧ (-4329 ≤ b ∧ b ≤ 8469) ∧
    clamp (asr r 4) 0 255 = clamp (tdiv r 16) 0 255 ∧ clamp (asr g 4) 0 255 = clamp (tdiv g 16) 0 255 ∧
    clamp (asr b 4) 0 255 = clamp (tdiv b 16) 0 255

/-! ### The upsampler and the compositor -/

/-- In range of a chroma dimension, the near index is never clamped, the far index is clamped only at the two ends, and both
indices are legal (43_upsample_compose.md R191). -/
def Obligations.NearFarClampsOnlyTheEnds : Prop :=
  ∀ p n : Nat, p < 2 * n →
    ((nearFar p n).1 : Int) = (if p % 2 = 1 then ((p : Int) - 1) / 2 else (p : Int) / 2) ∧
    (0 < p → p < 2 * n - 1 →
      ((nearFar p n).2 : Int) = (if p % 2 = 1 then ((p : Int) - 1) / 2 + 1 else (p : Int) / 2 - 1)) ∧
    (p = 0 → (nearFar p n).2 = 0) ∧ (p = 2 * n - 1 → (nearFar p n).2 = n - 1) ∧
    (nearFar p n).1 < n ∧ (nearFar p n).2 < n

/-- The upsampled value lies between the least and the greatest of the four samples read, and equals them when they are equal;
the 8-bit result is the exact quotient (43_upsample_compose.md R192, R194). -/
def Obligations.UpsampledValueIsAWeightedMean : Prop :=
  ∀ nn fn nf ff : Byte,
    (upsampleValue nn fn nf ff).toNat = (9 * nn.toNat + 3 * fn.toNat + 3 * nf.toNat + ff.toNat + 8) / 16 ∧
    min (min nn.toNat fn.toNat) (min nf.toNat ff.toNat) ≤ (upsampleValue nn fn nf ff).toNat ∧
    (upsampleValue nn fn nf ff).toNat ≤ max (max nn.toNat fn.toNat) (max nf.toNat ff.toNat) ∧
    upsampleValue nn nn nn nn = nn

/-- The four luma pixels of an interior 2 by 2 chroma neighbourhood get the document's four quadrant values
(43_upsample_compose.md R193). -/
def Obligations.InteriorQuadValues : Prop :=
  ∀ (m : Memory) (base cw ch i j : Nat), i + 1 < cw → j + 1 < ch →
    let tl := (m.read (base + j * cw + i)).toNat
    let tr := (m.read (base + j * cw + (i + 1))).toNat
    let bl := (m.read (base + (j + 1) * cw + i)).toNat
    let br := (m.read (base + (j + 1) * cw + (i + 1))).toNat
    upsampledAt m base cw ch (2 * i + 1) (2 * j + 1) = (9 * tl + 3 * tr + 3 * bl + br + 8) / 16 ∧
    upsampledAt m base cw ch (2 * i + 2) (2 * j + 1) = (9 * tr + 3 * tl + 3 * br + bl + 8) / 16 ∧
    upsampledAt m base cw ch (2 * i + 1) (2 * j + 2) = (9 * bl + 3 * br + 3 * tl + tr + 8) / 16 ∧
    upsampledAt m base cw ch (2 * i + 2) (2 * j + 2) = (9 * br + 3 * bl + 3 * tr + tl + 8) / 16

/-- COMPOSE, with ranges inside the address space, an RGBA range that meets no source range and a memory that serves them,
completes; every pixel's four bytes are the conversion of its luma sample and its upsampled chroma as they stood before, alpha is
255, RESULT is not written and no byte outside the RGBA range changes (43_upsample_compose.md R195, R197). -/
def Obligations.ComposeWritesEveryPixel : Prop :=
  ∀ s : State,
    let L := s.latch
    let luma := L.width * L.height
    let chroma := L.chromaWidth * L.chromaHeight
    s.mem.wf = true →
    RangeFits L.src0.toNat luma → RangeFits L.src1.toNat chroma → RangeFits L.src2.toNat chroma →
    RangeFits L.dst.toNat (4 * luma) →
    RangesApart L.dst.toNat (4 * luma) L.src0.toNat luma → RangesApart L.dst.toNat (4 * luma) L.src1.toNat chroma →
    RangesApart L.dst.toNat (4 * luma) L.src2.toNat chroma →
    s.memoryServes (footprintOf (.compose 0) L) = true →
    ∃ m : Memory, exec (.compose 0) s = .next (({ s with mem := m } : State).endedWith 0) ∧
      (∀ x y, x < L.width → y < L.height →
        let p := convert (s.mem.read (L.src0.toNat + y * L.width + x))
          (BitVec.ofNat 8 (upsampledAt s.mem L.src1.toNat L.chromaWidth L.chromaHeight x y))
          (BitVec.ofNat 8 (upsampledAt s.mem L.src2.toNat L.chromaWidth L.chromaHeight x y))
        let o := L.dst.toNat + 4 * (y * L.width + x)
        m.read o = p.r ∧ m.read (o + 1) = p.g ∧ m.read (o + 2) = p.b ∧ m.read (o + 3) = 255#8) ∧
      (∀ a, (a < L.dst.toNat ∨ L.dst.toNat + 4 * luma ≤ a) → m.read a = s.mem.read a)

/-- COMPOSE of an empty frame completes with no memory access, whatever the bases are and whatever the memory would answer
(43_upsample_compose.md R197, 40_command_control.md R103). -/
def Obligations.ComposeOfAnEmptyFrame : Prop :=
  ∀ s : State, (s.latch.width = 0 ∨ s.latch.height = 0) → exec (.compose 0) s = .next (s.endedWith 0)

/-! ### Errors -/

/-- Any command with a nonzero reserved bit ends with RESERVED_NONZERO, no memory access and no RESULT write
(30_encoding.md R89). -/
def Obligations.ReservedBitsEndEveryCommand : Prop :=
  ∀ (i : Instr) (s : State), i.reservedClear = false → exec i s = .next (s.endedWith 2)

/-- The codes DEBLOCK's validation gives, in priority order; each ends the command with memory and RESULT unchanged
(40_command_control.md R103, 60_exceptions.md R223, R224). -/
def Obligations.DeblockErrorForms : Prop :=
  ∀ (v h qm : BitVec 1) (sq : BitVec 5) (s : State),
    (qm = 0 → 12 < sq.toNat → exec (.deblock 0 v h qm sq) s = .next (s.endedWith 3)) ∧
    (qm = 1 → sq = 0 → exec (.deblock 0 v h qm sq) s = .next (s.endedWith 4)) ∧
    (strengthFieldLegal qm sq = true → 0 < s.latch.width * s.latch.height →
      2 ^ 32 < s.latch.src0.toNat + s.latch.width * s.latch.height →
      exec (.deblock 0 v h qm sq) s = .next (s.endedWith 7))

/-- The codes COMPOSE's validation gives, in priority order: ADDR_RANGE for any of its four ranges, then OVERLAP where the RGBA
range meets the luma, the Cb or the Cr range (40_command_control.md R103, 43_upsample_compose.md R197). -/
def Obligations.ComposeErrorForms : Prop :=
  ∀ s : State,
    let L := s.latch
    let luma := L.width * L.height
    let chroma := L.chromaWidth * L.chromaHeight
    0 < luma →
    ((2 ^ 32 < L.src0.toNat + luma ∨ 2 ^ 32 < L.src1.toNat + chroma ∨ 2 ^ 32 < L.src2.toNat + chroma ∨
        2 ^ 32 < L.dst.toNat + 4 * luma) →
      exec (.compose 0) s = .next (s.endedWith 7)) ∧
    (RangeFits L.src0.toNat luma → RangeFits L.src1.toNat chroma → RangeFits L.src2.toNat chroma →
      RangeFits L.dst.toNat (4 * luma) →
      (¬RangesApart L.dst.toNat (4 * luma) L.src0.toNat luma ∨ ¬RangesApart L.dst.toNat (4 * luma) L.src1.toNat chroma ∨
        ¬RangesApart L.dst.toNat (4 * luma) L.src2.toNat chroma) →
      exec (.compose 0) s = .next (s.endedWith 8))

/-- A command that ends with a validation error (codes 1 to 8) has written neither memory nor RESULT
(60_exceptions.md R224). -/
def Obligations.ValidationErrorsChangeOnlyStatus : Prop :=
  ∀ (i : Instr) (s t : State), exec i s = .next t → t.errcode ≠ 0 → t.errcode ≠ 9 → t = s.endedWith t.errcode

/-- After BUS_ERROR, RESULT and every byte outside the write footprint are unchanged; nothing is said of the bytes inside it
(60_exceptions.md R225). -/
def Obligations.BusErrorSparesEverythingOutsideTheWriteFootprint : Prop :=
  ∀ (i : Instr) (s t : State), exec i s = .next t → t.errcode = 9 →
    t.result = s.result ∧ t.err = true ∧ t.done = true ∧ t.engine = .idle ∧
      ∀ a, inSpans (footprintOf i s.latch).writes a = false → t.mem.read a = s.mem.read a

/-- A command that passes validation over ordinary memory ends with BUS_ERROR if the memory answers an access that its
pseudocode makes with an error, a read or a write: a sample of a line that DEBLOCK filters, a chroma byte that UPS reads, any luma,
chroma or RGBA byte of a pixel of COMPOSE. RESULT and every byte outside the write footprint are then unchanged. And no command ends
with BUS_ERROR otherwise: which accesses a command makes is log entry 24 (60_exceptions.md R225, 20_memory.md R65). -/
def Obligations.AnErringAccessEndsTheCommandWithBusError : Prop :=
  ∀ (i : Instr) (s : State),
    (validate i s.latch = .ok → s.touchesNonOrdinary (footprintOf i s.latch) = false → s.accessErrs i →
      ∃ (m : Memory) (n : Nat), exec i s = .next (({ s with mem := m, draws := n } : State).endedWith 9) ∧
        ∀ a, inSpans (footprintOf i s.latch).writes a = false → m.read a = s.mem.read a) ∧
    (∀ t, exec i s = .next t → t.errcode = 9 → s.accessErrs i)

/-- Every command answers a next state, but for one: a command that passes validation and whose footprint touches memory that is not
ordinary is refused. A host access to such an address that is no footprint hazard, and a reset by either way that aborts such a
command, are refused too (20_memory.md R65; log entry 8). -/
def Obligations.NonOrdinaryMemoryIsRefused : Prop :=
  (∀ (i : Instr) (s : State), validate i s.latch = .ok → s.touchesNonOrdinary (footprintOf i s.latch) = true →
    exec i s = .refused .nonOrdinaryMemory) ∧
  (∀ (i : Instr) (s : State), (validate i s.latch ≠ .ok ∨ s.touchesNonOrdinary (footprintOf i s.latch) = false) →
    ∃ t, exec i s = .next t) ∧
  (∀ (addr : BitVec 32) (v : Byte) (s : State), inSpans s.nonOrdinary addr.toNat = true →
    (s.writeHazard addr.toNat = false → hostEffect (.memWrite addr v) s = .refused .nonOrdinaryMemory) ∧
    (s.readHazard addr.toNat = false → hostEffect (.memRead addr) s = .refused .nonOrdinaryMemory)) ∧
  (∀ (v : Word) (i : Instr) (s : State), s.engine = .busy → s.resetHeld = false → decode s.latch.cmd = .ok i →
    validate i s.latch = .ok → s.touchesNonOrdinary (footprintOf i s.latch) = true →
    (v.getLsbD 1 = true → hostEffect (.writeReg 4 (Config.regBase + 0x04) v) s = .refused .nonOrdinaryMemory) ∧
    hostEffect .assertReset s = .refused .nonOrdinaryMemory)

/-- Whatever a command does, no byte outside its write footprint changes (20_memory.md R66). -/
def Obligations.NoCommandWritesOutsideItsFootprint : Prop :=
  ∀ (i : Instr) (s t : State), exec i s = .next t →
    ∀ a, inSpans (footprintOf i s.latch).writes a = false → t.mem.read a = s.mem.read a

/-- What a command computes depends on memory only through its read footprint: two states that agree there (and may differ in
every other byte) end with the same STATUS and RESULT and, where the command completes, the same bytes in the write footprint
(20_memory.md R66, R69). The clause on ERRCODE 9 is the model's choice (log entry 5): after BUS_ERROR the bytes are unspecified
(60_exceptions.md R225), and the model draws the same free values in both runs. -/
def Obligations.CommandsReadOnlyTheirFootprint : Prop :=
  ∀ (i : Instr) (s t : State) (m' : Memory), s.mem.wf = true → m'.wf = true →
    (∀ a, inSpans (footprintOf i s.latch).reads a = true → m'.read a = s.mem.read a) →
    exec i s = .next t →
    ∃ u, exec i { s with mem := m' } = .next u ∧ u.errcode = t.errcode ∧ u.result = t.result ∧
      u.err = t.err ∧ u.done = t.done ∧ u.draws = t.draws ∧
      (t.errcode = 0 ∨ t.errcode = 9 →
        ∀ a, inSpans (footprintOf i s.latch).writes a = true → u.mem.read a = t.mem.read a)

/-- RESULT changes only when a register-mode command ends with ERRCODE 0 (10_state.md R31). -/
def Obligations.ResultIsWrittenOnlyBySuccess : Prop :=
  ∀ (i : Instr) (s t : State), exec i s = .next t → t.result ≠ s.result →
    t.errcode = 0 ∧
      match i with
      | .nop _ => False
      | .deblock _ _ _ _ _ => False
      | .compose _ => False
      | .qlookup _ _ => True
      | .edge _ _ _ => True
      | .lutrd _ _ _ => True
      | .cvt _ => True
      | .ups _ => True

/-- The operands a command sees are the latched ones: replacing every live operand register changes nothing else in how it
ends (10_state.md R33, 70_reset_and_hazards.md R268). -/
def Obligations.CommandsIgnoreLiveOperandRegisters : Prop :=
  ∀ (i : Instr) (s : State) (o : Latch), exec i (s.withOperands o) = mapNext (State.withOperands o) (exec i s)

/-! ### The register port, the interrupt and reset -/

/-- Acceptance of any word, illegal ones included, in an idle device that is not held in reset: the latch, the CMD read value, BUSY,
DONE and the pending footprint are as listed, and nothing else changes but the model's latency (40_command_control.md R101). -/
def Obligations.AcceptanceLatchesTheOperands : Prop :=
  ∀ (w : Word) (s : State), s.resetHeld = false → s.engine = .idle →
    s.peerConflict (latchFootprint (s.capture w)) = false →
    ∃ n d : Nat, hostEffect (HostOp.issue w) s = .next
      { s with
        latch := ⟨w, s.src0, s.src1, s.src2, s.dst, s.dim, s.edgeIn, s.pixIn, s.pos⟩
        cmd := w
        done := false
        engine := .busy
        pending := latchFootprint ⟨w, s.src0, s.src1, s.src2, s.dst, s.dim, s.edgeIn, s.pixIn, s.pos⟩
        delay := n
        draws := d }

/-- A word written to CMD while a command is in flight is dropped; the only effect is OVR
(40_command_control.md R102). -/
def Obligations.OverrunDropsTheWord : Prop :=
  ∀ (w : Word) (s : State), s.resetHeld = false → s.engine = .busy →
    hostEffect (HostOp.issue w) s = .next { s with ovr := true }

/-- A write to STATUS clears exactly the flags whose bits are 1, and changes nothing else (10_state.md R24). -/
def Obligations.StatusWriteClearsFlags : Prop :=
  ∀ (v : Word) (s : State), s.resetHeld = false → hostEffect (.writeReg 4 (Config.regBase + 0x08) v) s = .next
    { s with
      done := if v.getLsbD 1 then false else s.done
      err := if v.getLsbD 2 then false else s.err
      ovr := if v.getLsbD 3 then false else s.ovr }

/-- A write to CTRL with SRST 0 stores IRQ_EN and changes nothing else; one with SRST 1 makes the state change of a hardware reset,
without holding the device in it, and discards the written IRQ_EN, so that CTRL reads 0, unless the abort is refused
(10_state.md R22, 70_reset_and_hazards.md R261). -/
def Obligations.CtrlWriteStoresInterruptEnable : Prop :=
  ∀ (v : Word) (s : State), s.resetHeld = false →
    (v.getLsbD 1 = false →
      hostEffect (.writeReg 4 (Config.regBase + 0x04) v) s = .next { s with ctrl := if v.getLsbD 0 then 1#32 else 0#32 }) ∧
    (v.getLsbD 1 = true → s.touchesNonOrdinary s.abortedFootprint = false →
      ∃ t, hostEffect (.writeReg 4 (Config.regBase + 0x04) v) s = .next t ∧ hostEffect .assertReset s = .next { t with resetHeld := true } ∧
        t.readReg .ctrl = 0#32 ∧ t.engine = .idle ∧ t.resetHeld = false)

/-- STATUS reads with BUSY, DONE, ERR, OVR in bits 0 to 3, ERRCODE in bits 11:8 and 0 elsewhere (10_state.md R23, R34). -/
def Obligations.StatusReadLayout : Prop :=
  ∀ s : State,
    let w := s.readReg .status
    w.getLsbD 0 = decide (s.engine = .busy) ∧ w.getLsbD 1 = s.done ∧ w.getLsbD 2 = s.err ∧ w.getLsbD 3 = s.ovr ∧
    w.extractLsb' 4 4 = 0#4 ∧ w.extractLsb' 8 4 = s.errcode ∧ w.extractLsb' 12 20 = 0#20

/-- The register map, offset by offset from REG_BASE, for every base (10_state.md R20, R21, R25 to R32, R35; 20_memory.md R61). A host write, in a device not held in reset, stores
the word in the register of its offset, PIX_IN without its reserved byte, and changes nothing else; writes to ID, RESULT and the
unassigned offsets change nothing. A host read returns the value of the register of its offset at the time of the read, and changes
nothing; the unassigned offsets read 0. (CTRL, STATUS and CMD are written as other statements say.) -/
def Obligations.RegisterWritesReadBack : Prop :=
  (∀ (v : Word) (s : State), s.resetHeld = false →
    hostEffect (.writeReg 4 (Config.regBase + 0x00) v) s = .next s ∧
    hostEffect (.writeReg 4 (Config.regBase + 0x10) v) s = .next { s with src0 := v } ∧
    hostEffect (.writeReg 4 (Config.regBase + 0x14) v) s = .next { s with src1 := v } ∧
    hostEffect (.writeReg 4 (Config.regBase + 0x18) v) s = .next { s with src2 := v } ∧
    hostEffect (.writeReg 4 (Config.regBase + 0x1C) v) s = .next { s with dst := v } ∧
    hostEffect (.writeReg 4 (Config.regBase + 0x20) v) s = .next { s with dim := v } ∧
    hostEffect (.writeReg 4 (Config.regBase + 0x24) v) s = .next { s with edgeIn := v } ∧
    hostEffect (.writeReg 4 (Config.regBase + 0x28) v) s = .next { s with pixIn := v &&& 0x00FFFFFF#32 } ∧
    hostEffect (.writeReg 4 (Config.regBase + 0x2C) v) s = .next { s with pos := v } ∧
    hostEffect (.writeReg 4 (Config.regBase + 0x30) v) s = .next s ∧
    hostEffect (.writeReg 4 (Config.regBase + 0x34) v) s = .next s ∧
    hostEffect (.writeReg 4 (Config.regBase + 0x38) v) s = .next s ∧
    hostEffect (.writeReg 4 (Config.regBase + 0x3C) v) s = .next s) ∧
  (∀ (s : State),
    let returns (offset : BitVec 6) (v : Word) : Prop :=
      hostEffect (.readReg 4 (Config.regBase + offset.toNat)) s = .next { s with seen := .register offset v :: s.seen }
    returns 0x00#6 0xDBF00007#32 ∧ returns 0x04#6 s.ctrl ∧ returns 0x08#6 (s.readReg .status) ∧ returns 0x0C#6 s.cmd ∧
    returns 0x10#6 s.src0 ∧ returns 0x14#6 s.src1 ∧ returns 0x18#6 s.src2 ∧ returns 0x1C#6 s.dst ∧ returns 0x20#6 s.dim ∧
    returns 0x24#6 s.edgeIn ∧ returns 0x28#6 s.pixIn ∧ returns 0x2C#6 s.pos ∧ returns 0x30#6 s.result ∧
    returns 0x34#6 0#32 ∧ returns 0x38#6 0#32 ∧ returns 0x3C#6 0#32)

/-- A host access to the register block, which is 64 bytes from REG_BASE, of another width than 4 or at an offset that is not a
multiple of 4 is refused (20_memory.md R61). An access outside the block is refused under a name of its own, whatever its width: the
spec does not say what answers there, and that refusal is the model's choice (log entry 10). -/
def Obligations.IllegalRegisterAccessesAreRefused : Prop :=
  (∀ (width offset : Nat) (v : Word) (s : State), offset < 64 → (width ≠ 4 ∨ offset % 4 ≠ 0) →
    hostEffect (.writeReg width (Config.regBase + offset) v) s = .refused .illegalRegisterAccess ∧
    hostEffect (.readReg width (Config.regBase + offset)) s = .refused .illegalRegisterAccess) ∧
  (∀ (width addr : Nat) (v : Word) (s : State), (addr < Config.regBase ∨ Config.regBase + 64 ≤ addr) →
    hostEffect (.writeReg width addr v) s = .refused .outsideRegisterBlock ∧
    hostEffect (.readReg width addr) s = .refused .outsideRegisterBlock)

/-- IRQ is IRQ_EN and one of DONE, ERR, OVR; it is low once they are cleared, after IRQ_EN is written 0, and, with ERR and OVR
clear, on acceptance of a command (60_exceptions.md R230, R231). -/
def Obligations.InterruptFollowsStatus : Prop :=
  ∀ s : State,
    s.irq = ((s.readReg .ctrl).getLsbD 0 &&
      ((s.readReg .status).getLsbD 1 || (s.readReg .status).getLsbD 2 || (s.readReg .status).getLsbD 3)) ∧
    (s.resetHeld = false → ∃ t, hostEffect HostOp.clear s = .next t ∧ t.irq = false) ∧
    (s.resetHeld = false → ∃ t, hostEffect (.writeReg 4 (Config.regBase + 0x04) 0#32) s = .next t ∧ t.irq = false) ∧
    (∀ (w : Word) (n : Nat), s.err = false → s.ovr = false → (s.accept w n).irq = false)

/-- The reset state reads as 10_state.md R40 lists it. (The latch's and the model's own fields' values are the model's
choices, log entries 2 to 8, and are not stated.) -/
def Obligations.ResetStateReadsAsListed : Prop :=
  State.reset.readReg .id = 0xDBF00007#32 ∧
  (∀ r, r ≠ .id → State.reset.readReg r = 0#32) ∧
  State.reset.engine = .idle ∧ State.reset.pending = ⟨[], []⟩ ∧ State.reset.irq = false

/-- Soft reset and hardware reset leave the same state: every register at its reset value, the engine idle, IRQ low, and
memory unchanged but for the write footprint of an aborted command that passes validation. Soft reset leaves it at once; the reset
input holds the device in it, and its release changes nothing else (10_state.md R40; 70_reset_and_hazards.md R260 to R262). -/
def Obligations.ResetsRestoreTheRegisters : Prop :=
  ∀ (v : Word) (s : State), v.getLsbD 1 = true → s.resetHeld = false → s.touchesNonOrdinary s.abortedFootprint = false →
    ∃ t, hostEffect (.writeReg 4 (Config.regBase + 0x04) v) s = .next t ∧ hostEffect .assertReset s = .next { t with resetHeld := true } ∧
      hostEffect .releaseReset { t with resetHeld := true } = .next t ∧
      (∀ r, t.readReg r = State.reset.readReg r) ∧ t.engine = .idle ∧ t.pending = ⟨[], []⟩ ∧ t.irq = false ∧
      (∀ a, (s.engine = .idle ∨ (∀ i, decode s.latch.cmd ≠ .ok i) ∨
          (∃ i, decode s.latch.cmd = .ok i ∧
            (validate i s.latch ≠ .ok ∨ inSpans (footprintOf i s.latch).writes a = false))) →
        t.mem.read a = s.mem.read a)

/-- While the reset input is asserted, no legal register write changes anything: no operand is stored, no command is accepted, OVR
is not set, SRST resets nothing. Asserting the input again changes nothing. And from any state that meets the invariant, whatever the
outside does in a step, the device still holds its reset state after it: every register reads its reset value and the engine is idle,
also when that step releases the input (70_reset_and_hazards.md R260). What the port answers meanwhile is log entry 17. -/
def Obligations.AssertedResetHoldsTheDevice : Prop :=
  (∀ (offset : Nat) (v : Word) (s : State), s.resetHeld = true → offset < 64 → offset % 4 = 0 →
    hostEffect (.writeReg 4 (Config.regBase + offset) v) s = .next s) ∧
  (∀ s : State, s.resetHeld = true → hostEffect .assertReset s = .next s) ∧
  (∀ s t : State, s.inv = true → s.resetHeld = true → step s = .next t →
    t.engine = .idle ∧ t.pending = ⟨[], []⟩ ∧ t.irq = false ∧ ∀ r, t.readReg r = State.reset.readReg r)

/-- Host accesses to memory (70_reset_and_hazards.md R265, 30_encoding.md R94). A host write to a byte of a footprint in flight and
a host read of a byte of a write range in flight are faults, be the command this device's or another instance's. Every other access
to ordinary memory is performed: a read returns the memory's contents, and a write stores its byte and leaves every other byte as it
was. Nothing else changes. (That another instance's footprint counts as this device's does is log entry 12.) -/
def Obligations.FootprintHazardFaults : Prop :=
  ∀ (addr : BitVec 32) (v : Byte) (s : State),
    let a := addr.toNat
    (s.engine = .busy → inSpans (s.pending.reads ++ s.pending.writes) a = true →
      hostEffect (.memWrite addr v) s = .fault .hazardFootprint) ∧
    (s.engine = .busy → inSpans s.pending.writes a = true → hostEffect (.memRead addr) s = .fault .hazardFootprint) ∧
    (∀ p ∈ s.peers, inSpans (p.footprint.reads ++ p.footprint.writes) a = true →
      hostEffect (.memWrite addr v) s = .fault .hazardFootprint) ∧
    (∀ p ∈ s.peers, inSpans p.footprint.writes a = true → hostEffect (.memRead addr) s = .fault .hazardFootprint) ∧
    ((s.engine = .busy → inSpans s.pending.writes a = false) → (∀ p ∈ s.peers, inSpans p.footprint.writes a = false) →
      inSpans s.nonOrdinary a = false →
      hostEffect (.memRead addr) s = .next { s with seen := .memory addr (s.mem.read a) :: s.seen }) ∧
    ((s.engine = .busy → inSpans (s.pending.reads ++ s.pending.writes) a = false) →
      (∀ p ∈ s.peers, inSpans (p.footprint.reads ++ p.footprint.writes) a = false) →
      inSpans s.nonOrdinary a = false → s.mem.wf = true →
      ∃ m : Memory, hostEffect (.memWrite addr v) s = .next { s with mem := m } ∧ m.read a = v ∧
        ∀ x, x ≠ a → m.read x = s.mem.read x)

/-- Two instances' footprints in flight that overlap where either writes are the footprint hazard, whichever is accepted
second: another instance against this device, this device against another instance, or one other instance against another
(60_exceptions.md R243; log entry 12). -/
def Obligations.ConflictingInstancesFault : Prop :=
  ∀ (base : Nat) (w : Word) (f g : Footprint) (s : State),
    (s.engine = .busy → f.conflicts s.pending = true → (∀ p ∈ s.peers, p.regBase ≠ base) →
      hostEffect (.peerAccept base f) s = .fault .hazardFootprint) ∧
    (s.resetHeld = false → s.engine = .idle → (latchFootprint (s.capture w)).conflicts f = true → ⟨base, f⟩ ∈ s.peers →
      hostEffect (HostOp.issue w) s = .fault .hazardFootprint) ∧
    (∀ other : Nat, ⟨other, g⟩ ∈ s.peers → f.conflicts g = true → (∀ p ∈ s.peers, p.regBase ≠ base) →
      hostEffect (.peerAccept base f) s = .fault .hazardFootprint)

/-! ### The invariant -/

/-- Every step keeps the invariant: memory in canonical form inside the address space, reserved register bits 0, ERRCODE at
most 9, the engine's bookkeeping consistent, everything in flight apart, and the reset state held while the reset input is asserted. -/
def Obligations.EveryStepKeepsTheInvariant : Prop :=
  ∀ s t : State, s.inv = true → step s = .next t → t.inv = true

/-- The invariant holds at reset (10_state.md R40). Its clauses on memory, on what is in flight elsewhere and on the reset input rest
on the model's choices for State.reset, log entries 7, 17 and 21. -/
def Obligations.ResetMeetsTheInvariant : Prop := State.reset.inv = true
end

