-- ==== Sys2Proof/Laws/State.lean ====
section
/-! SUPPORT. One lemma per field per state update, true by definition, so that no proof unfolds an update. -/

namespace Sys2Proof.Machine

/-! ### `State.finish` -/

@[simp] theorem finish_ctrl (code : ErrCode) (s : State) : (s.finish code).ctrl = s.ctrl := rfl
@[simp] theorem finish_done (code : ErrCode) (s : State) : (s.finish code).done = true := rfl
@[simp] theorem finish_err (code : ErrCode) (s : State) : (s.finish code).err = (s.err || decide (code ≠ .ok)) := rfl
@[simp] theorem finish_ovr (code : ErrCode) (s : State) : (s.finish code).ovr = s.ovr := rfl
@[simp] theorem finish_errcode (code : ErrCode) (s : State) : (s.finish code).errcode = errBits code := rfl
@[simp] theorem finish_cmd (code : ErrCode) (s : State) : (s.finish code).cmd = s.cmd := rfl
@[simp] theorem finish_src0 (code : ErrCode) (s : State) : (s.finish code).src0 = s.src0 := rfl
@[simp] theorem finish_src1 (code : ErrCode) (s : State) : (s.finish code).src1 = s.src1 := rfl
@[simp] theorem finish_src2 (code : ErrCode) (s : State) : (s.finish code).src2 = s.src2 := rfl
@[simp] theorem finish_dst (code : ErrCode) (s : State) : (s.finish code).dst = s.dst := rfl
@[simp] theorem finish_dim (code : ErrCode) (s : State) : (s.finish code).dim = s.dim := rfl
@[simp] theorem finish_edgeIn (code : ErrCode) (s : State) : (s.finish code).edgeIn = s.edgeIn := rfl
@[simp] theorem finish_pixIn (code : ErrCode) (s : State) : (s.finish code).pixIn = s.pixIn := rfl
@[simp] theorem finish_pos (code : ErrCode) (s : State) : (s.finish code).pos = s.pos := rfl
@[simp] theorem finish_result (code : ErrCode) (s : State) : (s.finish code).result = s.result := rfl
@[simp] theorem finish_latch (code : ErrCode) (s : State) : (s.finish code).latch = s.latch := rfl
@[simp] theorem finish_engine (code : ErrCode) (s : State) : (s.finish code).engine = .idle := rfl
@[simp] theorem finish_pending (code : ErrCode) (s : State) : (s.finish code).pending = Footprint.none := rfl
@[simp] theorem finish_resetHeld (code : ErrCode) (s : State) : (s.finish code).resetHeld = s.resetHeld := rfl
@[simp] theorem finish_mem (code : ErrCode) (s : State) : (s.finish code).mem = s.mem := rfl
@[simp] theorem finish_host (code : ErrCode) (s : State) : (s.finish code).host = s.host := rfl
@[simp] theorem finish_seen (code : ErrCode) (s : State) : (s.finish code).seen = s.seen := rfl
@[simp] theorem finish_delay (code : ErrCode) (s : State) : (s.finish code).delay = s.delay := rfl
@[simp] theorem finish_draws (code : ErrCode) (s : State) : (s.finish code).draws = s.draws := rfl
@[simp] theorem finish_memErr (code : ErrCode) (s : State) : (s.finish code).memErr = s.memErr := rfl
@[simp] theorem finish_nonOrdinary (code : ErrCode) (s : State) : (s.finish code).nonOrdinary = s.nonOrdinary := rfl
@[simp] theorem finish_peers (code : ErrCode) (s : State) : (s.finish code).peers = s.peers := rfl

/-! ### `State.accept` -/

@[simp] theorem accept_ctrl (w : Word) (n : Nat) (s : State) : (s.accept w n).ctrl = s.ctrl := rfl
@[simp] theorem accept_done (w : Word) (n : Nat) (s : State) : (s.accept w n).done = false := rfl
@[simp] theorem accept_err (w : Word) (n : Nat) (s : State) : (s.accept w n).err = s.err := rfl
@[simp] theorem accept_ovr (w : Word) (n : Nat) (s : State) : (s.accept w n).ovr = s.ovr := rfl
@[simp] theorem accept_errcode (w : Word) (n : Nat) (s : State) : (s.accept w n).errcode = s.errcode := rfl
@[simp] theorem accept_cmd (w : Word) (n : Nat) (s : State) : (s.accept w n).cmd = w := rfl
@[simp] theorem accept_src0 (w : Word) (n : Nat) (s : State) : (s.accept w n).src0 = s.src0 := rfl
@[simp] theorem accept_src1 (w : Word) (n : Nat) (s : State) : (s.accept w n).src1 = s.src1 := rfl
@[simp] theorem accept_src2 (w : Word) (n : Nat) (s : State) : (s.accept w n).src2 = s.src2 := rfl
@[simp] theorem accept_dst (w : Word) (n : Nat) (s : State) : (s.accept w n).dst = s.dst := rfl
@[simp] theorem accept_dim (w : Word) (n : Nat) (s : State) : (s.accept w n).dim = s.dim := rfl
@[simp] theorem accept_edgeIn (w : Word) (n : Nat) (s : State) : (s.accept w n).edgeIn = s.edgeIn := rfl
@[simp] theorem accept_pixIn (w : Word) (n : Nat) (s : State) : (s.accept w n).pixIn = s.pixIn := rfl
@[simp] theorem accept_pos (w : Word) (n : Nat) (s : State) : (s.accept w n).pos = s.pos := rfl
@[simp] theorem accept_result (w : Word) (n : Nat) (s : State) : (s.accept w n).result = s.result := rfl
@[simp] theorem accept_latch (w : Word) (n : Nat) (s : State) : (s.accept w n).latch = s.capture w := rfl
@[simp] theorem accept_engine (w : Word) (n : Nat) (s : State) : (s.accept w n).engine = .busy := rfl
@[simp] theorem accept_pending (w : Word) (n : Nat) (s : State) : (s.accept w n).pending = latchFootprint (s.capture w) := rfl
@[simp] theorem accept_resetHeld (w : Word) (n : Nat) (s : State) : (s.accept w n).resetHeld = s.resetHeld := rfl
@[simp] theorem accept_mem (w : Word) (n : Nat) (s : State) : (s.accept w n).mem = s.mem := rfl
@[simp] theorem accept_host (w : Word) (n : Nat) (s : State) : (s.accept w n).host = s.host := rfl
@[simp] theorem accept_seen (w : Word) (n : Nat) (s : State) : (s.accept w n).seen = s.seen := rfl
@[simp] theorem accept_delay (w : Word) (n : Nat) (s : State) : (s.accept w n).delay = n := rfl
@[simp] theorem accept_draws (w : Word) (n : Nat) (s : State) : (s.accept w n).draws = s.draws := rfl
@[simp] theorem accept_memErr (w : Word) (n : Nat) (s : State) : (s.accept w n).memErr = s.memErr := rfl
@[simp] theorem accept_nonOrdinary (w : Word) (n : Nat) (s : State) : (s.accept w n).nonOrdinary = s.nonOrdinary := rfl
@[simp] theorem accept_peers (w : Word) (n : Nat) (s : State) : (s.accept w n).peers = s.peers := rfl

/-! ### `State.observe` -/

@[simp] theorem observe_ctrl (o : Observation) (s : State) : (s.observe o).ctrl = s.ctrl := rfl
@[simp] theorem observe_done (o : Observation) (s : State) : (s.observe o).done = s.done := rfl
@[simp] theorem observe_err (o : Observation) (s : State) : (s.observe o).err = s.err := rfl
@[simp] theorem observe_ovr (o : Observation) (s : State) : (s.observe o).ovr = s.ovr := rfl
@[simp] theorem observe_errcode (o : Observation) (s : State) : (s.observe o).errcode = s.errcode := rfl
@[simp] theorem observe_cmd (o : Observation) (s : State) : (s.observe o).cmd = s.cmd := rfl
@[simp] theorem observe_src0 (o : Observation) (s : State) : (s.observe o).src0 = s.src0 := rfl
@[simp] theorem observe_src1 (o : Observation) (s : State) : (s.observe o).src1 = s.src1 := rfl
@[simp] theorem observe_src2 (o : Observation) (s : State) : (s.observe o).src2 = s.src2 := rfl
@[simp] theorem observe_dst (o : Observation) (s : State) : (s.observe o).dst = s.dst := rfl
@[simp] theorem observe_dim (o : Observation) (s : State) : (s.observe o).dim = s.dim := rfl
@[simp] theorem observe_edgeIn (o : Observation) (s : State) : (s.observe o).edgeIn = s.edgeIn := rfl
@[simp] theorem observe_pixIn (o : Observation) (s : State) : (s.observe o).pixIn = s.pixIn := rfl
@[simp] theorem observe_pos (o : Observation) (s : State) : (s.observe o).pos = s.pos := rfl
@[simp] theorem observe_result (o : Observation) (s : State) : (s.observe o).result = s.result := rfl
@[simp] theorem observe_latch (o : Observation) (s : State) : (s.observe o).latch = s.latch := rfl
@[simp] theorem observe_engine (o : Observation) (s : State) : (s.observe o).engine = s.engine := rfl
@[simp] theorem observe_pending (o : Observation) (s : State) : (s.observe o).pending = s.pending := rfl
@[simp] theorem observe_resetHeld (o : Observation) (s : State) : (s.observe o).resetHeld = s.resetHeld := rfl
@[simp] theorem observe_mem (o : Observation) (s : State) : (s.observe o).mem = s.mem := rfl
@[simp] theorem observe_host (o : Observation) (s : State) : (s.observe o).host = s.host := rfl
@[simp] theorem observe_seen (o : Observation) (s : State) : (s.observe o).seen = o :: s.seen := rfl
@[simp] theorem observe_delay (o : Observation) (s : State) : (s.observe o).delay = s.delay := rfl
@[simp] theorem observe_draws (o : Observation) (s : State) : (s.observe o).draws = s.draws := rfl
@[simp] theorem observe_memErr (o : Observation) (s : State) : (s.observe o).memErr = s.memErr := rfl
@[simp] theorem observe_nonOrdinary (o : Observation) (s : State) : (s.observe o).nonOrdinary = s.nonOrdinary := rfl
@[simp] theorem observe_peers (o : Observation) (s : State) : (s.observe o).peers = s.peers := rfl

/-! ### `State.clearStatus` -/

@[simp] theorem clearStatus_ctrl (v : Word) (s : State) : (s.clearStatus v).ctrl = s.ctrl := rfl
@[simp] theorem clearStatus_done (v : Word) (s : State) : (s.clearStatus v).done = (s.done && !v.getLsbD 1) := rfl
@[simp] theorem clearStatus_err (v : Word) (s : State) : (s.clearStatus v).err = (s.err && !v.getLsbD 2) := rfl
@[simp] theorem clearStatus_ovr (v : Word) (s : State) : (s.clearStatus v).ovr = (s.ovr && !v.getLsbD 3) := rfl
@[simp] theorem clearStatus_errcode (v : Word) (s : State) : (s.clearStatus v).errcode = s.errcode := rfl
@[simp] theorem clearStatus_cmd (v : Word) (s : State) : (s.clearStatus v).cmd = s.cmd := rfl
@[simp] theorem clearStatus_src0 (v : Word) (s : State) : (s.clearStatus v).src0 = s.src0 := rfl
@[simp] theorem clearStatus_src1 (v : Word) (s : State) : (s.clearStatus v).src1 = s.src1 := rfl
@[simp] theorem clearStatus_src2 (v : Word) (s : State) : (s.clearStatus v).src2 = s.src2 := rfl
@[simp] theorem clearStatus_dst (v : Word) (s : State) : (s.clearStatus v).dst = s.dst := rfl
@[simp] theorem clearStatus_dim (v : Word) (s : State) : (s.clearStatus v).dim = s.dim := rfl
@[simp] theorem clearStatus_edgeIn (v : Word) (s : State) : (s.clearStatus v).edgeIn = s.edgeIn := rfl
@[simp] theorem clearStatus_pixIn (v : Word) (s : State) : (s.clearStatus v).pixIn = s.pixIn := rfl
@[simp] theorem clearStatus_pos (v : Word) (s : State) : (s.clearStatus v).pos = s.pos := rfl
@[simp] theorem clearStatus_result (v : Word) (s : State) : (s.clearStatus v).result = s.result := rfl
@[simp] theorem clearStatus_latch (v : Word) (s : State) : (s.clearStatus v).latch = s.latch := rfl
@[simp] theorem clearStatus_engine (v : Word) (s : State) : (s.clearStatus v).engine = s.engine := rfl
@[simp] theorem clearStatus_pending (v : Word) (s : State) : (s.clearStatus v).pending = s.pending := rfl
@[simp] theorem clearStatus_resetHeld (v : Word) (s : State) : (s.clearStatus v).resetHeld = s.resetHeld := rfl
@[simp] theorem clearStatus_mem (v : Word) (s : State) : (s.clearStatus v).mem = s.mem := rfl
@[simp] theorem clearStatus_host (v : Word) (s : State) : (s.clearStatus v).host = s.host := rfl
@[simp] theorem clearStatus_seen (v : Word) (s : State) : (s.clearStatus v).seen = s.seen := rfl
@[simp] theorem clearStatus_delay (v : Word) (s : State) : (s.clearStatus v).delay = s.delay := rfl
@[simp] theorem clearStatus_draws (v : Word) (s : State) : (s.clearStatus v).draws = s.draws := rfl
@[simp] theorem clearStatus_memErr (v : Word) (s : State) : (s.clearStatus v).memErr = s.memErr := rfl
@[simp] theorem clearStatus_nonOrdinary (v : Word) (s : State) : (s.clearStatus v).nonOrdinary = s.nonOrdinary := rfl
@[simp] theorem clearStatus_peers (v : Word) (s : State) : (s.clearStatus v).peers = s.peers := rfl

/-! ### `State.finishBusError` -/

@[simp] theorem finishBusError_ctrl (f : Footprint) (s : State) : (s.finishBusError f).ctrl = s.ctrl := rfl
@[simp] theorem finishBusError_done (f : Footprint) (s : State) : (s.finishBusError f).done = true := rfl
@[simp] theorem finishBusError_ovr (f : Footprint) (s : State) : (s.finishBusError f).ovr = s.ovr := rfl
@[simp] theorem finishBusError_errcode (f : Footprint) (s : State) : (s.finishBusError f).errcode = 9 := rfl
@[simp] theorem finishBusError_cmd (f : Footprint) (s : State) : (s.finishBusError f).cmd = s.cmd := rfl
@[simp] theorem finishBusError_src0 (f : Footprint) (s : State) : (s.finishBusError f).src0 = s.src0 := rfl
@[simp] theorem finishBusError_src1 (f : Footprint) (s : State) : (s.finishBusError f).src1 = s.src1 := rfl
@[simp] theorem finishBusError_src2 (f : Footprint) (s : State) : (s.finishBusError f).src2 = s.src2 := rfl
@[simp] theorem finishBusError_dst (f : Footprint) (s : State) : (s.finishBusError f).dst = s.dst := rfl
@[simp] theorem finishBusError_dim (f : Footprint) (s : State) : (s.finishBusError f).dim = s.dim := rfl
@[simp] theorem finishBusError_edgeIn (f : Footprint) (s : State) : (s.finishBusError f).edgeIn = s.edgeIn := rfl
@[simp] theorem finishBusError_pixIn (f : Footprint) (s : State) : (s.finishBusError f).pixIn = s.pixIn := rfl
@[simp] theorem finishBusError_pos (f : Footprint) (s : State) : (s.finishBusError f).pos = s.pos := rfl
@[simp] theorem finishBusError_result (f : Footprint) (s : State) : (s.finishBusError f).result = s.result := rfl
@[simp] theorem finishBusError_latch (f : Footprint) (s : State) : (s.finishBusError f).latch = s.latch := rfl
@[simp] theorem finishBusError_engine (f : Footprint) (s : State) : (s.finishBusError f).engine = .idle := rfl
@[simp] theorem finishBusError_pending (f : Footprint) (s : State) : (s.finishBusError f).pending = Footprint.none := rfl
@[simp] theorem finishBusError_resetHeld (f : Footprint) (s : State) : (s.finishBusError f).resetHeld = s.resetHeld := rfl
@[simp] theorem finishBusError_mem (f : Footprint) (s : State) : (s.finishBusError f).mem = s.mem.scramble s.draws f.writes := rfl
@[simp] theorem finishBusError_host (f : Footprint) (s : State) : (s.finishBusError f).host = s.host := rfl
@[simp] theorem finishBusError_seen (f : Footprint) (s : State) : (s.finishBusError f).seen = s.seen := rfl
@[simp] theorem finishBusError_delay (f : Footprint) (s : State) : (s.finishBusError f).delay = s.delay := rfl
@[simp] theorem finishBusError_draws (f : Footprint) (s : State) : (s.finishBusError f).draws = s.draws + 1 := rfl
@[simp] theorem finishBusError_memErr (f : Footprint) (s : State) : (s.finishBusError f).memErr = s.memErr := rfl
@[simp] theorem finishBusError_nonOrdinary (f : Footprint) (s : State) : (s.finishBusError f).nonOrdinary = s.nonOrdinary := rfl
@[simp] theorem finishBusError_peers (f : Footprint) (s : State) : (s.finishBusError f).peers = s.peers := rfl

/-! ### `State.afterReset` -/

@[simp] theorem afterReset_ctrl (s : State) : s.afterReset.ctrl = 0 := rfl
@[simp] theorem afterReset_done (s : State) : s.afterReset.done = false := rfl
@[simp] theorem afterReset_err (s : State) : s.afterReset.err = false := rfl
@[simp] theorem afterReset_ovr (s : State) : s.afterReset.ovr = false := rfl
@[simp] theorem afterReset_errcode (s : State) : s.afterReset.errcode = 0 := rfl
@[simp] theorem afterReset_cmd (s : State) : s.afterReset.cmd = 0 := rfl
@[simp] theorem afterReset_src0 (s : State) : s.afterReset.src0 = 0 := rfl
@[simp] theorem afterReset_src1 (s : State) : s.afterReset.src1 = 0 := rfl
@[simp] theorem afterReset_src2 (s : State) : s.afterReset.src2 = 0 := rfl
@[simp] theorem afterReset_dst (s : State) : s.afterReset.dst = 0 := rfl
@[simp] theorem afterReset_dim (s : State) : s.afterReset.dim = 0 := rfl
@[simp] theorem afterReset_edgeIn (s : State) : s.afterReset.edgeIn = 0 := rfl
@[simp] theorem afterReset_pixIn (s : State) : s.afterReset.pixIn = 0 := rfl
@[simp] theorem afterReset_pos (s : State) : s.afterReset.pos = 0 := rfl
@[simp] theorem afterReset_result (s : State) : s.afterReset.result = 0 := rfl
@[simp] theorem afterReset_latch (s : State) : s.afterReset.latch = freeLatch s.draws := rfl
@[simp] theorem afterReset_engine (s : State) : s.afterReset.engine = .idle := rfl
@[simp] theorem afterReset_pending (s : State) : s.afterReset.pending = Footprint.none := rfl
@[simp] theorem afterReset_resetHeld (s : State) : s.afterReset.resetHeld = false := rfl
@[simp] theorem afterReset_mem (s : State) : s.afterReset.mem = s.mem.scramble s.draws s.abortedFootprint.writes := rfl
@[simp] theorem afterReset_host (s : State) : s.afterReset.host = s.host := rfl
@[simp] theorem afterReset_seen (s : State) : s.afterReset.seen = s.seen := rfl
@[simp] theorem afterReset_delay (s : State) : s.afterReset.delay = 0 := rfl
@[simp] theorem afterReset_draws (s : State) : s.afterReset.draws = s.draws + 1 := rfl
@[simp] theorem afterReset_memErr (s : State) : s.afterReset.memErr = s.memErr := rfl
@[simp] theorem afterReset_nonOrdinary (s : State) : s.afterReset.nonOrdinary = s.nonOrdinary := rfl
@[simp] theorem afterReset_peers (s : State) : s.afterReset.peers = s.peers := rfl

/-! ### `State.releaseReset` -/

@[simp] theorem releaseReset_ctrl (s : State) : s.releaseReset.ctrl = s.ctrl := rfl
@[simp] theorem releaseReset_done (s : State) : s.releaseReset.done = s.done := rfl
@[simp] theorem releaseReset_err (s : State) : s.releaseReset.err = s.err := rfl
@[simp] theorem releaseReset_ovr (s : State) : s.releaseReset.ovr = s.ovr := rfl
@[simp] theorem releaseReset_errcode (s : State) : s.releaseReset.errcode = s.errcode := rfl
@[simp] theorem releaseReset_cmd (s : State) : s.releaseReset.cmd = s.cmd := rfl
@[simp] theorem releaseReset_src0 (s : State) : s.releaseReset.src0 = s.src0 := rfl
@[simp] theorem releaseReset_src1 (s : State) : s.releaseReset.src1 = s.src1 := rfl
@[simp] theorem releaseReset_src2 (s : State) : s.releaseReset.src2 = s.src2 := rfl
@[simp] theorem releaseReset_dst (s : State) : s.releaseReset.dst = s.dst := rfl
@[simp] theorem releaseReset_dim (s : State) : s.releaseReset.dim = s.dim := rfl
@[simp] theorem releaseReset_edgeIn (s : State) : s.releaseReset.edgeIn = s.edgeIn := rfl
@[simp] theorem releaseReset_pixIn (s : State) : s.releaseReset.pixIn = s.pixIn := rfl
@[simp] theorem releaseReset_pos (s : State) : s.releaseReset.pos = s.pos := rfl
@[simp] theorem releaseReset_result (s : State) : s.releaseReset.result = s.result := rfl
@[simp] theorem releaseReset_latch (s : State) : s.releaseReset.latch = s.latch := rfl
@[simp] theorem releaseReset_engine (s : State) : s.releaseReset.engine = s.engine := rfl
@[simp] theorem releaseReset_pending (s : State) : s.releaseReset.pending = s.pending := rfl
@[simp] theorem releaseReset_resetHeld (s : State) : s.releaseReset.resetHeld = false := rfl
@[simp] theorem releaseReset_mem (s : State) : s.releaseReset.mem = s.mem := rfl
@[simp] theorem releaseReset_host (s : State) : s.releaseReset.host = s.host := rfl
@[simp] theorem releaseReset_seen (s : State) : s.releaseReset.seen = s.seen := rfl
@[simp] theorem releaseReset_delay (s : State) : s.releaseReset.delay = s.delay := rfl
@[simp] theorem releaseReset_draws (s : State) : s.releaseReset.draws = s.draws := rfl
@[simp] theorem releaseReset_memErr (s : State) : s.releaseReset.memErr = s.memErr := rfl
@[simp] theorem releaseReset_nonOrdinary (s : State) : s.releaseReset.nonOrdinary = s.nonOrdinary := rfl
@[simp] theorem releaseReset_peers (s : State) : s.releaseReset.peers = s.peers := rfl

/-! ### `State.withCommand` -/

@[simp] theorem withCommand_ctrl (w : Word) (s : State) : (s.withCommand w).ctrl = s.ctrl := rfl
@[simp] theorem withCommand_done (w : Word) (s : State) : (s.withCommand w).done = false := rfl
@[simp] theorem withCommand_err (w : Word) (s : State) : (s.withCommand w).err = s.err := rfl
@[simp] theorem withCommand_ovr (w : Word) (s : State) : (s.withCommand w).ovr = s.ovr := rfl
@[simp] theorem withCommand_errcode (w : Word) (s : State) : (s.withCommand w).errcode = s.errcode := rfl
@[simp] theorem withCommand_cmd (w : Word) (s : State) : (s.withCommand w).cmd = w := rfl
@[simp] theorem withCommand_src0 (w : Word) (s : State) : (s.withCommand w).src0 = s.src0 := rfl
@[simp] theorem withCommand_src1 (w : Word) (s : State) : (s.withCommand w).src1 = s.src1 := rfl
@[simp] theorem withCommand_src2 (w : Word) (s : State) : (s.withCommand w).src2 = s.src2 := rfl
@[simp] theorem withCommand_dst (w : Word) (s : State) : (s.withCommand w).dst = s.dst := rfl
@[simp] theorem withCommand_dim (w : Word) (s : State) : (s.withCommand w).dim = s.dim := rfl
@[simp] theorem withCommand_edgeIn (w : Word) (s : State) : (s.withCommand w).edgeIn = s.edgeIn := rfl
@[simp] theorem withCommand_pixIn (w : Word) (s : State) : (s.withCommand w).pixIn = s.pixIn := rfl
@[simp] theorem withCommand_pos (w : Word) (s : State) : (s.withCommand w).pos = s.pos := rfl
@[simp] theorem withCommand_result (w : Word) (s : State) : (s.withCommand w).result = s.result := rfl
@[simp] theorem withCommand_latch (w : Word) (s : State) : (s.withCommand w).latch = s.capture w := rfl
@[simp] theorem withCommand_engine (w : Word) (s : State) : (s.withCommand w).engine = .busy := rfl
@[simp] theorem withCommand_pending (w : Word) (s : State) : (s.withCommand w).pending = latchFootprint (s.capture w) := rfl
@[simp] theorem withCommand_resetHeld (w : Word) (s : State) : (s.withCommand w).resetHeld = false := rfl
@[simp] theorem withCommand_mem (w : Word) (s : State) : (s.withCommand w).mem = s.mem := rfl
@[simp] theorem withCommand_host (w : Word) (s : State) : (s.withCommand w).host = s.host := rfl
@[simp] theorem withCommand_seen (w : Word) (s : State) : (s.withCommand w).seen = s.seen := rfl
@[simp] theorem withCommand_delay (w : Word) (s : State) : (s.withCommand w).delay = 0 := rfl
@[simp] theorem withCommand_draws (w : Word) (s : State) : (s.withCommand w).draws = s.draws := rfl
@[simp] theorem withCommand_memErr (w : Word) (s : State) : (s.withCommand w).memErr = s.memErr := rfl
@[simp] theorem withCommand_nonOrdinary (w : Word) (s : State) : (s.withCommand w).nonOrdinary = s.nonOrdinary := rfl
@[simp] theorem withCommand_peers (w : Word) (s : State) : (s.withCommand w).peers = s.peers := rfl

/-! ### `State.endedWith` -/

@[simp] theorem endedWith_ctrl (c : BitVec 4) (s : State) : (s.endedWith c).ctrl = s.ctrl := rfl
@[simp] theorem endedWith_done (c : BitVec 4) (s : State) : (s.endedWith c).done = true := rfl
@[simp] theorem endedWith_err (c : BitVec 4) (s : State) : (s.endedWith c).err = (s.err || decide (c ≠ 0)) := rfl
@[simp] theorem endedWith_ovr (c : BitVec 4) (s : State) : (s.endedWith c).ovr = s.ovr := rfl
@[simp] theorem endedWith_errcode (c : BitVec 4) (s : State) : (s.endedWith c).errcode = c := rfl
@[simp] theorem endedWith_cmd (c : BitVec 4) (s : State) : (s.endedWith c).cmd = s.cmd := rfl
@[simp] theorem endedWith_src0 (c : BitVec 4) (s : State) : (s.endedWith c).src0 = s.src0 := rfl
@[simp] theorem endedWith_src1 (c : BitVec 4) (s : State) : (s.endedWith c).src1 = s.src1 := rfl
@[simp] theorem endedWith_src2 (c : BitVec 4) (s : State) : (s.endedWith c).src2 = s.src2 := rfl
@[simp] theorem endedWith_dst (c : BitVec 4) (s : State) : (s.endedWith c).dst = s.dst := rfl
@[simp] theorem endedWith_dim (c : BitVec 4) (s : State) : (s.endedWith c).dim = s.dim := rfl
@[simp] theorem endedWith_edgeIn (c : BitVec 4) (s : State) : (s.endedWith c).edgeIn = s.edgeIn := rfl
@[simp] theorem endedWith_pixIn (c : BitVec 4) (s : State) : (s.endedWith c).pixIn = s.pixIn := rfl
@[simp] theorem endedWith_pos (c : BitVec 4) (s : State) : (s.endedWith c).pos = s.pos := rfl
@[simp] theorem endedWith_result (c : BitVec 4) (s : State) : (s.endedWith c).result = s.result := rfl
@[simp] theorem endedWith_latch (c : BitVec 4) (s : State) : (s.endedWith c).latch = s.latch := rfl
@[simp] theorem endedWith_engine (c : BitVec 4) (s : State) : (s.endedWith c).engine = .idle := rfl
@[simp] theorem endedWith_pending (c : BitVec 4) (s : State) : (s.endedWith c).pending = ⟨[], []⟩ := rfl
@[simp] theorem endedWith_resetHeld (c : BitVec 4) (s : State) : (s.endedWith c).resetHeld = s.resetHeld := rfl
@[simp] theorem endedWith_mem (c : BitVec 4) (s : State) : (s.endedWith c).mem = s.mem := rfl
@[simp] theorem endedWith_host (c : BitVec 4) (s : State) : (s.endedWith c).host = s.host := rfl
@[simp] theorem endedWith_seen (c : BitVec 4) (s : State) : (s.endedWith c).seen = s.seen := rfl
@[simp] theorem endedWith_delay (c : BitVec 4) (s : State) : (s.endedWith c).delay = s.delay := rfl
@[simp] theorem endedWith_draws (c : BitVec 4) (s : State) : (s.endedWith c).draws = s.draws := rfl
@[simp] theorem endedWith_memErr (c : BitVec 4) (s : State) : (s.endedWith c).memErr = s.memErr := rfl
@[simp] theorem endedWith_nonOrdinary (c : BitVec 4) (s : State) : (s.endedWith c).nonOrdinary = s.nonOrdinary := rfl
@[simp] theorem endedWith_peers (c : BitVec 4) (s : State) : (s.endedWith c).peers = s.peers := rfl

@[simp] theorem finishBusError_err (f : Footprint) (s : State) : (s.finishBusError f).err = true := by
  simp [State.finishBusError, State.finish]

end Sys2Proof.Machine
end

