-- ==== Sys2Proof/Laws/Memory.lean ====
section
/-! SUPPORT. Memory laws: read over write, the canonical form is kept by every memory operation, and equal reads make equal
memories. -/

namespace Sys2Proof.Machine

@[simp] theorem read_nil (a : Nat) : Memory.read [] a = Config.unwrittenByte := rfl

/-- Below the first address of a rising memory every byte is the unlisted one. -/
theorem read_of_lt_rising {m : Memory} {lo a : Nat} (h : Memory.risingFrom lo m = true) (ha : a < lo) :
    m.read a = Config.unwrittenByte := by
  induction m generalizing lo with
  | nil => rfl
  | cons c m ih =>
    obtain ⟨b, u⟩ := c
    simp only [Memory.risingFrom, Bool.and_eq_true, decide_eq_true_eq] at h
    have hab : a ≠ b := by omega
    simp only [Memory.read, hab, if_false]
    exact ih h.2 (by omega)

/-- A write leaves every other address alone. -/
theorem read_write_other (m : Memory) {a a' : Nat} (v : Byte) (h : a' ≠ a) : (m.write a v).read a' = m.read a' := by
  induction m with
  | nil =>
    by_cases hv : v = Config.unwrittenByte <;> simp [Memory.write, Memory.read, hv, h]
  | cons c m ih =>
    obtain ⟨b, u⟩ := c
    simp only [Memory.write]
    split
    · split <;> simp [Memory.read, h]
    · split
      · rename_i hab
        subst hab
        split <;> simp [Memory.read, h]
      · simp only [Memory.read, ih]

/-- A read after a write to the same address gives the byte written. -/
theorem read_write_same {m : Memory} {lo : Nat} (h : Memory.risingFrom lo m = true) (a : Nat) (v : Byte) :
    (m.write a v).read a = v := by
  induction m generalizing lo with
  | nil =>
    by_cases hv : v = Config.unwrittenByte <;> simp [Memory.write, Memory.read, hv]
  | cons c m ih =>
    obtain ⟨b, u⟩ := c
    simp only [Memory.risingFrom, Bool.and_eq_true, decide_eq_true_eq] at h
    simp only [Memory.write]
    split
    · rename_i hab
      split
      · rename_i hv
        have hne : a ≠ b := by omega
        simp only [Memory.read, hne, if_false]
        rw [hv]
        exact read_of_lt_rising h.2 (by omega)
      · simp [Memory.read]
    · split
      · rename_i hab
        subst hab
        split
        · rename_i hv
          rw [hv]
          exact read_of_lt_rising h.2 (by omega)
        · simp [Memory.read]
      · rename_i hlt hne
        simp only [Memory.read, hne, if_false]
        exact ih h.2

theorem read_write_same_wf {m : Memory} (h : m.wf = true) (a : Nat) (v : Byte) : (m.write a v).read a = v :=
  read_write_same h a v

/-- The byte at any address after a write. -/
theorem read_write {m : Memory} (h : m.wf = true) (a a' : Nat) (v : Byte) :
    (m.write a v).read a' = if a' = a then v else m.read a' := by
  by_cases e : a' = a
  · subst e
    simp [read_write_same_wf h]
  · simp [e, read_write_other m v e]

theorem risingFrom_mono {m : Memory} {lo lo' : Nat} (h : Memory.risingFrom lo m = true) (hl : lo' ≤ lo) :
    Memory.risingFrom lo' m = true := by
  cases m with
  | nil => rfl
  | cons c m =>
    obtain ⟨b, u⟩ := c
    simp only [Memory.risingFrom, Bool.and_eq_true, decide_eq_true_eq] at h ⊢
    exact ⟨⟨⟨by omega, h.1.1.2⟩, h.1.2⟩, h.2⟩

theorem write_risingFrom {m : Memory} {lo : Nat} (h : Memory.risingFrom lo m = true) {a : Nat} (v : Byte) (hlo : lo ≤ a)
    (ha : a < Config.addressLimit) : Memory.risingFrom lo (m.write a v) = true := by
  induction m generalizing lo with
  | nil =>
    by_cases hv : v = Config.unwrittenByte <;> simp [Memory.write, Memory.risingFrom, hv, hlo, ha]
  | cons c m ih =>
    obtain ⟨b, u⟩ := c
    have h' := h
    simp only [Memory.risingFrom, Bool.and_eq_true, decide_eq_true_eq] at h
    simp only [Memory.write]
    split
    · split
      · exact h'
      · rename_i hab hv
        simp only [Memory.risingFrom, Bool.and_eq_true, decide_eq_true_eq]
        exact ⟨⟨⟨hlo, ha⟩, hv⟩, ⟨⟨by omega, h.1.1.2⟩, h.1.2⟩, h.2⟩
    · split
      · rename_i hab
        subst hab
        split
        · exact risingFrom_mono h.2 (by omega)
        · rename_i hv
          simp only [Memory.risingFrom, Bool.and_eq_true, decide_eq_true_eq]
          exact ⟨⟨⟨hlo, ha⟩, hv⟩, h.2⟩
      · rename_i hlt hne
        simp only [Memory.risingFrom, Bool.and_eq_true, decide_eq_true_eq]
        exact ⟨h.1, ih h.2 (by omega)⟩

/-- A write inside the address space keeps the canonical form. -/
theorem write_wf {m : Memory} (h : m.wf = true) {a : Nat} (v : Byte) (ha : a < Config.addressLimit) :
    (m.write a v).wf = true :=
  write_risingFrom h v (Nat.zero_le a) ha

/-- Memories in canonical form that read the same everywhere are the same list. -/
theorem eq_of_reads {m m' : Memory} {lo lo' : Nat} (h : Memory.risingFrom lo m = true) (h' : Memory.risingFrom lo' m' = true)
    (e : ∀ a, m.read a = m'.read a) : m = m' := by
  induction m generalizing m' lo lo' with
  | nil =>
    cases m' with
    | nil => rfl
    | cons c m' =>
      obtain ⟨b, u⟩ := c
      simp only [Memory.risingFrom, Bool.and_eq_true, decide_eq_true_eq] at h'
      have := e b
      simp only [Memory.read, if_true] at this
      exact absurd this.symm h'.1.2
  | cons c m ih =>
    obtain ⟨b, u⟩ := c
    simp only [Memory.risingFrom, Bool.and_eq_true, decide_eq_true_eq] at h
    cases m' with
    | nil =>
      have := e b
      simp only [Memory.read, if_true] at this
      exact absurd this h.1.2
    | cons c' m' =>
      obtain ⟨b', u'⟩ := c'
      simp only [Memory.risingFrom, Bool.and_eq_true, decide_eq_true_eq] at h'
      have hb : b = b' := by
        rcases Nat.lt_trichotomy b b' with hlt | heq | hgt
        · have := e b
          have hne : b ≠ b' := by omega
          simp only [Memory.read, if_true, hne, if_false] at this
          rw [read_of_lt_rising h'.2 (by omega)] at this
          exact absurd this h.1.2
        · exact heq
        · have := e b'
          have hne : b' ≠ b := by omega
          simp only [Memory.read, if_true, hne, if_false] at this
          rw [read_of_lt_rising h.2 (by omega)] at this
          exact absurd this.symm h'.1.2
      subst hb
      have hu : u = u' := by simpa [Memory.read] using e b
      subst hu
      have hm : m = m' := by
        refine ih h.2 h'.2 fun a => ?_
        by_cases hab : a = b
        · subst hab
          rw [read_of_lt_rising h.2 (by omega), read_of_lt_rising h'.2 (by omega)]
        · simpa [Memory.read, hab] using e a
      rw [hm]

theorem wf_ext {m m' : Memory} (h : m.wf = true) (h' : m'.wf = true) (e : ∀ a, m.read a = m'.read a) : m = m' :=
  eq_of_reads h h' e

/-! ### Ranges -/

theorem span_contains_iff (r : Span) (a : Nat) : r.contains a = true ↔ r.base ≤ a ∧ a < r.base + r.len := by
  simp [Span.contains]

theorem inSpans_iff (rs : List Span) (a : Nat) : inSpans rs a = true ↔ ∃ r ∈ rs, r.base ≤ a ∧ a < r.base + r.len := by
  simp [inSpans, span_contains_iff]

theorem overlaps_comm (r q : Span) : r.overlaps q = q.overlaps r := by
  simp only [Span.overlaps]
  ac_rfl

theorem spansMeet_comm (rs qs : List Span) : spansMeet rs qs = spansMeet qs rs := by
  rw [Bool.eq_iff_iff]
  simp only [spansMeet, List.any_eq_true]
  constructor
  · rintro ⟨r, hr, q, hq, h⟩
    exact ⟨q, hq, r, hr, by rw [overlaps_comm]; exact h⟩
  · rintro ⟨q, hq, r, hr, h⟩
    exact ⟨r, hr, q, hq, by rw [overlaps_comm]; exact h⟩

/-- Conflict of footprints is symmetric (60_exceptions.md R243). -/
theorem conflicts_comm (f g : Footprint) : f.conflicts g = g.conflicts f := by
  have h1 := spansMeet_comm f.writes g.writes
  have h2 := spansMeet_comm f.writes g.reads
  have h3 := spansMeet_comm f.reads g.writes
  have split_append : ∀ a b c : List Span, spansMeet a (b ++ c) = (spansMeet a b || spansMeet a c) := by
    intro a b c
    rw [Bool.eq_iff_iff]
    simp only [spansMeet, List.any_eq_true, List.any_append, Bool.or_eq_true]
    constructor
    · rintro ⟨r, hr, h | h⟩
      · exact .inl ⟨r, hr, h⟩
      · exact .inr ⟨r, hr, h⟩
    · rintro (⟨r, hr, h⟩ | ⟨r, hr, h⟩)
      · exact ⟨r, hr, .inl h⟩
      · exact ⟨r, hr, .inr h⟩
  simp only [Footprint.conflicts, split_append, h1, h2, h3]
  cases spansMeet g.reads f.writes <;> cases spansMeet g.writes f.writes <;> cases spansMeet g.writes f.reads <;> rfl

/-! ### Unspecified footprints -/

theorem scrambleFrom_read_outside (draw n : Nat) (a : Nat) (m : Memory) {x : Nat} (h : x < a ∨ a + n ≤ x) :
    (Memory.scrambleFrom draw n a m).read x = m.read x := by
  induction n generalizing a m with
  | zero => rfl
  | succ n ih =>
    rw [Memory.scrambleFrom, ih _ _ (by omega), read_write_other _ _ (by omega)]

theorem scrambleFrom_wf (draw n : Nat) (a : Nat) {m : Memory} (h : m.wf = true) (ha : n = 0 ∨ a + n ≤ Config.addressLimit) :
    (Memory.scrambleFrom draw n a m).wf = true := by
  induction n generalizing a m with
  | zero => exact h
  | succ n ih => exact ih _ (write_wf h _ (by omega)) (by omega)

/-- Scrambling a write footprint leaves every byte outside it alone. -/
theorem scramble_read_outside (draw : Nat) (rs : List Span) (m : Memory) {x : Nat} (h : inSpans rs x = false) :
    (m.scramble draw rs).read x = m.read x := by
  induction rs generalizing m with
  | nil => rfl
  | cons r rs ih =>
    simp only [inSpans, List.any_cons, Bool.or_eq_false_iff] at h
    rw [Memory.scramble, ih _ h.2, scrambleFrom_read_outside]
    have := h.1
    simp [Span.contains] at this
    omega

theorem scramble_wf (draw : Nat) (rs : List Span) {m : Memory} (h : m.wf = true) (hr : ∀ r ∈ rs, r.valid = true) :
    (m.scramble draw rs).wf = true := by
  induction rs generalizing m with
  | nil => exact h
  | cons r rs ih =>
    refine ih (scrambleFrom_wf _ _ _ h ?_) fun q hq => hr q (List.mem_cons_of_mem _ hq)
    have := hr r List.mem_cons_self
    simpa [Span.valid] using this

/-! ### Engine accesses and loops -/

theorem engineRead_eq_some {errs : List (Nat × AccessKind)} {m : Memory} {a : Nat} {v : Byte} :
    engineRead errs m a = some v ↔ (a, AccessKind.read) ∉ errs ∧ v = m.read a := by
  by_cases h : (a, AccessKind.read) ∈ errs <;> simp [engineRead, memOk, h, eq_comm]

theorem engineWrite_eq_some {errs : List (Nat × AccessKind)} {m m' : Memory} {a : Nat} {v : Byte} :
    engineWrite errs m a v = some m' ↔ (a, AccessKind.write) ∉ errs ∧ m' = m.write a v := by
  by_cases h : (a, AccessKind.write) ∈ errs <;> simp [engineWrite, memOk, h, eq_comm]

theorem engineRead_eq_none {errs : List (Nat × AccessKind)} {m : Memory} {a : Nat} :
    engineRead errs m a = none ↔ (a, AccessKind.read) ∈ errs := by
  by_cases h : (a, AccessKind.read) ∈ errs <;> simp [engineRead, memOk, h]

theorem engineWrite_eq_none {errs : List (Nat × AccessKind)} {m : Memory} {a : Nat} {v : Byte} :
    engineWrite errs m a v = none ↔ (a, AccessKind.write) ∈ errs := by
  by_cases h : (a, AccessKind.write) ∈ errs <;> simp [engineWrite, memOk, h]

/-- A computation in two parts ends without an answer when a part does, where that does not depend on the value between them. -/
theorem bind_eq_none {α β : Type} {x : Option α} {f : α → Option β} {p q : Prop} (hx : x = none ↔ p)
    (hf : ∀ a, f a = none ↔ q) : x.bind f = none ↔ p ∨ q := by
  cases x with
  | none => simp [← hx]
  | some a =>
    rw [Option.bind_some, hf a]
    simp [← hx]

@[simp] theorem forEach_nil {α : Type} (f : α → Memory → Option Memory) (m : Memory) : forEach f [] m = some m := rfl

@[simp] theorem forEach_cons {α : Type} (f : α → Memory → Option Memory) (x : α) (xs : List α) (m : Memory) :
    forEach f (x :: xs) m = (f x m).bind (forEach f xs) := by
  simp only [forEach]
  cases f x m <;> rfl

theorem forEach_append {α : Type} (f : α → Memory → Option Memory) (xs ys : List α) (m : Memory) :
    forEach f (xs ++ ys) m = (forEach f xs m).bind (forEach f ys) := by
  induction xs generalizing m with
  | nil => rfl
  | cons x xs ih =>
    simp only [List.cons_append, forEach_cons]
    cases f x m with
    | none => rfl
    | some m' => simpa using ih m'

/-- A loop whose body's answer does not depend on the memory meets a bus error when its body does for some element. -/
theorem forEach_eq_none_iff {α : Type} {f : α → Memory → Option Memory} {P : α → Prop} {xs : List α}
    (hf : ∀ x ∈ xs, ∀ m, f x m = none ↔ P x) (m : Memory) : forEach f xs m = none ↔ ∃ x ∈ xs, P x := by
  induction xs generalizing m with
  | nil => simp
  | cons x xs ih =>
    rw [forEach_cons, bind_eq_none (hf x List.mem_cons_self m) (ih fun y hy => hf y (List.mem_cons_of_mem _ hy))]
    simp

/-- What every pass of the body keeps, the loop keeps. -/
theorem forEach_keeps {α : Type} {f : α → Memory → Option Memory} {P : Memory → Prop} {xs : List α}
    (hf : ∀ x ∈ xs, ∀ m m', P m → f x m = some m' → P m') {m m' : Memory} (hm : P m) (h : forEach f xs m = some m') :
    P m' := by
  induction xs generalizing m with
  | nil =>
    cases h
    exact hm
  | cons x xs ih =>
    rw [forEach_cons] at h
    cases hx : f x m with
    | none =>
      rw [hx] at h
      cases h
    | some m1 =>
      rw [hx] at h
      exact ih (fun y hy => hf y (List.mem_cons_of_mem _ hy)) (hf x List.mem_cons_self _ _ hm hx) h

/-- A loop whose body always answers, answers. -/
theorem forEach_total {α : Type} {f : α → Memory → Option Memory} {xs : List α} (hf : ∀ x ∈ xs, ∀ m, ∃ m', f x m = some m')
    (m : Memory) : ∃ m', forEach f xs m = some m' := by
  induction xs generalizing m with
  | nil => exact ⟨m, rfl⟩
  | cons x xs ih =>
    obtain ⟨m1, h1⟩ := hf x List.mem_cons_self m
    obtain ⟨m2, h2⟩ := ih (fun y hy => hf y (List.mem_cons_of_mem _ hy)) m1
    exact ⟨m2, by rw [forEach_cons, h1]; exact h2⟩

end Sys2Proof.Machine
end

