-- ==== Sys2Proof/Laws/Ops.lean ====
section
/-! SUPPORT. One lemma per shared operation that says what it can do, for the proofs to cite instead of unfolding it. -/

namespace Sys2Proof.Machine

/-! ### Arithmetic helpers as linear facts -/

theorem tdiv_nonneg_eq {a b : Int} (h : 0 ≤ a) : tdiv a b = a / b := by simp [tdiv, h]

theorem tdiv_neg_eq {a b : Int} (h : a < 0) : tdiv a b = -((-a) / b) := by
  have : ¬0 ≤ a := by omega
  simp [tdiv, this]

theorem absInt_cases (x : Int) : (0 ≤ x ∧ absInt x = x) ∨ (x < 0 ∧ absInt x = -x) := by
  unfold absInt
  split
  · exact .inl ⟨by omega, rfl⟩
  · exact .inr ⟨by omega, rfl⟩

/-- The three regions of ramp (41_deblock.md R124), sign by sign. -/
theorem ramp_cases (x s : Int) (hs : 0 ≤ s) :
    (absInt x ≤ s ∧ ramp x s = x) ∨
    (s < absInt x ∧ absInt x < 2 * s ∧ 0 < x ∧ ramp x s = 2 * s - x) ∨
    (s < absInt x ∧ absInt x < 2 * s ∧ x < 0 ∧ ramp x s = -(2 * s) - x) ∨
    (2 * s ≤ absInt x ∧ (x = 0 → s = 0) ∧ ramp x s = 0) := by
  unfold ramp sgn
  rcases absInt_cases x with ⟨hx, e⟩ | ⟨hx, e⟩ <;> rw [e] <;> split <;> try split
  all_goals omega

/-- clip bounds the magnitude and keeps the side of 0 (41_deblock.md R125). -/
theorem clip_cases (x lim : Int) :
    (0 ≤ x ∧ 0 ≤ clip x lim ∧ clip x lim ≤ x ∧ clip x lim ≤ absInt lim) ∨
    (x < 0 ∧ clip x lim ≤ 0 ∧ x ≤ clip x lim ∧ -(absInt lim) ≤ clip x lim) := by
  unfold clip clamp
  rcases absInt_cases lim with ⟨h, e⟩ | ⟨h, e⟩ <;> rw [e] <;> omega

theorem clamp_mem {x lo hi : Int} (h : lo ≤ hi) : lo ≤ clamp x lo hi ∧ clamp x lo hi ≤ hi := by
  unfold clamp
  omega

/-- Narrowing an integer of 0..255 to a byte loses nothing. -/
theorem toByte_toNat {x : Int} (h0 : 0 ≤ x) (h1 : x ≤ 255) : ((toByte x).toNat : Int) = x := by
  unfold toByte
  rw [BitVec.toNat_ofInt]
  omega

/-! ### Validation -/

theorem firstError_eq_ok_iff (cs : List ErrCode) : firstError cs = .ok ↔ ∀ c ∈ cs, c = .ok := by
  induction cs with
  | nil => simp [firstError]
  | cons c cs ih =>
    by_cases h : c = .ok
    · simp [firstError, h, ih]
    · simp [firstError, h]

theorem validate_eq_ok_iff (i : Instr) (L : Latch) :
    validate i L = .ok ↔ checkReserved i = .ok ∧ checkFields i = .ok ∧ checkPosition i L = .ok ∧
      checkRanges (footprintOf i L) = .ok ∧ checkOverlap i (footprintOf i L) = .ok := by
  simp [validate, firstError_eq_ok_iff]

theorem checkReserved_eq (i : Instr) : checkReserved i = if i.reservedClear then .ok else .reservedNonzero := by
  cases i <;> simp [checkReserved, reservedCode, Instr.reservedClear]

theorem checkFields_eq_ok_iff (i : Instr) : checkFields i = .ok ↔ i.fieldsLegal = true := by
  cases i with
  | qlookup resv q =>
    by_cases h : q = 0#5 <;> simp [checkFields, quantOf, codeOf, Instr.fieldsLegal, h]
  | edge resv qm sq =>
    by_cases h : qm = 0#1
    · by_cases h2 : Config.strengthMax < sq.toNat
      · simp [checkFields, strengthOf, codeOf, Instr.fieldsLegal, strengthFieldLegal, h, h2]
      · simp [checkFields, strengthOf, codeOf, Instr.fieldsLegal, strengthFieldLegal, h, h2]
        omega
    · by_cases h2 : sq = 0#5 <;>
        simp [checkFields, strengthOf, codeOf, Instr.fieldsLegal, strengthFieldLegal, h, h2]
  | deblock resv v hp qm sq =>
    by_cases h : qm = 0#1
    · by_cases h2 : Config.strengthMax < sq.toNat
      · simp [checkFields, strengthOf, codeOf, Instr.fieldsLegal, strengthFieldLegal, h, h2]
      · simp [checkFields, strengthOf, codeOf, Instr.fieldsLegal, strengthFieldLegal, h, h2]
        omega
    · by_cases h2 : sq = 0#5 <;>
        simp [checkFields, strengthOf, codeOf, Instr.fieldsLegal, strengthFieldLegal, h, h2]
  | lutrd resv tsel idx =>
    by_cases h : 4 < tsel.toNat
    · simp [checkFields, Instr.fieldsLegal, h]
    · simp [checkFields, Instr.fieldsLegal, h]
      omega
  | nop resv => simp [checkFields, Instr.fieldsLegal]
  | cvt resv => simp [checkFields, Instr.fieldsLegal]
  | ups resv => simp [checkFields, Instr.fieldsLegal]
  | compose resv => simp [checkFields, Instr.fieldsLegal]

theorem checkRanges_eq_ok_iff (f : Footprint) :
    checkRanges f = .ok ↔ ∀ r, r ∈ f.reads ∨ r ∈ f.writes → r.valid = true := by
  unfold checkRanges
  split
  · rename_i h
    simp only [List.all_eq_true, List.mem_append] at h
    simpa using h
  · rename_i h
    simp only [List.all_eq_true, List.mem_append] at h
    simpa using h

theorem valid_iff (r : Span) : r.valid = true ↔ r.len = 0 ∨ r.base + r.len ≤ Config.addressLimit := by
  simp [Span.valid]

/-- Every range of a command that passes validation is valid (20_memory.md R67). -/
theorem valid_of_validate {i : Instr} {L : Latch} (h : validate i L = .ok) :
    ∀ r, r ∈ (footprintOf i L).reads ∨ r ∈ (footprintOf i L).writes → r.valid = true :=
  (checkRanges_eq_ok_iff _).1 ((validate_eq_ok_iff i L).1 h).2.2.2.1

/-! Validation of the commands without a footprint, in one line each. -/

theorem checkRanges_none : checkRanges Footprint.none = .ok := rfl

theorem validate_nop (resv : BitVec 24) (L : Latch) :
    validate (.nop resv) L = if resv = 0 then .ok else .reservedNonzero := by
  by_cases h : resv = 0#24 <;> simp [validate, firstError, checkReserved, reservedCode, checkFields, checkPosition,
    checkOverlap, footprintOf, checkRanges_none, h]

theorem validate_cvt (resv : BitVec 24) (L : Latch) :
    validate (.cvt resv) L = if resv = 0 then .ok else .reservedNonzero := by
  by_cases h : resv = 0#24 <;> simp [validate, firstError, checkReserved, reservedCode, checkFields, checkPosition,
    checkOverlap, footprintOf, checkRanges_none, h]

theorem validate_qlookup (resv : BitVec 19) (q : BitVec 5) (L : Latch) :
    validate (.qlookup resv q) L = if resv = 0 then (if q = 0 then .badQuant else .ok) else .reservedNonzero := by
  by_cases h : resv = 0#19 <;> by_cases h2 : q = 0#5 <;> simp [validate, firstError, checkReserved, reservedCode,
    checkFields, checkPosition, checkOverlap, footprintOf, checkRanges_none, quantOf, codeOf, h, h2]

theorem validate_edge (resv : BitVec 18) (qm : BitVec 1) (sq : BitVec 5) (L : Latch) :
    validate (.edge resv qm sq) L = if resv = 0 then codeOf (strengthOf qm sq) else .reservedNonzero := by
  by_cases h : resv = 0#18
  · by_cases h2 : codeOf (strengthOf qm sq) = .ok <;> simp [validate, firstError, checkReserved, reservedCode,
      checkFields, checkPosition, checkOverlap, footprintOf, checkRanges_none, h, h2]
  · simp [validate, firstError, checkReserved, reservedCode, h]

theorem validate_lutrd (resv : BitVec 13) (tsel : BitVec 3) (idx : BitVec 8) (L : Latch) :
    validate (.lutrd resv tsel idx) L =
      if resv = 0 then (if 4 < tsel.toNat then .badTable else .ok) else .reservedNonzero := by
  by_cases h : resv = 0#13 <;> by_cases h2 : 4 < tsel.toNat <;> simp [validate, firstError, checkReserved, reservedCode,
    checkFields, checkPosition, checkOverlap, footprintOf, checkRanges_none, h, h2]

/-- The strength field is legal exactly when its assembly gives a strength (30_encoding.md R87). -/
theorem codeOf_strengthOf_eq_ok_iff (qm : BitVec 1) (sq : BitVec 5) :
    codeOf (strengthOf qm sq) = .ok ↔ strengthFieldLegal qm sq = true :=
  checkFields_eq_ok_iff (.edge 0 qm sq)

/-- When DEBLOCK passes validation (R103). -/
theorem validate_deblock_eq_ok_iff (v h qm : BitVec 1) (sq : BitVec 5) (L : Latch) :
    validate (.deblock 0 v h qm sq) L = .ok ↔
      strengthFieldLegal qm sq = true ∧ RangeFits L.src0.toNat (L.width * L.height) := by
  rw [validate_eq_ok_iff, checkFields_eq_ok_iff, checkRanges_eq_ok_iff]
  simp [checkReserved, reservedCode, checkPosition, checkOverlap, Instr.fieldsLegal, footprintOf, valid_iff, RangeFits,
    Config.addressLimit]

/-- When UPS passes validation (R103). -/
theorem validate_ups_eq_ok_iff (L : Latch) :
    validate (.ups 0) L = .ok ↔ (L.posX < L.width ∧ L.posY < L.height) ∧
      RangeFits L.src1.toNat (L.chromaWidth * L.chromaHeight) ∧ RangeFits L.src2.toNat (L.chromaWidth * L.chromaHeight) := by
  rw [validate_eq_ok_iff, checkFields_eq_ok_iff, checkRanges_eq_ok_iff]
  simp [checkReserved, reservedCode, checkPosition, checkOverlap, Instr.fieldsLegal, footprintOf, valid_iff, RangeFits,
    Config.addressLimit]

theorem overlaps_iff (r q : Span) : r.overlaps q = false ↔ RangesApart r.base r.len q.base q.len := by
  simp only [Span.overlaps, RangesApart, Bool.and_eq_false_iff, decide_eq_false_iff_not]
  omega

/-- When COMPOSE passes validation (R103). -/
theorem validate_compose_eq_ok_iff (L : Latch) :
    validate (.compose 0) L = .ok ↔
      (RangeFits L.src0.toNat (L.width * L.height) ∧ RangeFits L.src1.toNat (L.chromaWidth * L.chromaHeight) ∧
        RangeFits L.src2.toNat (L.chromaWidth * L.chromaHeight) ∧ RangeFits L.dst.toNat (4 * (L.width * L.height))) ∧
      RangesApart L.dst.toNat (4 * (L.width * L.height)) L.src0.toNat (L.width * L.height) ∧
      RangesApart L.dst.toNat (4 * (L.width * L.height)) L.src1.toNat (L.chromaWidth * L.chromaHeight) ∧
      RangesApart L.dst.toNat (4 * (L.width * L.height)) L.src2.toNat (L.chromaWidth * L.chromaHeight) := by
  rw [validate_eq_ok_iff, checkFields_eq_ok_iff, checkRanges_eq_ok_iff]
  have ov : checkOverlap (.compose 0) (footprintOf (.compose 0) L) = .ok ↔
      RangesApart L.dst.toNat (4 * (L.width * L.height)) L.src0.toNat (L.width * L.height) ∧
      RangesApart L.dst.toNat (4 * (L.width * L.height)) L.src1.toNat (L.chromaWidth * L.chromaHeight) ∧
      RangesApart L.dst.toNat (4 * (L.width * L.height)) L.src2.toNat (L.chromaWidth * L.chromaHeight) := by
    rw [← overlaps_iff ⟨L.dst.toNat, 4 * (L.width * L.height)⟩ ⟨L.src0.toNat, L.width * L.height⟩,
      ← overlaps_iff ⟨L.dst.toNat, 4 * (L.width * L.height)⟩ ⟨L.src1.toNat, L.chromaWidth * L.chromaHeight⟩,
      ← overlaps_iff ⟨L.dst.toNat, 4 * (L.width * L.height)⟩ ⟨L.src2.toNat, L.chromaWidth * L.chromaHeight⟩]
    simp [checkOverlap, footprintOf, spansMeet]
  rw [ov]
  simp [checkReserved, reservedCode, checkPosition, Instr.fieldsLegal, footprintOf, valid_iff, RangeFits,
    Config.addressLimit, or_imp, forall_and, and_assoc]

/-! ### How a command ends -/

/-- The finish of R104 is how claims write it. -/
theorem finish_eq_endedWith (code : ErrCode) (s : State) : s.finish code = s.endedWith (errBits code) := by
  cases code <;> rfl

theorem finishRegister_eq (code : ErrCode) (v : Word) (s : State) :
    s.finishRegister code v =
      if code = .ok then ({ s with result := v } : State).endedWith 0 else s.endedWith (errBits code) := by
  unfold State.finishRegister
  split
  · rfl
  · exact finish_eq_endedWith _ _

/-- What a memory command can do: refuse memory that is not ordinary, end with a validation code, complete, or end with
BUS_ERROR. -/
theorem runMemoryCommand_next {α : Type} {i : Instr} {body : Option α} {done : α → State} {s t : State}
    (h : runMemoryCommand i body done s = .next t) :
    (validate i s.latch ≠ .ok ∧ t = s.endedWith (errBits (validate i s.latch))) ∨
    (validate i s.latch = .ok ∧ s.touchesNonOrdinary (footprintOf i s.latch) = false ∧
      ((∃ x, body = some x ∧ t = done x) ∨ (body = none ∧ t = s.finishBusError (footprintOf i s.latch)))) := by
  unfold runMemoryCommand at h
  split at h
  · rename_i hv
    split at h
    · cases h
    · rename_i ho
      refine .inr ⟨hv, by simpa using ho, ?_⟩
      cases body with
      | none =>
        cases h
        exact .inr ⟨rfl, rfl⟩
      | some x =>
        cases h
        exact .inl ⟨x, rfl, rfl⟩
  · rename_i hv
    cases h
    exact .inl ⟨hv, finish_eq_endedWith _ _⟩

theorem runMemoryCommand_invalid {α : Type} {i : Instr} {body : Option α} {done : α → State} {s : State}
    (h : validate i s.latch ≠ .ok) :
    runMemoryCommand i body done s = .next (s.endedWith (errBits (validate i s.latch))) := by
  simp [runMemoryCommand, h, finish_eq_endedWith]

theorem runMemoryCommand_some {α : Type} {i : Instr} {body : Option α} {x : α} {done : α → State} {s : State}
    (h : validate i s.latch = .ok) (ho : s.touchesNonOrdinary (footprintOf i s.latch) = false) (hb : body = some x) :
    runMemoryCommand i body done s = .next (done x) := by
  simp [runMemoryCommand, h, ho, hb]

theorem runMemoryCommand_none {α : Type} {i : Instr} {body : Option α} {done : α → State} {s : State}
    (h : validate i s.latch = .ok) (ho : s.touchesNonOrdinary (footprintOf i s.latch) = false) (hb : body = none) :
    runMemoryCommand i body done s = .next (s.finishBusError (footprintOf i s.latch)) := by
  simp [runMemoryCommand, h, ho, hb]

/-- A memory that serves a footprint is ordinary there and answers OK to every access of it. -/
theorem memoryServes_iff (f : Footprint) (s : State) :
    s.memoryServes f = true ↔ s.touchesNonOrdinary f = false ∧
      (∀ a, inSpans f.reads a = true → (a, AccessKind.read) ∉ s.memErr) ∧
      (∀ a, inSpans f.writes a = true → (a, AccessKind.write) ∉ s.memErr) := by
  simp only [State.memoryServes, Bool.and_eq_true, Bool.not_eq_true', List.all_eq_true]
  constructor
  · rintro ⟨h1, h2⟩
    refine ⟨h1, fun a ha hm => ?_, fun a ha hm => ?_⟩
    · have := h2 _ hm
      simp [ha] at this
    · have := h2 _ hm
      simp [ha] at this
  · rintro ⟨h1, h2, h3⟩
    refine ⟨h1, fun e he => ?_⟩
    obtain ⟨a, k⟩ := e
    cases k with
    | read =>
      cases hb : inSpans f.reads a with
      | false => simp
      | true => exact absurd he (h2 a hb)
    | write =>
      cases hb : inSpans f.writes a with
      | false => simp
      | true => exact absurd he (h3 a hb)

/-! ### The deblocking passes -/

/-- What four reads and four writes of EdgeFilter do, when no access errs. -/
theorem filterAt_eq_some {errs : List (Nat × AccessKind)} {s pa pb pc pd : Nat} {m m' : Memory}
    (h : filterAt errs s pa pb pc pd m = some m') :
    m' = (((m.write pa (edgeFilter ⟨m.read pa, m.read pb, m.read pc, m.read pd⟩ s).a).write pb
      (edgeFilter ⟨m.read pa, m.read pb, m.read pc, m.read pd⟩ s).b).write pc
      (edgeFilter ⟨m.read pa, m.read pb, m.read pc, m.read pd⟩ s).c).write pd
      (edgeFilter ⟨m.read pa, m.read pb, m.read pc, m.read pd⟩ s).d := by
  simp only [filterAt, Option.bind_eq_bind, Option.bind_eq_some_iff] at h
  obtain ⟨a, ha, b, hb, c, hc, d, hd, m1, h1, m2, h2, m3, h3, h4⟩ := h
  rw [engineRead_eq_some] at ha hb hc hd
  rw [engineWrite_eq_some] at h1 h2 h3 h4
  obtain ⟨-, rfl⟩ := ha
  obtain ⟨-, rfl⟩ := hb
  obtain ⟨-, rfl⟩ := hc
  obtain ⟨-, rfl⟩ := hd
  obtain ⟨-, rfl⟩ := h1
  obtain ⟨-, rfl⟩ := h2
  obtain ⟨-, rfl⟩ := h3
  exact h4.2

/-- EdgeFilter in memory answers when none of its four bytes errs. -/
theorem filterAt_total {errs : List (Nat × AccessKind)} {pa pb pc pd : Nat} (s : Nat) (m : Memory)
    (hr : ∀ p, p = pa ∨ p = pb ∨ p = pc ∨ p = pd → (p, AccessKind.read) ∉ errs ∧ (p, AccessKind.write) ∉ errs) :
    ∃ m', filterAt errs s pa pb pc pd m = some m' := by
  have ha := hr pa (.inl rfl)
  have hb := hr pb (.inr (.inl rfl))
  have hc := hr pc (.inr (.inr (.inl rfl)))
  have hd := hr pd (.inr (.inr (.inr rfl)))
  simp [filterAt, engineRead, engineWrite, memOk, ha, hb, hc, hd]

/-- EdgeFilter in memory meets a bus error when a read or a write of one of its four bytes errs. -/
theorem filterAt_eq_none_iff {errs : List (Nat × AccessKind)} {s pa pb pc pd : Nat} {m : Memory} :
    filterAt errs s pa pb pc pd m = none ↔
      ∃ p, (p = pa ∨ p = pb ∨ p = pc ∨ p = pd) ∧ ((p, AccessKind.read) ∈ errs ∨ (p, AccessKind.write) ∈ errs) := by
  unfold filterAt
  simp only [Option.bind_eq_bind]
  rw [bind_eq_none engineRead_eq_none fun a => bind_eq_none engineRead_eq_none fun b => bind_eq_none engineRead_eq_none fun c =>
    bind_eq_none engineRead_eq_none fun d => bind_eq_none engineWrite_eq_none fun m1 =>
    bind_eq_none engineWrite_eq_none fun m2 => bind_eq_none engineWrite_eq_none fun m3 => engineWrite_eq_none]
  simp only [or_and_right, exists_or, exists_eq_left]
  tauto

theorem filterAt_read_outside {errs : List (Nat × AccessKind)} {s pa pb pc pd : Nat} {m m' : Memory}
    (h : filterAt errs s pa pb pc pd m = some m') {x : Nat} (hx : x ≠ pa ∧ x ≠ pb ∧ x ≠ pc ∧ x ≠ pd) :
    m'.read x = m.read x := by
  rw [filterAt_eq_some h, read_write_other _ _ hx.2.2.2, read_write_other _ _ hx.2.2.1, read_write_other _ _ hx.2.1,
    read_write_other _ _ hx.1]

theorem filterAt_wf {errs : List (Nat × AccessKind)} {s pa pb pc pd : Nat} {m m' : Memory}
    (h : filterAt errs s pa pb pc pd m = some m') (hm : m.wf = true) (ha : pa < Config.addressLimit)
    (hb : pb < Config.addressLimit) (hc : pc < Config.addressLimit) (hd : pd < Config.addressLimit) : m'.wf = true := by
  rw [filterAt_eq_some h]
  exact write_wf (write_wf (write_wf (write_wf hm _ ha) _ hb) _ hc) _ hd

/-- The four bytes after EdgeFilter in memory, at four distinct addresses of a memory in canonical form. -/
theorem filterAt_reads {errs : List (Nat × AccessKind)} {s pa pb pc pd : Nat} {m m' : Memory}
    (h : filterAt errs s pa pb pc pd m = some m') (hm : m.wf = true) (ha : pa < Config.addressLimit)
    (hb : pb < Config.addressLimit) (hc : pc < Config.addressLimit)
    (hne : pa ≠ pb ∧ pa ≠ pc ∧ pa ≠ pd ∧ pb ≠ pc ∧ pb ≠ pd ∧ pc ≠ pd) :
    (⟨m'.read pa, m'.read pb, m'.read pc, m'.read pd⟩ : Samples) =
      edgeFilter ⟨m.read pa, m.read pb, m.read pc, m.read pd⟩ s := by
  obtain ⟨h1, h2, h3, h4, h5, h6⟩ := hne
  rw [filterAt_eq_some h]
  have w1 := write_wf hm (edgeFilter ⟨m.read pa, m.read pb, m.read pc, m.read pd⟩ s).a ha
  have w2 := write_wf w1 (edgeFilter ⟨m.read pa, m.read pb, m.read pc, m.read pd⟩ s).b hb
  have w3 := write_wf w2 (edgeFilter ⟨m.read pa, m.read pb, m.read pc, m.read pd⟩ s).c hc
  rw [read_write w3, read_write w3, read_write w3, read_write w3, read_write w2, read_write w2, read_write w2,
    read_write w1, read_write w1, read_write hm]
  simp [h1, h2, h3, h4, h5, h6]

/-- The edge positions are the multiples of 8 from 8 up to `n - 2` (41_deblock.md R134, R135). -/
theorem mem_edgePositions (n q : Nat) : q ∈ edgePositions n ↔ EdgeAt n q := by
  simp only [edgePositions, List.mem_map, List.mem_range, Config.block]
  constructor
  · rintro ⟨k, hk, rfl⟩
    omega
  · rintro ⟨h1, h2, h3⟩
    exact ⟨q / 8 - 1, by omega, by omega⟩

theorem edgePositions_nodup (n : Nat) : (edgePositions n).Nodup := by
  unfold edgePositions
  refine List.Nodup.map (fun a b h => ?_) List.nodup_range
  simp [Config.block] at h
  exact h

theorem edgePositions_small {n : Nat} (h : n < 10) : edgePositions n = [] := by
  have : (n - 2) / Config.block = 0 := by simp [Config.block]; omega
  simp [edgePositions, this]

/-! ### The outside and the step -/

/-- What issuing a word can do (10_state.md R25). -/
theorem issue_next {w : Word} {s t : State} (h : s.issue w = .next t) :
    (s.engine = .busy ∧ t = { s with ovr := true }) ∨
    (s.engine = .idle ∧ s.peerConflict (latchFootprint (s.capture w)) = false ∧
      t = ({ s with draws := s.draws + 1 } : State).accept w (Config.latency s.draws)) := by
  unfold State.issue at h
  split at h
  · rename_i he
    cases h
    exact .inl ⟨he, rfl⟩
  · rename_i he
    split at h
    · cases h
    · rename_i hp
      cases h
      refine .inr ⟨?_, by simpa using hp, rfl⟩
      cases hs : s.engine with
      | idle => rfl
      | busy => exact absurd hs he

theorem resetDevice_next {s t : State} (h : s.resetDevice = .next t) :
    s.touchesNonOrdinary s.abortedFootprint = false ∧ t = s.afterReset := by
  unfold State.resetDevice at h
  split at h
  · cases h
  · rename_i ho
    cases h
    exact ⟨by simpa using ho, rfl⟩

theorem busy_iff (s : State) : s.busy = true ↔ s.engine = .busy := by simp [State.busy]

/-- Whose turn a step is. -/
theorem step_cases (s : State) :
    (s.engineTurn = true ∧ step s = engineStep s) ∨ (s.engineTurn = false ∧ step s = hostStep s) := by
  cases h : s.engineTurn <;> simp [step, machineStep, h]

/-- The completion step is `exec` of the latched command, or the end with ILLEGAL_OPCODE. -/
theorem engineStep_cases (s : State) :
    (∃ i, decode s.latch.cmd = .ok i ∧ engineStep s = exec i s) ∨
    ((∃ e, decode s.latch.cmd = .error e) ∧ engineStep s = .next (s.endedWith 1)) := by
  unfold engineStep
  cases h : decode s.latch.cmd with
  | ok i => exact .inl ⟨i, rfl, rfl⟩
  | error e => exact .inr ⟨⟨e, rfl⟩, rfl⟩

end Sys2Proof.Machine
end

