-- ==== Sys2Proof/Laws/Deblock.lean ====
section
/-! SUPPORT. What EdgeFilter over a list of disjoint lines of memory does, whatever their order, and the two passes as such lists.
From these follow the passes' values, their frame, and that order within a pass does not matter (41_deblock.md R134 to R136). -/

namespace Sys2Proof.Machine

/-- The four addresses of one line across an edge. -/
structure LineAddr where
  a : Nat
  b : Nat
  c : Nat
  d : Nat
  deriving DecidableEq, Repr

/-- The address is one of the line's. -/
def LineAddr.has (q : LineAddr) (x : Nat) : Prop := x = q.a ∨ x = q.b ∨ x = q.c ∨ x = q.d

/-- The samples a line holds. -/
def LineAddr.samples (q : LineAddr) (m : Memory) : Samples := ⟨m.read q.a, m.read q.b, m.read q.c, m.read q.d⟩

/-- Four distinct addresses inside the address space. -/
structure LineAddr.Good (q : LineAddr) : Prop where
  ab : q.a ≠ q.b
  ac : q.a ≠ q.c
  ad : q.a ≠ q.d
  bc : q.b ≠ q.c
  bd : q.b ≠ q.d
  cd : q.c ≠ q.d
  inside : ∀ x, q.has x → x < Config.addressLimit

/-- EdgeFilter on one line of memory. -/
def LineAddr.filter (errs : List (Nat × AccessKind)) (s : Nat) (q : LineAddr) (m : Memory) : Option Memory :=
  filterAt errs s q.a q.b q.c q.d m

theorem LineAddr.samples_congr (q : LineAddr) {m m' : Memory} (h : ∀ x, q.has x → m'.read x = m.read x) :
    q.samples m' = q.samples m := by
  unfold LineAddr.samples
  rw [h q.a (.inl rfl), h q.b (.inr (.inl rfl)), h q.c (.inr (.inr (.inl rfl))), h q.d (.inr (.inr (.inr rfl)))]

/-- EdgeFilter over a list of pairwise disjoint lines: when no access errs it answers, keeps the canonical form, filters every line
from what the line held before, and leaves every other byte alone. -/
theorem forEach_filter {α : Type} {errs : List (Nat × AccessKind)} {s : Nat} {q : α → LineAddr} {xs : List α} {m : Memory}
    (hw : m.wf = true) (hg : ∀ x ∈ xs, (q x).Good)
    (he : ∀ x ∈ xs, ∀ p, (q x).has p → (p, AccessKind.read) ∉ errs ∧ (p, AccessKind.write) ∉ errs)
    (hd : xs.Pairwise fun x y => ∀ p, (q x).has p → ¬(q y).has p) :
    ∃ m', forEach (fun x => (q x).filter errs s) xs m = some m' ∧ m'.wf = true ∧
      (∀ x ∈ xs, (q x).samples m' = edgeFilter ((q x).samples m) s) ∧
      (∀ p, (∀ x ∈ xs, ¬(q x).has p) → m'.read p = m.read p) := by
  induction xs generalizing m with
  | nil => exact ⟨m, rfl, hw, by simp, by simp⟩
  | cons x xs ih =>
    have g := hg x List.mem_cons_self
    rw [List.pairwise_cons] at hd
    obtain ⟨m1, h1⟩ := filterAt_total (pa := (q x).a) (pb := (q x).b) (pc := (q x).c) (pd := (q x).d) s m
      (fun p hp => he x List.mem_cons_self p hp)
    have w1 : m1.wf = true := filterAt_wf h1 hw (g.inside _ (.inl rfl)) (g.inside _ (.inr (.inl rfl)))
      (g.inside _ (.inr (.inr (.inl rfl)))) (g.inside _ (.inr (.inr (.inr rfl))))
    have s1 : (q x).samples m1 = edgeFilter ((q x).samples m) s :=
      filterAt_reads h1 hw (g.inside _ (.inl rfl)) (g.inside _ (.inr (.inl rfl))) (g.inside _ (.inr (.inr (.inl rfl))))
        ⟨g.ab, g.ac, g.ad, g.bc, g.bd, g.cd⟩
    have o1 : ∀ p, ¬(q x).has p → m1.read p = m.read p := by
      intro p hp
      simp only [LineAddr.has, not_or] at hp
      exact filterAt_read_outside h1 hp
    obtain ⟨m2, h2, w2, s2, o2⟩ := ih w1 (fun y hy => hg y (List.mem_cons_of_mem _ hy))
      (fun y hy => he y (List.mem_cons_of_mem _ hy)) hd.2
    refine ⟨m2, ?_, w2, ?_, ?_⟩
    · rw [forEach_cons]
      show (filterAt errs s (q x).a (q x).b (q x).c (q x).d m).bind _ = _
      rw [h1]
      exact h2
    · intro y hy
      rcases List.mem_cons.1 hy with rfl | hy
      · rw [LineAddr.samples_congr (q y) (m := m1) (m' := m2) (fun p hp => o2 p fun z hz => hd.1 z hz p hp), s1]
      · rw [s2 y hy, LineAddr.samples_congr (q y) (m := m) (m' := m1)
          (fun p hp => o1 p fun hx => hd.1 y hy p hx hp)]
    · intro p hp
      rw [o2 p fun y hy => hp y (List.mem_cons_of_mem _ hy), o1 p (hp x List.mem_cons_self)]

/-- Two nested loops are one loop over the pairs. -/
theorem forEach_nested {α β : Type} (f : α → β → Memory → Option Memory) (ys : List α) (xs : List β) (m : Memory) :
    forEach (fun y => forEach (fun x => f y x) xs) ys m =
      forEach (fun p : α × β => f p.1 p.2) (ys.flatMap fun y => xs.map fun x => (y, x)) m := by
  have inner : ∀ (y : α) (m : Memory),
      forEach (fun p : α × β => f p.1 p.2) (xs.map fun x => (y, x)) m = forEach (fun x => f y x) xs m := by
    intro y
    induction xs with
    | nil =>
      intro m
      rfl
    | cons x xs ih =>
      intro m
      simp only [List.map_cons, forEach_cons]
      congr 1
      funext m'
      exact ih m'
  induction ys generalizing m with
  | nil => rfl
  | cons y ys ih =>
    rw [List.flatMap_cons, forEach_append, inner, forEach_cons]
    congr 1
    funext m'
    exact ih m'

/-! ### Addresses of a plane -/

theorem planeAddr_lt {b w h x y : Nat} (hx : x < w) (hy : y < h) : planeAddr b w x y < b + w * h := by
  have h1 : (y + 1) * w ≤ h * w := Nat.mul_le_mul_right w hy
  have h2 : (y + 1) * w = y * w + w := by ring
  have h3 : h * w = w * h := Nat.mul_comm h w
  unfold planeAddr
  omega

theorem le_planeAddr (b w x y : Nat) : b ≤ planeAddr b w x y := by
  unfold planeAddr
  omega

/-- Distinct samples of a plane lie at distinct addresses. -/
theorem planeAddr_inj {b w x y x' y' : Nat} (hx : x < w) (hx' : x' < w) (h : planeAddr b w x y = planeAddr b w x' y') :
    x = x' ∧ y = y' := by
  unfold planeAddr at h
  have hy : y = y' := by
    rcases Nat.lt_trichotomy y y' with hlt | heq | hgt
    · have h1 : (y + 1) * w ≤ y' * w := Nat.mul_le_mul_right w hlt
      have h2 : (y + 1) * w = y * w + w := by ring
      omega
    · exact heq
    · have h1 : (y' + 1) * w ≤ y * w := Nat.mul_le_mul_right w hgt
      have h2 : (y' + 1) * w = y' * w + w := by ring
      omega
  subst hy
  exact ⟨by omega, rfl⟩

/-- The line across the horizontal edge at row `p.1` in column `p.2`. -/
def columnAddr (b w : Nat) (p : Nat × Nat) : LineAddr :=
  ⟨planeAddr b w p.2 (p.1 - 2), planeAddr b w p.2 (p.1 - 1), planeAddr b w p.2 p.1, planeAddr b w p.2 (p.1 + 1)⟩

/-- The line across the vertical edge at column `p.1` in row `p.2`. -/
def rowAddr (b w : Nat) (p : Nat × Nat) : LineAddr :=
  ⟨planeAddr b w (p.1 - 2) p.2, planeAddr b w (p.1 - 1) p.2, planeAddr b w p.1 p.2, planeAddr b w (p.1 + 1) p.2⟩

/-- The lines of the horizontal pass, in the pass's own order. -/
def columnLines (w h : Nat) : List (Nat × Nat) := (edgePositions h).flatMap fun y => (List.range w).map fun x => (y, x)

/-- The lines of the vertical pass, in the pass's own order. -/
def rowLines (w h : Nat) : List (Nat × Nat) := (edgePositions w).flatMap fun x => (List.range h).map fun y => (x, y)

theorem mem_columnLines (w h : Nat) (p : Nat × Nat) : p ∈ columnLines w h ↔ EdgeAt h p.1 ∧ p.2 < w := by
  obtain ⟨y, x⟩ := p
  simp [columnLines, mem_edgePositions, and_assoc]

theorem mem_rowLines (w h : Nat) (p : Nat × Nat) : p ∈ rowLines w h ↔ EdgeAt w p.1 ∧ p.2 < h := by
  obtain ⟨x, y⟩ := p
  simp [rowLines, mem_edgePositions, and_assoc]

theorem pairs_nodup {α β : Type} {ys : List α} {xs : List β} (hy : ys.Nodup) (hx : xs.Nodup) :
    (ys.flatMap fun y => xs.map fun x => (y, x)).Nodup := by
  rw [List.nodup_flatMap]
  refine ⟨fun y _ => hx.map fun a b h => (Prod.mk.inj h).2, hy.imp fun {a b} hab => ?_⟩
  intro p hp hq
  simp only [List.mem_map] at hp hq
  obtain ⟨_, _, rfl⟩ := hp
  obtain ⟨_, _, h⟩ := hq
  exact hab (Prod.mk.inj h).1.symm

theorem columnLines_nodup (w h : Nat) : (columnLines w h).Nodup := pairs_nodup (edgePositions_nodup h) List.nodup_range

theorem rowLines_nodup (w h : Nat) : (rowLines w h).Nodup := pairs_nodup (edgePositions_nodup w) List.nodup_range

theorem horizontalPass_eq (errs : List (Nat × AccessKind)) (b w h s : Nat) (m : Memory) :
    horizontalPass errs b w h s m = forEach (fun p => (columnAddr b w p).filter errs s) (columnLines w h) m :=
  forEach_nested (fun y x => filterRowEdge errs b w s y x) _ _ m

theorem verticalPass_eq (errs : List (Nat × AccessKind)) (b w h s : Nat) (m : Memory) :
    verticalPass errs b w h s m = forEach (fun p => (rowAddr b w p).filter errs s) (rowLines w h) m :=
  forEach_nested (fun x y => filterColumnEdge errs b w s x y) _ _ m

/-- Every address of a line of the horizontal pass is a sample of the plane. -/
theorem columnAddr_has {b w h : Nat} {p : Nat × Nat} (hp : p ∈ columnLines w h) {a : Nat} (ha : (columnAddr b w p).has a) :
    ∃ y, a = planeAddr b w p.2 y ∧ y < h ∧ p.1 ≤ y + 2 ∧ y ≤ p.1 + 1 := by
  obtain ⟨⟨h1, h2, h3⟩, h4⟩ := (mem_columnLines w h p).1 hp
  rcases ha with rfl | rfl | rfl | rfl
  · exact ⟨_, rfl, by omega, by omega, by omega⟩
  · exact ⟨_, rfl, by omega, by omega, by omega⟩
  · exact ⟨_, rfl, by omega, by omega, by omega⟩
  · exact ⟨_, rfl, by omega, by omega, by omega⟩

/-- Every address of a line of the vertical pass is a sample of the plane. -/
theorem rowAddr_has {b w h : Nat} {p : Nat × Nat} (hp : p ∈ rowLines w h) {a : Nat} (ha : (rowAddr b w p).has a) :
    ∃ x, a = planeAddr b w x p.2 ∧ x < w ∧ p.1 ≤ x + 2 ∧ x ≤ p.1 + 1 := by
  obtain ⟨⟨h1, h2, h3⟩, h4⟩ := (mem_rowLines w h p).1 hp
  rcases ha with rfl | rfl | rfl | rfl
  · exact ⟨_, rfl, by omega, by omega, by omega⟩
  · exact ⟨_, rfl, by omega, by omega, by omega⟩
  · exact ⟨_, rfl, by omega, by omega, by omega⟩
  · exact ⟨_, rfl, by omega, by omega, by omega⟩

theorem columnAddr_good {b w h : Nat} (hb : w * h = 0 ∨ b + w * h ≤ Config.addressLimit) {p : Nat × Nat}
    (hp : p ∈ columnLines w h) : (columnAddr b w p).Good := by
  obtain ⟨⟨h1, h2, h3⟩, h4⟩ := (mem_columnLines w h p).1 hp
  have ne : ∀ y y', y ≠ y' → planeAddr b w p.2 y ≠ planeAddr b w p.2 y' :=
    fun y y' hy e => hy (planeAddr_inj h4 h4 e).2
  refine ⟨ne _ _ (by omega), ne _ _ (by omega), ne _ _ (by omega), ne _ _ (by omega), ne _ _ (by omega),
    ne _ _ (by omega), fun a ha => ?_⟩
  obtain ⟨y, rfl, hy, -, -⟩ := columnAddr_has hp ha
  have := planeAddr_lt (b := b) h4 hy
  have : 0 < w * h := Nat.mul_pos (by omega) (by omega)
  omega

theorem rowAddr_good {b w h : Nat} (hb : w * h = 0 ∨ b + w * h ≤ Config.addressLimit) {p : Nat × Nat}
    (hp : p ∈ rowLines w h) : (rowAddr b w p).Good := by
  obtain ⟨⟨h1, h2, h3⟩, h4⟩ := (mem_rowLines w h p).1 hp
  have ne : ∀ x x', x < w → x' < w → x ≠ x' → planeAddr b w x p.2 ≠ planeAddr b w x' p.2 :=
    fun x x' hx hx' hne e => hne (planeAddr_inj hx hx' e).1
  refine ⟨ne _ _ (by omega) (by omega) (by omega), ne _ _ (by omega) (by omega) (by omega),
    ne _ _ (by omega) (by omega) (by omega), ne _ _ (by omega) (by omega) (by omega),
    ne _ _ (by omega) (by omega) (by omega), ne _ _ (by omega) (by omega) (by omega), fun a ha => ?_⟩
  obtain ⟨x, rfl, hx, -, -⟩ := rowAddr_has hp ha
  have := planeAddr_lt (b := b) hx h4
  have : 0 < w * h := Nat.mul_pos (by omega) (by omega)
  omega

/-- Distinct lines of the horizontal pass share no address. -/
theorem columnAddr_disjoint {b w h : Nat} {p p' : Nat × Nat} (hp : p ∈ columnLines w h) (hp' : p' ∈ columnLines w h)
    (hne : p ≠ p') (a : Nat) (ha : (columnAddr b w p).has a) : ¬(columnAddr b w p').has a := by
  intro ha'
  obtain ⟨⟨h1, h2, h3⟩, h4⟩ := (mem_columnLines w h p).1 hp
  obtain ⟨⟨k1, k2, k3⟩, k4⟩ := (mem_columnLines w h p').1 hp'
  obtain ⟨y, rfl, -, hy1, hy2⟩ := columnAddr_has hp ha
  obtain ⟨y', e, -, hy1', hy2'⟩ := columnAddr_has hp' ha'
  obtain ⟨e1, rfl⟩ := planeAddr_inj h4 k4 e
  exact hne (Prod.ext (by omega) e1)

/-- Distinct lines of the vertical pass share no address. -/
theorem rowAddr_disjoint {b w h : Nat} {p p' : Nat × Nat} (hp : p ∈ rowLines w h) (hp' : p' ∈ rowLines w h)
    (hne : p ≠ p') (a : Nat) (ha : (rowAddr b w p).has a) : ¬(rowAddr b w p').has a := by
  intro ha'
  obtain ⟨⟨h1, h2, h3⟩, h4⟩ := (mem_rowLines w h p).1 hp
  obtain ⟨⟨k1, k2, k3⟩, k4⟩ := (mem_rowLines w h p').1 hp'
  obtain ⟨x, rfl, hx, hx1, hx2⟩ := rowAddr_has hp ha
  obtain ⟨x', e, hx', hx1', hx2'⟩ := rowAddr_has hp' ha'
  obtain ⟨rfl, e1⟩ := planeAddr_inj hx hx' e
  exact hne (Prod.ext (by omega) e1)

/-- A loop of EdgeFilters over lines changes no byte outside them, whatever the memory answers. -/
theorem forEach_filter_outside {α : Type} {errs : List (Nat × AccessKind)} {s : Nat} {q : α → LineAddr} {xs : List α}
    {m m' : Memory} (h : forEach (fun x => (q x).filter errs s) xs m = some m') {a : Nat} (ha : ∀ x ∈ xs, ¬(q x).has a) :
    m'.read a = m.read a := by
  refine forEach_keeps (P := fun k => k.read a = m.read a) ?_ rfl h
  intro x hx k k' hk hf
  have := ha x hx
  simp only [LineAddr.has, not_or] at this
  rw [filterAt_read_outside hf this, hk]

/-- A loop of EdgeFilters over lines inside the address space keeps the canonical form. -/
theorem forEach_filter_wf {α : Type} {errs : List (Nat × AccessKind)} {s : Nat} {q : α → LineAddr} {xs : List α}
    {m m' : Memory} (h : forEach (fun x => (q x).filter errs s) xs m = some m') (hg : ∀ x ∈ xs, (q x).Good)
    (hm : m.wf = true) : m'.wf = true := by
  refine forEach_keeps (P := fun k => k.wf = true) ?_ hm h
  intro x hx k k' hk hf
  have g := hg x hx
  exact filterAt_wf hf hk (g.inside _ (.inl rfl)) (g.inside _ (.inr (.inl rfl))) (g.inside _ (.inr (.inr (.inl rfl))))
    (g.inside _ (.inr (.inr (.inr rfl))))

/-- DEBLOCK's passes change no byte outside the plane. -/
theorem deblockPlane_outside {errs : List (Nat × AccessKind)} {hp vp : BitVec 1} {b w h s : Nat} {m m' : Memory}
    (hd : deblockPlane errs hp vp b w h s m = some m') {a : Nat} (ha : a < b ∨ b + w * h ≤ a) : m'.read a = m.read a := by
  have col : ∀ k k', horizontalPass errs b w h s k = some k' → k'.read a = k.read a := by
    intro k k' hk
    rw [horizontalPass_eq] at hk
    refine forEach_filter_outside hk fun p hp hx => ?_
    obtain ⟨y, rfl, hy, -, -⟩ := columnAddr_has hp hx
    have h4 := ((mem_columnLines w h p).1 hp).2
    have := planeAddr_lt (b := b) h4 hy
    have := le_planeAddr b w p.2 y
    omega
  have row : ∀ k k', verticalPass errs b w h s k = some k' → k'.read a = k.read a := by
    intro k k' hk
    rw [verticalPass_eq] at hk
    refine forEach_filter_outside hk fun p hp hx => ?_
    obtain ⟨x, rfl, hx', -, -⟩ := rowAddr_has hp hx
    have h4 := ((mem_rowLines w h p).1 hp).2
    have := planeAddr_lt (b := b) hx' h4
    have := le_planeAddr b w x p.2
    omega
  simp only [deblockPlane, Option.bind_eq_some_iff] at hd
  obtain ⟨k, h1, h2⟩ := hd
  have e1 : k.read a = m.read a := by
    split at h1
    · exact col _ _ h1
    · cases h1
      rfl
  rw [← e1]
  split at h2
  · exact row _ _ h2
  · cases h2
    rfl

/-- DEBLOCK's passes over a plane inside the address space keep the canonical form. -/
theorem deblockPlane_wf {errs : List (Nat × AccessKind)} {hp vp : BitVec 1} {b w h s : Nat} {m m' : Memory}
    (hd : deblockPlane errs hp vp b w h s m = some m') (hb : w * h = 0 ∨ b + w * h ≤ Config.addressLimit)
    (hm : m.wf = true) : m'.wf = true := by
  simp only [deblockPlane, Option.bind_eq_some_iff] at hd
  obtain ⟨k, h1, h2⟩ := hd
  have w1 : k.wf = true := by
    split at h1
    · rw [horizontalPass_eq] at h1
      exact forEach_filter_wf h1 (fun p hp => columnAddr_good hb hp) hm
    · cases h1
      exact hm
  split at h2
  · rw [verticalPass_eq] at h2
    exact forEach_filter_wf h2 (fun p hp => rowAddr_good hb hp) w1
  · cases h2
    exact w1

/-! ### Bus errors of the passes -/

theorem LineAddr.filter_eq_none_iff {errs : List (Nat × AccessKind)} {s : Nat} (q : LineAddr) (m : Memory) :
    q.filter errs s m = none ↔ ∃ p, q.has p ∧ ((p, AccessKind.read) ∈ errs ∨ (p, AccessKind.write) ∈ errs) :=
  filterAt_eq_none_iff

/-- The addresses of a column line are the four rows around its edge. -/
theorem columnAddr_has_iff {b w : Nat} {p : Nat × Nat} (hp : 8 ≤ p.1) (a : Nat) :
    (columnAddr b w p).has a ↔ ∃ q, p.1 ≤ q + 2 ∧ q ≤ p.1 + 1 ∧ a = b + q * w + p.2 := by
  constructor
  · rintro (h | h | h | h)
    · exact ⟨_, by omega, by omega, h⟩
    · exact ⟨_, by omega, by omega, h⟩
    · exact ⟨_, by omega, by omega, h⟩
    · exact ⟨_, by omega, by omega, h⟩
  · rintro ⟨q, h1, h2, rfl⟩
    have : q = p.1 - 2 ∨ q = p.1 - 1 ∨ q = p.1 ∨ q = p.1 + 1 := by omega
    rcases this with rfl | rfl | rfl | rfl
    · exact .inl rfl
    · exact .inr (.inl rfl)
    · exact .inr (.inr (.inl rfl))
    · exact .inr (.inr (.inr rfl))

/-- The addresses of a row line are the four columns around its edge. -/
theorem rowAddr_has_iff {b w : Nat} {p : Nat × Nat} (hp : 8 ≤ p.1) (a : Nat) :
    (rowAddr b w p).has a ↔ ∃ q, p.1 ≤ q + 2 ∧ q ≤ p.1 + 1 ∧ a = b + p.2 * w + q := by
  constructor
  · rintro (h | h | h | h)
    · exact ⟨_, by omega, by omega, h⟩
    · exact ⟨_, by omega, by omega, h⟩
    · exact ⟨_, by omega, by omega, h⟩
    · exact ⟨_, by omega, by omega, h⟩
  · rintro ⟨q, h1, h2, rfl⟩
    have : q = p.1 - 2 ∨ q = p.1 - 1 ∨ q = p.1 ∨ q = p.1 + 1 := by omega
    rcases this with rfl | rfl | rfl | rfl
    · exact .inl rfl
    · exact .inr (.inl rfl)
    · exact .inr (.inr (.inl rfl))
    · exact .inr (.inr (.inr rfl))

/-- The horizontal pass meets a bus error when some sample of a line it filters errs. -/
theorem horizontalPass_eq_none_iff {errs : List (Nat × AccessKind)} {b w h s : Nat} {m : Memory} :
    horizontalPass errs b w h s m = none ↔ ∃ x y q, x < w ∧ EdgeAt h y ∧ y ≤ q + 2 ∧ q ≤ y + 1 ∧
      ((b + q * w + x, AccessKind.read) ∈ errs ∨ (b + q * w + x, AccessKind.write) ∈ errs) := by
  rw [horizontalPass_eq, forEach_eq_none_iff fun p _ m => LineAddr.filter_eq_none_iff (columnAddr b w p) m]
  constructor
  · rintro ⟨p, hp, a, ha, he⟩
    obtain ⟨hy, hx⟩ := (mem_columnLines w h p).1 hp
    obtain ⟨q, h1, h2, rfl⟩ := (columnAddr_has_iff hy.2.1 a).1 ha
    exact ⟨p.2, p.1, q, hx, hy, h1, h2, he⟩
  · rintro ⟨x, y, q, hx, hy, h1, h2, he⟩
    exact ⟨(y, x), (mem_columnLines w h _).2 ⟨hy, hx⟩, _, (columnAddr_has_iff hy.2.1 _).2 ⟨q, h1, h2, rfl⟩, he⟩

/-- The vertical pass meets a bus error when some sample of a line it filters errs. -/
theorem verticalPass_eq_none_iff {errs : List (Nat × AccessKind)} {b w h s : Nat} {m : Memory} :
    verticalPass errs b w h s m = none ↔ ∃ x y q, EdgeAt w x ∧ y < h ∧ x ≤ q + 2 ∧ q ≤ x + 1 ∧
      ((b + y * w + q, AccessKind.read) ∈ errs ∨ (b + y * w + q, AccessKind.write) ∈ errs) := by
  rw [verticalPass_eq, forEach_eq_none_iff fun p _ m => LineAddr.filter_eq_none_iff (rowAddr b w p) m]
  constructor
  · rintro ⟨p, hp, a, ha, he⟩
    obtain ⟨hx, hy⟩ := (mem_rowLines w h p).1 hp
    obtain ⟨q, h1, h2, rfl⟩ := (rowAddr_has_iff hx.2.1 a).1 ha
    exact ⟨p.1, p.2, q, hx, hy, h1, h2, he⟩
  · rintro ⟨x, y, q, hx, hy, h1, h2, he⟩
    exact ⟨(x, y), (mem_rowLines w h _).2 ⟨hx, hy⟩, _, (rowAddr_has_iff hx.2.1 _).2 ⟨q, h1, h2, rfl⟩, he⟩

/-- DEBLOCK's passes meet a bus error exactly when an access of an enabled pass errs (log entry 24). -/
theorem deblockPlane_eq_none_iff {errs : List (Nat × AccessKind)} {hp vp : BitVec 1} {b w h s : Nat} {m : Memory} :
    deblockPlane errs hp vp b w h s m = none ↔ deblockErrs errs hp vp b w h := by
  refine bind_eq_none ?_ fun m => ?_
  · split
    · rename_i hh
      simp only [hh, horizontalPass_eq_none_iff]
      exact (and_iff_right rfl).symm
    · rename_i hh
      exact ⟨fun h => (nomatch h), fun h => absurd h.1 hh⟩
  · split
    · rename_i hh
      simp only [hh, verticalPass_eq_none_iff]
      exact (and_iff_right rfl).symm
    · rename_i hh
      exact ⟨fun h => (nomatch h), fun h => absurd h.1 hh⟩

end Sys2Proof.Machine
end

