-- ==== Sys2Proof/Laws/Chroma.lean ====
section
/-! SUPPORT. The upsampler's reads and the compositor's loop: what a pixel reads, what it writes, and what a whole frame leaves. -/

namespace Sys2Proof.Machine

theorem chromaWidth_pos {L : Latch} (h : 0 < L.width) : 0 < L.chromaWidth := by
  unfold Latch.chromaWidth
  omega

theorem chromaHeight_pos {L : Latch} (h : 0 < L.height) : 0 < L.chromaHeight := by
  unfold Latch.chromaHeight
  omega

theorem clampIndex_lt {i : Int} {n : Nat} (h : 0 < n) : clampIndex i n < n := by
  unfold clampIndex clamp
  omega

/-- Both indices lie in the chroma dimension (43_upsample_compose.md R191). -/
theorem nearFar_lt {p n : Nat} (h : 0 < n) : (nearFar p n).1 < n ∧ (nearFar p n).2 < n :=
  ⟨clampIndex_lt h, clampIndex_lt h⟩

/-- A weighted mean of bytes is a byte: the 8-bit result of R192 is the exact quotient. -/
theorem upsampleValue_toNat (nn fn nf ff : Byte) :
    (upsampleValue nn fn nf ff).toNat = (9 * nn.toNat + 3 * fn.toNat + 3 * nf.toNat + ff.toNat + 8) / 16 := by
  have h1 := nn.isLt
  have h2 := fn.isLt
  have h3 := nf.isLt
  have h4 := ff.isLt
  rw [upsampleValue, BitVec.toNat_ofNat]
  omega

theorem upsampledAt_lt (m : Memory) (base cw ch x y : Nat) : upsampledAt m base cw ch x y < 256 := by
  have h1 := (m.read (base + (nearFar y ch).1 * cw + (nearFar x cw).1)).isLt
  have h2 := (m.read (base + (nearFar y ch).1 * cw + (nearFar x cw).2)).isLt
  have h3 := (m.read (base + (nearFar y ch).2 * cw + (nearFar x cw).1)).isLt
  have h4 := (m.read (base + (nearFar y ch).2 * cw + (nearFar x cw).2)).isLt
  simp only [upsampledAt]
  omega

/-- What the upsampler returns when no read errs. -/
theorem upsampleAt_eq_some {errs : List (Nat × AccessKind)} {m : Memory} {base cw ch x y : Nat} {v : Byte}
    (h : upsampleAt errs m base cw ch x y = some v) : v = BitVec.ofNat 8 (upsampledAt m base cw ch x y) := by
  simp only [upsampleAt, Option.bind_eq_bind, Option.bind_eq_some_iff, engineRead_eq_some] at h
  obtain ⟨nn, ⟨-, rfl⟩, fn, ⟨-, rfl⟩, nf, ⟨-, rfl⟩, ff, ⟨-, rfl⟩, hv⟩ := h
  cases hv
  rfl

/-- The upsampler answers when the chroma plane answers every read. -/
theorem upsampleAt_total {errs : List (Nat × AccessKind)} {base cw ch : Nat} (m : Memory) (x y : Nat) (hw : 0 < cw)
    (hh : 0 < ch) (hr : ∀ a, base ≤ a → a < base + cw * ch → (a, AccessKind.read) ∉ errs) :
    upsampleAt errs m base cw ch x y = some (BitVec.ofNat 8 (upsampledAt m base cw ch x y)) := by
  have ok : ∀ i j, i < cw → j < ch → (base + j * cw + i, AccessKind.read) ∉ errs :=
    fun i j hi hj => hr _ (le_planeAddr _ _ _ _) (planeAddr_lt hi hj)
  have hx := nearFar_lt (p := x) hw
  have hy := nearFar_lt (p := y) hh
  simp [upsampleAt, engineRead, memOk, ok _ _ hx.1 hy.1, ok _ _ hx.2 hy.1, ok _ _ hx.1 hy.2, ok _ _ hx.2 hy.2,
    upsampleValue, upsampledAt, planeAddr]

/-- The upsampled value depends only on the chroma plane. -/
theorem upsampledAt_congr {m m' : Memory} {base cw ch : Nat} (x y : Nat) (hw : 0 < cw) (hh : 0 < ch)
    (h : ∀ a, base ≤ a → a < base + cw * ch → m'.read a = m.read a) :
    upsampledAt m' base cw ch x y = upsampledAt m base cw ch x y := by
  have ok : ∀ i j, i < cw → j < ch → m'.read (base + j * cw + i) = m.read (base + j * cw + i) :=
    fun i j hi hj => h _ (le_planeAddr _ _ _ _) (planeAddr_lt hi hj)
  have hx := nearFar_lt (p := x) hw
  have hy := nearFar_lt (p := y) hh
  simp only [upsampledAt, ok _ _ hx.1 hy.1, ok _ _ hx.2 hy.1, ok _ _ hx.1 hy.2, ok _ _ hx.2 hy.2]

/-- The pixel that the frame in memory gives at `(x, y)` (43_upsample_compose.md R195). -/
def pixelOf (L : Latch) (m : Memory) (x y : Nat) : Rgb :=
  convert (m.read (planeAddr L.src0.toNat L.width x y))
    (BitVec.ofNat 8 (upsampledAt m L.src1.toNat L.chromaWidth L.chromaHeight x y))
    (BitVec.ofNat 8 (upsampledAt m L.src2.toNat L.chromaWidth L.chromaHeight x y))

theorem pixelRgb_eq_some {errs : List (Nat × AccessKind)} {L : Latch} {m : Memory} {x y : Nat} {p : Rgb}
    (h : pixelRgb errs L m x y = some p) : p = pixelOf L m x y := by
  simp only [pixelRgb, Option.bind_eq_bind, Option.bind_eq_some_iff, engineRead_eq_some] at h
  obtain ⟨l, ⟨-, rfl⟩, cb, hcb, cr, hcr, hp⟩ := h
  cases hp
  rw [upsampleAt_eq_some hcb, upsampleAt_eq_some hcr]
  rfl

/-- The source planes of a frame. -/
def Latch.inSources (L : Latch) (a : Nat) : Prop :=
  (L.src0.toNat ≤ a ∧ a < L.src0.toNat + L.width * L.height) ∨
  (L.src1.toNat ≤ a ∧ a < L.src1.toNat + L.chromaWidth * L.chromaHeight) ∨
  (L.src2.toNat ≤ a ∧ a < L.src2.toNat + L.chromaWidth * L.chromaHeight)

/-- The RGBA buffer of a frame. -/
def Latch.inOutput (L : Latch) (a : Nat) : Prop := L.dst.toNat ≤ a ∧ a < L.dst.toNat + 4 * (L.width * L.height)

/-- A pixel of a frame depends only on the source planes. -/
theorem pixelOf_congr {L : Latch} {m m' : Memory} {x y : Nat} (hx : x < L.width) (hy : y < L.height)
    (h : ∀ a, L.inSources a → m'.read a = m.read a) : pixelOf L m' x y = pixelOf L m x y := by
  have hw := chromaWidth_pos (L := L) (by omega)
  have hh := chromaHeight_pos (L := L) (by omega)
  unfold pixelOf
  rw [h _ (.inl ⟨le_planeAddr _ _ _ _, planeAddr_lt hx hy⟩),
    upsampledAt_congr x y hw hh fun a h1 h2 => h a (.inr (.inl ⟨h1, h2⟩)),
    upsampledAt_congr x y hw hh fun a h1 h2 => h a (.inr (.inr ⟨h1, h2⟩))]

theorem pixelRgb_total {errs : List (Nat × AccessKind)} {L : Latch} (m : Memory) {x y : Nat} (hx : x < L.width)
    (hy : y < L.height) (hr : ∀ a, L.inSources a → (a, AccessKind.read) ∉ errs) :
    pixelRgb errs L m x y = some (pixelOf L m x y) := by
  have hw := chromaWidth_pos (L := L) (by omega)
  have hh := chromaHeight_pos (L := L) (by omega)
  have h0 := hr _ (.inl ⟨le_planeAddr _ _ _ _, planeAddr_lt hx hy⟩)
  simp [pixelRgb, engineRead, memOk, h0,
    upsampleAt_total m x y hw hh fun a h1 h2 => hr a (.inr (.inl ⟨h1, h2⟩)),
    upsampleAt_total m x y hw hh fun a h1 h2 => hr a (.inr (.inr ⟨h1, h2⟩)), pixelOf]

/-- The memory after one pixel is written. -/
def storePixel (L : Latch) (x y : Nat) (p : Rgb) (m : Memory) : Memory :=
  (((m.write (rgbaAddr L x y 0) p.r).write (rgbaAddr L x y 1) p.g).write (rgbaAddr L x y 2) p.b).write
    (rgbaAddr L x y 3) 255

/-- What composing one pixel does when no access errs. -/
theorem composePixel_eq_some {errs : List (Nat × AccessKind)} {L : Latch} {y x : Nat} {m m' : Memory}
    (h : composePixel errs L y x m = some m') : m' = storePixel L x y (pixelOf L m x y) m := by
  simp only [composePixel, writePixel, Option.bind_eq_bind, Option.bind_eq_some_iff, engineWrite_eq_some] at h
  obtain ⟨p, hp, m1, ⟨-, rfl⟩, m2, ⟨-, rfl⟩, m3, ⟨-, rfl⟩, -, rfl⟩ := h
  rw [pixelRgb_eq_some hp]
  rfl

theorem rgbaAddr_inOutput {L : Latch} {x y k : Nat} (hx : x < L.width) (hy : y < L.height) (hk : k < 4) :
    L.inOutput (rgbaAddr L x y k) := by
  have := planeAddr_lt (b := 0) hx hy
  unfold planeAddr at this
  unfold rgbaAddr Latch.inOutput
  omega

theorem composePixel_total {errs : List (Nat × AccessKind)} {L : Latch} (m : Memory) {x y : Nat} (hx : x < L.width)
    (hy : y < L.height) (hr : ∀ a, L.inSources a → (a, AccessKind.read) ∉ errs)
    (hw : ∀ a, L.inOutput a → (a, AccessKind.write) ∉ errs) :
    composePixel errs L y x m = some (storePixel L x y (pixelOf L m x y) m) := by
  have k0 := hw _ (rgbaAddr_inOutput (k := 0) hx hy (by decide))
  have k1 := hw _ (rgbaAddr_inOutput (k := 1) hx hy (by decide))
  have k2 := hw _ (rgbaAddr_inOutput (k := 2) hx hy (by decide))
  have k3 := hw _ (rgbaAddr_inOutput (k := 3) hx hy (by decide))
  simp [composePixel, pixelRgb_total m hx hy hr, writePixel, engineWrite, memOk, k0, k1, k2, k3, storePixel]

theorem storePixel_read_outside (L : Latch) (x y : Nat) (p : Rgb) (m : Memory) {a : Nat}
    (h : ∀ k, k < 4 → a ≠ rgbaAddr L x y k) : (storePixel L x y p m).read a = m.read a := by
  unfold storePixel
  rw [read_write_other _ _ (h 3 (by decide)), read_write_other _ _ (h 2 (by decide)), read_write_other _ _ (h 1 (by decide)),
    read_write_other _ _ (h 0 (by decide))]

/-- What the four bytes of a pixel hold. -/
def pixelHolds (L : Latch) (x y : Nat) (p : Rgb) (m : Memory) : Prop :=
  m.read (rgbaAddr L x y 0) = p.r ∧ m.read (rgbaAddr L x y 1) = p.g ∧ m.read (rgbaAddr L x y 2) = p.b ∧
    m.read (rgbaAddr L x y 3) = 255#8

theorem storePixel_wf {L : Latch} {x y : Nat} {p : Rgb} {m : Memory} (hm : m.wf = true) (hx : x < L.width)
    (hy : y < L.height) (hd : L.dst.toNat + 4 * (L.width * L.height) ≤ Config.addressLimit) :
    (storePixel L x y p m).wf = true := by
  have ok : ∀ k, k < 4 → rgbaAddr L x y k < Config.addressLimit := fun k hk => by
    have := (rgbaAddr_inOutput hx hy hk).2
    omega
  exact write_wf (write_wf (write_wf (write_wf hm _ (ok 0 (by decide))) _ (ok 1 (by decide))) _ (ok 2 (by decide))) _
    (ok 3 (by decide))

theorem storePixel_holds {L : Latch} {x y : Nat} (p : Rgb) {m : Memory} (hm : m.wf = true) (hx : x < L.width)
    (hy : y < L.height) (hd : L.dst.toNat + 4 * (L.width * L.height) ≤ Config.addressLimit) :
    pixelHolds L x y p (storePixel L x y p m) := by
  have ok : ∀ k, k < 4 → rgbaAddr L x y k < Config.addressLimit := fun k hk => by
    have := (rgbaAddr_inOutput hx hy hk).2
    omega
  have w1 := write_wf hm p.r (ok 0 (by decide))
  have w2 := write_wf w1 p.g (ok 1 (by decide))
  have w3 := write_wf w2 p.b (ok 2 (by decide))
  unfold pixelHolds storePixel
  simp only [read_write w3, read_write w2, read_write w1, read_write hm]
  refine ⟨?_, ?_, ?_, ?_⟩ <;> simp [rgbaAddr]

/-- Distinct pixels write distinct bytes. -/
theorem rgbaAddr_inj {L : Latch} {x y x' y' k k' : Nat} (hx : x < L.width) (hx' : x' < L.width) (hk : k < 4) (hk' : k' < 4)
    (h : rgbaAddr L x y k = rgbaAddr L x' y' k') : x = x' ∧ y = y' := by
  unfold rgbaAddr at h
  refine planeAddr_inj (b := 0) hx hx' ?_
  unfold planeAddr
  omega

/-- The pixels of a frame, in the loop's own order, row before column. -/
def framePixels (L : Latch) : List (Nat × Nat) := (List.range L.height).flatMap fun y => (List.range L.width).map fun x => (y, x)

theorem mem_framePixels (L : Latch) (p : Nat × Nat) : p ∈ framePixels L ↔ p.2 < L.width ∧ p.1 < L.height := by
  obtain ⟨y, x⟩ := p
  simp [framePixels, and_comm]

theorem framePixels_nodup (L : Latch) : (framePixels L).Nodup := pairs_nodup List.nodup_range List.nodup_range

theorem composeFrame_eq (errs : List (Nat × AccessKind)) (L : Latch) (m : Memory) :
    composeFrame errs L m = forEach (fun p => composePixel errs L p.1 p.2) (framePixels L) m :=
  forEach_nested (fun y x => composePixel errs L y x) _ _ m

/-- A frame whose output meets no source and whose accesses all answer OK: every listed pixel holds the conversion of the sources
as they stood, and no other byte changes. -/
theorem forEach_composePixel {errs : List (Nat × AccessKind)} {L : Latch} {ps : List (Nat × Nat)} {m : Memory}
    (hm : m.wf = true) (hps : ∀ p ∈ ps, p.2 < L.width ∧ p.1 < L.height) (hnd : ps.Nodup)
    (hd : L.width * L.height = 0 ∨ L.dst.toNat + 4 * (L.width * L.height) ≤ Config.addressLimit)
    (hap : ∀ a, L.inSources a → ¬L.inOutput a)
    (hr : ∀ a, L.inSources a → (a, AccessKind.read) ∉ errs) (hw : ∀ a, L.inOutput a → (a, AccessKind.write) ∉ errs) :
    ∃ m', forEach (fun p => composePixel errs L p.1 p.2) ps m = some m' ∧ m'.wf = true ∧
      (∀ p ∈ ps, pixelHolds L p.2 p.1 (pixelOf L m p.2 p.1) m') ∧
      (∀ a, (∀ p ∈ ps, ∀ k, k < 4 → a ≠ rgbaAddr L p.2 p.1 k) → m'.read a = m.read a) := by
  induction ps generalizing m with
  | nil => exact ⟨m, rfl, hm, by simp, by simp⟩
  | cons p ps ih =>
    obtain ⟨hx, hy⟩ := hps p List.mem_cons_self
    have hd' : L.dst.toNat + 4 * (L.width * L.height) ≤ Config.addressLimit := by
      have : 0 < L.width * L.height := Nat.mul_pos (by omega) (by omega)
      omega
    rw [List.nodup_cons] at hnd
    have w1 := storePixel_wf (p := pixelOf L m p.2 p.1) hm hx hy hd'
    obtain ⟨m', h', w', p', o'⟩ := ih w1 (fun q hq => hps q (List.mem_cons_of_mem _ hq)) hnd.2
    have same : ∀ a, L.inSources a → (storePixel L p.2 p.1 (pixelOf L m p.2 p.1) m).read a = m.read a := by
      intro a ha
      refine storePixel_read_outside _ _ _ _ _ fun k hk e => hap a ha ?_
      rw [e]
      exact rgbaAddr_inOutput hx hy hk
    refine ⟨m', ?_, w', ?_, ?_⟩
    · rw [forEach_cons, composePixel_total m hx hy hr hw]
      exact h'
    · intro q hq
      rcases List.mem_cons.1 hq with rfl | hq
      · have keep : ∀ k, k < 4 → m'.read (rgbaAddr L q.2 q.1 k) =
            (storePixel L q.2 q.1 (pixelOf L m q.2 q.1) m).read (rgbaAddr L q.2 q.1 k) := by
          intro k hk
          refine o' _ fun z hz k' hk' e => hnd.1 ?_
          obtain ⟨e1, e2⟩ := rgbaAddr_inj hx (hps z (List.mem_cons_of_mem _ hz)).1 hk hk' e
          rwa [Prod.ext e2 e1]
        have := storePixel_holds (pixelOf L m q.2 q.1) hm hx hy hd'
        unfold pixelHolds at this ⊢
        rw [keep 0 (by decide), keep 1 (by decide), keep 2 (by decide), keep 3 (by decide)]
        exact this
      · have hq2 := hps q (List.mem_cons_of_mem _ hq)
        have := p' q hq
        rwa [pixelOf_congr hq2.1 hq2.2 same] at this
    · intro a ha
      rw [o' a fun q hq => ha q (List.mem_cons_of_mem _ hq)]
      exact storePixel_read_outside _ _ _ _ _ (ha p List.mem_cons_self)

/-- COMPOSE changes no byte outside the RGBA buffer, whatever the memory answers. -/
theorem composeFrame_outside {errs : List (Nat × AccessKind)} {L : Latch} {m m' : Memory}
    (h : composeFrame errs L m = some m') {a : Nat} (ha : ¬L.inOutput a) : m'.read a = m.read a := by
  rw [composeFrame_eq] at h
  refine forEach_keeps (P := fun k => k.read a = m.read a) ?_ rfl h
  intro p hp k k' hk hf
  obtain ⟨hx, hy⟩ := (mem_framePixels L p).1 hp
  have apart : ∀ j, j < 4 → a ≠ rgbaAddr L p.2 p.1 j := by
    rintro j hj rfl
    exact ha (rgbaAddr_inOutput hx hy hj)
  rw [composePixel_eq_some hf, storePixel_read_outside _ _ _ _ _ apart, hk]

/-- COMPOSE into a buffer inside the address space keeps the canonical form. -/
theorem composeFrame_wf {errs : List (Nat × AccessKind)} {L : Latch} {m m' : Memory} (h : composeFrame errs L m = some m')
    (hd : L.width * L.height = 0 ∨ L.dst.toNat + 4 * (L.width * L.height) ≤ Config.addressLimit) (hm : m.wf = true) :
    m'.wf = true := by
  rw [composeFrame_eq] at h
  refine forEach_keeps (P := fun k => k.wf = true) ?_ hm h
  intro p hp k k' hk hf
  obtain ⟨hx, hy⟩ := (mem_framePixels L p).1 hp
  rw [composePixel_eq_some hf]
  refine storePixel_wf hk hx hy ?_
  have : 0 < L.width * L.height := Nat.mul_pos (by omega) (by omega)
  omega

/-! ### Bus errors of UPS and COMPOSE -/

theorem upsampleAt_eq_none_iff {errs : List (Nat × AccessKind)} {m : Memory} {base cw ch x y : Nat} :
    upsampleAt errs m base cw ch x y = none ↔ upsampleErrs errs base cw ch x y := by
  unfold upsampleAt upsampleErrs
  simp only [Option.bind_eq_bind]
  rw [bind_eq_none engineRead_eq_none fun nn => bind_eq_none engineRead_eq_none fun fn =>
    bind_eq_none engineRead_eq_none fun nf => bind_eq_none engineRead_eq_none fun ff => (by simp : _ ↔ False)]
  constructor
  · rintro (h | h | h | h | h)
    exacts [⟨_, _, .inl rfl, .inl rfl, h⟩, ⟨_, _, .inr rfl, .inl rfl, h⟩, ⟨_, _, .inl rfl, .inr rfl, h⟩,
      ⟨_, _, .inr rfl, .inr rfl, h⟩, h.elim]
  · rintro ⟨i, j, rfl | rfl, rfl | rfl, h⟩
    exacts [.inl h, .inr (.inr (.inl h)), .inr (.inl h), .inr (.inr (.inr (.inl h)))]

theorem upsampledWord_eq_none_iff {errs : List (Nat × AccessKind)} {m : Memory} {L : Latch} :
    upsampledWord errs m L = none ↔
      upsampleErrs errs L.src1.toNat L.chromaWidth L.chromaHeight L.posX L.posY ∨
      upsampleErrs errs L.src2.toNat L.chromaWidth L.chromaHeight L.posX L.posY := by
  unfold upsampledWord
  simp only [Option.bind_eq_bind]
  rw [bind_eq_none upsampleAt_eq_none_iff fun cb => bind_eq_none upsampleAt_eq_none_iff fun cr => (by simp : _ ↔ False), or_false]

theorem composePixel_eq_none_iff {errs : List (Nat × AccessKind)} {L : Latch} {y x : Nat} {m : Memory} :
    composePixel errs L y x m = none ↔ pixelErrs errs L x y := by
  unfold composePixel pixelRgb writePixel pixelErrs
  simp only [Option.bind_eq_bind]
  rw [bind_eq_none
    (bind_eq_none engineRead_eq_none fun l => bind_eq_none upsampleAt_eq_none_iff fun cb =>
      bind_eq_none upsampleAt_eq_none_iff fun cr => (by simp : _ ↔ False))
    fun p => bind_eq_none engineWrite_eq_none fun m1 => bind_eq_none engineWrite_eq_none fun m2 =>
      bind_eq_none engineWrite_eq_none fun m3 => engineWrite_eq_none]
  have four : ∀ P : Nat → Prop, (∃ k, k < 4 ∧ P k) ↔ P 0 ∨ P 1 ∨ P 2 ∨ P 3 := by
    intro P
    constructor
    · rintro ⟨k, hk, h⟩
      have : k = 0 ∨ k = 1 ∨ k = 2 ∨ k = 3 := by omega
      rcases this with rfl | rfl | rfl | rfl <;> simp [h]
    · rintro (h | h | h | h)
      exacts [⟨0, by decide, h⟩, ⟨1, by decide, h⟩, ⟨2, by decide, h⟩, ⟨3, by decide, h⟩]
  rw [four]
  simp only [planeAddr, rgbaAddr]
  tauto

/-- COMPOSE meets a bus error exactly when an access to some pixel of the frame errs. -/
theorem composeFrame_eq_none_iff {errs : List (Nat × AccessKind)} {L : Latch} {m : Memory} :
    composeFrame errs L m = none ↔ ∃ x y, x < L.width ∧ y < L.height ∧ pixelErrs errs L x y := by
  rw [composeFrame_eq, forEach_eq_none_iff fun p _ m => composePixel_eq_none_iff (y := p.1) (x := p.2)]
  constructor
  · rintro ⟨p, hp, he⟩
    obtain ⟨hx, hy⟩ := (mem_framePixels L p).1 hp
    exact ⟨p.2, p.1, hx, hy, he⟩
  · rintro ⟨x, y, hx, hy, he⟩
    exact ⟨(y, x), (mem_framePixels L _).2 ⟨hx, hy⟩, he⟩

end Sys2Proof.Machine
end

