-- ==== Sys2Proof/Laws/Exec.lean ====
section
/-! SUPPORT. What a command can do, said once: end with a validation code, complete with a new RESULT, complete with a new memory,
or end with BUS_ERROR. -/

namespace Sys2Proof.Machine

/-- The command may write RESULT (40_command_control.md R104). -/
def writesResult : Instr → Bool
  | .nop _ => false
  | .qlookup _ _ => true
  | .edge _ _ _ => true
  | .deblock _ _ _ _ _ => false
  | .lutrd _ _ _ => true
  | .cvt _ => true
  | .ups _ => true
  | .compose _ => false

/-- What a command that answers a next state did. -/
inductive Ended (i : Instr) (s t : State) : Prop where
  /-- It failed validation (40_command_control.md R103). -/
  | invalid (hv : validate i s.latch ≠ .ok) (ht : t = s.endedWith (errBits (validate i s.latch)))
  /-- It completed and wrote neither RESULT nor memory. -/
  | plain (hv : validate i s.latch = .ok) (ht : t = s.endedWith 0)
  /-- It completed with a result. -/
  | result (hv : validate i s.latch = .ok) (hi : writesResult i = true) (v : Word)
      (ht : t = ({ s with result := v } : State).endedWith 0)
  /-- It completed with a new memory, equal to the old one outside the write footprint. -/
  | memory (hv : validate i s.latch = .ok) (m : Memory) (ht : t = ({ s with mem := m } : State).endedWith 0)
      (hm : ∀ a, inSpans (footprintOf i s.latch).writes a = false → m.read a = s.mem.read a)
      (hw : s.mem.wf = true → m.wf = true)
  /-- An access was a bus error (60_exceptions.md R225). -/
  | bus (hv : validate i s.latch = .ok) (ht : t = s.finishBusError (footprintOf i s.latch))

theorem finishRegister_ended {i : Instr} {s : State} {v : Word} (hi : writesResult i = true) :
    Ended i s (s.finishRegister (validate i s.latch) v) := by
  rw [finishRegister_eq]
  split
  · rename_i h
    exact .result h hi v rfl
  · rename_i h
    exact .invalid h rfl

theorem validate_fits {i : Instr} {L : Latch} (h : validate i L = .ok) {r : Span}
    (hr : r ∈ (footprintOf i L).reads ++ (footprintOf i L).writes) : r.len = 0 ∨ r.base + r.len ≤ Config.addressLimit :=
  (valid_iff r).1 (valid_of_validate h r (List.mem_append.1 hr))

/-- Every command that answers a next state ended in one of the ways of `Ended`. -/
theorem exec_ended {i : Instr} {s t : State} (h : exec i s = .next t) : Ended i s t := by
  cases i with
  | nop resv =>
    simp only [exec, execNop, Host.Outcome.next.injEq] at h
    subst h
    rw [finish_eq_endedWith]
    by_cases hv : validate (.nop resv) s.latch = .ok
    · exact .plain hv (by rw [hv]; rfl)
    · exact .invalid hv rfl
  | qlookup resv q =>
    simp only [exec, execQlookup, Host.Outcome.next.injEq] at h
    exact h ▸ finishRegister_ended rfl
  | edge resv qm sq =>
    simp only [exec, execEdge, Host.Outcome.next.injEq] at h
    exact h ▸ finishRegister_ended rfl
  | deblock resv v hp qm sq =>
    rcases runMemoryCommand_next h with ⟨hv, ht⟩ | ⟨hv, -, ⟨m, hm, ht⟩ | ⟨-, ht⟩⟩
    · exact .invalid hv ht
    · have hb := validate_fits hv (r := ⟨s.latch.src0.toNat, s.latch.width * s.latch.height⟩) (by simp [footprintOf])
      refine .memory hv m (by rw [ht, finish_eq_endedWith]; rfl) (fun a ha => ?_) fun hw => ?_
      · refine deblockPlane_outside hm ?_
        simp only [footprintOf, inSpans, Span.contains, List.any_cons, List.any_nil, Bool.or_false, Bool.and_eq_false_iff,
          decide_eq_false_iff_not] at ha
        omega
      · exact deblockPlane_wf hm hb hw
    · exact .bus hv ht
  | lutrd resv tsel idx =>
    simp only [exec, execLutrd, Host.Outcome.next.injEq] at h
    exact h ▸ finishRegister_ended rfl
  | cvt resv =>
    simp only [exec, execCvt, Host.Outcome.next.injEq] at h
    exact h ▸ finishRegister_ended rfl
  | ups resv =>
    rcases runMemoryCommand_next h with ⟨hv, ht⟩ | ⟨hv, -, ⟨v, -, ht⟩ | ⟨-, ht⟩⟩
    · exact .invalid hv ht
    · exact .result hv rfl v ht
    · exact .bus hv ht
  | compose resv =>
    rcases runMemoryCommand_next h with ⟨hv, ht⟩ | ⟨hv, -, ⟨m, hm, ht⟩ | ⟨-, ht⟩⟩
    · exact .invalid hv ht
    · have hb := validate_fits hv (r := ⟨s.latch.dst.toNat, 4 * (s.latch.width * s.latch.height)⟩) (by simp [footprintOf])
      simp only at hb
      refine .memory hv m (by rw [ht, finish_eq_endedWith]; rfl) (fun a ha => ?_) fun hw => ?_
      · refine composeFrame_outside hm ?_
        simp only [footprintOf, inSpans, Span.contains, List.any_cons, List.any_nil, Bool.or_false, Bool.and_eq_false_iff,
          decide_eq_false_iff_not] at ha
        unfold Latch.inOutput
        omega
      · exact composeFrame_wf hm (by omega) hw
    · exact .bus hv ht

/-- The write ranges of a command that passes validation lie in the address space, so unspecified bytes keep memory canonical. -/
theorem finishBusError_wf {i : Instr} {s : State} (hv : validate i s.latch = .ok) (hm : s.mem.wf = true) :
    (s.finishBusError (footprintOf i s.latch)).mem.wf = true :=
  scramble_wf _ _ hm fun r hr => valid_of_validate hv r (.inr hr)

/-- A command keeps memory in canonical form. -/
theorem exec_wf {i : Instr} {s t : State} (h : exec i s = .next t) (hm : s.mem.wf = true) : t.mem.wf = true := by
  cases exec_ended h with
  | invalid hv ht => exact ht ▸ hm
  | plain hv ht => exact ht ▸ hm
  | result hv hi v ht => exact ht ▸ hm
  | memory hv m ht ho hw => exact ht ▸ hw hm
  | bus hv ht => exact ht ▸ finishBusError_wf hv hm

end Sys2Proof.Machine
end

