-- ==== Sys2Proof/Laws/Host.lean ====
section
/-! SUPPORT. What one operation of the outside can do, operation by operation, and what footprints that are apart allow. -/

namespace Sys2Proof.Machine

/-- What a write of CTRL can do (10_state.md R22). -/
theorem writeCtrl_next {v : Word} {s t : State} (h : s.writeCtrl v = .next t) :
    (v.getLsbD 1 = true ∧ s.touchesNonOrdinary s.abortedFootprint = false ∧ t = s.afterReset) ∨
    (v.getLsbD 1 = false ∧ t = { s with ctrl := v &&& 1#32 }) := by
  unfold State.writeCtrl at h
  split at h
  · rename_i hv
    obtain ⟨ho, ht⟩ := resetDevice_next h
    exact .inl ⟨hv, ho, ht⟩
  · rename_i hv
    cases h
    exact .inr ⟨by simpa using hv, rfl⟩

/-- An address of the register block is the register base plus its offset (20_memory.md R61). -/
@[simp] theorem portOffset_regBase_add {k : Nat} (h : k < 64) : portOffset (Config.regBase + k) = some (BitVec.ofNat 6 k) := by
  unfold portOffset Config.regBlockBytes
  rw [if_pos (by omega), Nat.add_sub_cancel_left]

/-- The addresses outside the register block. -/
theorem portOffset_eq_none_iff (addr : Nat) :
    portOffset addr = none ↔ addr < Config.regBase ∨ Config.regBase + 64 ≤ addr := by
  unfold portOffset Config.regBlockBytes
  split <;> simp <;> omega

/-- A legal register access acts at its offset (R61). -/
theorem portAccess_regBase_add {k : Nat} (h : k < 64) (ha : k % 4 = 0) (act : BitVec 6 → Result) :
    portAccess 4 (Config.regBase + k) act = act (BitVec.ofNat 6 k) := by
  unfold portAccess
  rw [portOffset_regBase_add h]
  simp [legalAccess, Nat.mod_eq_of_lt h, ha]

/-- A legal access at the base acts at offset 0, where ID is (R20, R61). -/
@[simp] theorem portAccess_regBase (act : BitVec 6 → Result) : portAccess 4 Config.regBase act = act 0#6 :=
  portAccess_regBase_add (k := 0) (by decide) (by decide) act

/-- What a register access can do when it does not stop: it is legal, and it acts at its offset (R61). -/
theorem portAccess_next {width addr : Nat} {act : BitVec 6 → Result} {t : State} (h : portAccess width addr act = .next t) :
    ∃ offset, portOffset addr = some offset ∧ legalAccess width offset = true ∧ act offset = .next t := by
  unfold portAccess at h
  split at h
  · cases h
  · rename_i offset ho
    split at h
    · rename_i hl
      exact ⟨offset, ho, hl, h⟩
    · cases h

/-- `ISSUE` writes CMD (30_encoding.md R94). -/
theorem hostEffect_issue (w : Word) (s : State) : hostEffect (HostOp.issue w) s = s.portWrite .cmd w :=
  portAccess_regBase_add (by decide) (by decide) _

/-- `CLEAR` writes STATUS (R94). -/
theorem hostEffect_clear (s : State) : hostEffect HostOp.clear s = s.portWrite .status 0x0000000E#32 :=
  portAccess_regBase_add (by decide) (by decide) _

/-- What a register write at the port can do (20_memory.md R61, 70_reset_and_hazards.md R260). -/
theorem portWrite_next {r : Reg} {v : Word} {s t : State} (h : s.portWrite r v = .next t) :
    (s.resetHeld = true ∧ t = s) ∨ (s.resetHeld = false ∧ s.writeReg r v = .next t) := by
  unfold State.portWrite at h
  split at h
  · rename_i hr
    cases h
    exact .inl ⟨hr, rfl⟩
  · rename_i hr
    exact .inr ⟨by simpa using hr, h⟩

/-- What asserting the reset input can do (R260). -/
theorem assertReset_next {s t : State} (h : s.assertReset = .next t) :
    (s.resetHeld = true ∧ t = s) ∨
    (s.resetHeld = false ∧ s.touchesNonOrdinary s.abortedFootprint = false ∧ t = { s.afterReset with resetHeld := true }) := by
  unfold State.assertReset at h
  split at h
  · rename_i hr
    cases h
    exact .inl ⟨hr, rfl⟩
  · rename_i hr
    split at h
    · cases h
    · rename_i ho
      cases h
      exact .inr ⟨by simpa using hr, by simpa using ho, rfl⟩

/-- When a host byte write is the footprint hazard (70_reset_and_hazards.md R265, 60_exceptions.md R243). -/
theorem writeHazard_iff (a : Nat) (s : State) :
    s.writeHazard a = true ↔ (s.engine = .busy ∧ inSpans (s.pending.reads ++ s.pending.writes) a = true) ∨
      ∃ p ∈ s.peers, inSpans (p.footprint.reads ++ p.footprint.writes) a = true := by
  rw [State.writeHazard, Bool.or_eq_true, Bool.and_eq_true, busy_iff, List.any_eq_true]

/-- When a host byte read is the footprint hazard. -/
theorem readHazard_iff (a : Nat) (s : State) :
    s.readHazard a = true ↔ (s.engine = .busy ∧ inSpans s.pending.writes a = true) ∨
      ∃ p ∈ s.peers, inSpans p.footprint.writes a = true := by
  rw [State.readHazard, Bool.or_eq_true, Bool.and_eq_true, busy_iff, List.any_eq_true]

/-- What a host byte write can do when it does not stop (70_reset_and_hazards.md R265). -/
theorem hostStore_next {a : BitVec 32} {v : Byte} {s t : State} (h : s.hostStore a v = .next t) :
    s.writeHazard a.toNat = false ∧ t = { s with mem := s.mem.write a.toNat v } := by
  unfold State.hostStore at h
  split at h
  · cases h
  · rename_i hz
    split at h
    · cases h
    · cases h
      exact ⟨by simpa using hz, rfl⟩

/-- What a host byte read can do when it does not stop (R265). -/
theorem hostLoad_next {a : BitVec 32} {s t : State} (h : s.hostLoad a = .next t) :
    s.readHazard a.toNat = false ∧ t = s.observe (.memory a (s.mem.read a.toNat)) := by
  unfold State.hostLoad at h
  split at h
  · cases h
  · rename_i hz
    split at h
    · cases h
    · cases h
      exact ⟨by simpa using hz, rfl⟩

/-- What another instance's acceptance can do when it does not stop (60_exceptions.md R243). -/
theorem acceptPeer_next {r : Nat} {f : Footprint} {s t : State} (h : s.acceptPeer r f = .next t) :
    t = s ∨ (((s.busy && f.conflicts s.pending) = false) ∧ s.peerConflict f = false ∧
      t = { s with peers := ⟨r, f⟩ :: s.peers }) := by
  unfold State.acceptPeer at h
  split at h
  · cases h
    exact .inl rfl
  · split at h
    · cases h
    · rename_i hc
      cases h
      rw [Bool.not_eq_true, Bool.or_eq_false_iff] at hc
      exact .inr ⟨hc.1, hc.2, rfl⟩

/-- A poll only records what it read, and may stay the next operation. -/
theorem poll_eq (s : State) :
    s.poll = { s with
      seen := .register 0x08#6 s.statusWord :: s.seen
      host := if s.engine = .busy then .wait :: s.host else s.host } := by
  unfold State.poll State.observe
  split <;> rfl

/-- Stores in memory at 32-bit addresses keep the canonical form. -/
theorem storeInside_wf (ws : List Span) (st : List (BitVec 32 × Byte)) {m : Memory} (h : m.wf = true) :
    (storeInside ws st m).wf = true := by
  induction st generalizing m with
  | nil => exact h
  | cons p rest ih =>
    obtain ⟨a, v⟩ := p
    refine ih ?_
    split
    · exact write_wf h v a.isLt
    · exact h

/-- Stores of another instance change nothing outside its write ranges. -/
theorem storeInside_outside (ws : List Span) (st : List (BitVec 32 × Byte)) (m : Memory) {x : Nat} (h : inSpans ws x = false) :
    (storeInside ws st m).read x = m.read x := by
  induction st generalizing m with
  | nil => rfl
  | cons p rest ih =>
    obtain ⟨a, v⟩ := p
    rw [storeInside, ih]
    split
    · rename_i ha
      refine read_write_other _ _ ?_
      rintro rfl
      rw [ha] at h
      cases h
    · rfl

/-- What another instance's completion does. -/
theorem completePeer_cases (r : Nat) (st : List (BitVec 32 × Byte)) (s : State) :
    s.completePeer r st = s ∨
    ∃ p ∈ s.peers, s.completePeer r st =
      { s with mem := storeInside p.footprint.writes st s.mem, peers := s.peers.filter fun q => q.regBase ≠ r } := by
  unfold State.completePeer
  split
  · exact .inl rfl
  · rename_i p hp
    exact .inr ⟨p, List.mem_of_find?_eq_some hp, rfl⟩

/-- The footprint that an aborting reset leaves unspecified lies in the address space. -/
theorem abortedFootprint_valid (s : State) : ∀ r ∈ s.abortedFootprint.writes, r.valid = true := by
  unfold State.abortedFootprint
  split
  · split
    · rename_i i _
      split
      · rename_i hv
        exact fun r hr => valid_of_validate hv r (.inr hr)
      · simp [Footprint.none]
    · simp [Footprint.none]
  · simp [Footprint.none]

theorem afterReset_wf {s : State} (h : s.mem.wf = true) : s.afterReset.mem.wf = true :=
  scramble_wf _ _ h (abortedFootprint_valid s)

/-! ### Footprints that are apart -/

@[simp] theorem none_conflicts (f : Footprint) : Footprint.none.conflicts f = false := rfl

@[simp] theorem conflicts_none (f : Footprint) : f.conflicts Footprint.none = false := by
  rw [conflicts_comm]
  rfl

theorem footprintsApart_cons (f : Footprint) (fs : List Footprint) :
    footprintsApart (f :: fs) = true ↔ (∀ g ∈ fs, f.conflicts g = false) ∧ footprintsApart fs = true := by
  simp [footprintsApart]

theorem footprintsApart_sublist {fs gs : List Footprint} (h : gs.Sublist fs) (hf : footprintsApart fs = true) :
    footprintsApart gs = true := by
  induction h with
  | slnil => rfl
  | cons f _ ih => exact ih ((footprintsApart_cons _ _).1 hf).2
  | cons_cons f hs ih =>
    obtain ⟨h1, h2⟩ := (footprintsApart_cons _ _).1 hf
    exact (footprintsApart_cons _ _).2 ⟨fun g hg => h1 g (hs.subset hg), ih h2⟩

end Sys2Proof.Machine
end

