-- ==== Sys2Proof/Laws/PerInstr.lean ====
section
/-! SUPPORT. The bits of an encoding: extracting a field of two appended fields, and, per command, that the encoder puts the row's
opcode in bits 31:24 (30_encoding.md R80, R85). -/

namespace Sys2Proof.Laws

/-- Bits that lie in the low part of an append. -/
theorem extract_append_low {a b n s : Nat} (x : BitVec a) (y : BitVec b) (h : s + n ≤ b) :
    (x ++ y).extractLsb' s n = y.extractLsb' s n := by
  ext k hk
  simp [BitVec.getLsbD_append]
  intro
  omega

/-- Bits that lie in the high part of an append. -/
theorem extract_append_high {a b n s : Nat} (x : BitVec a) (y : BitVec b) (h : b ≤ s) :
    (x ++ y).extractLsb' s n = x.extractLsb' (s - b) n := by
  ext k hk
  have h1 : ¬s + k < b := by omega
  have h2 : s + k - b = s - b + k := by omega
  simp [BitVec.getLsbD_append, h1, h2]

/-- All bits. -/
theorem extract_all {n : Nat} (x : BitVec n) : x.extractLsb' 0 n = x := by
  ext k hk
  simp

/-- The top field of an append. -/
theorem extract_append_top {a b : Nat} (x : BitVec a) (y : BitVec b) : (x ++ y).extractLsb' b a = x := by
  rw [extract_append_high x y (Nat.le_refl b), Nat.sub_self, extract_all]

/-- The opcode of a command's row (30_encoding.md R85). -/
def opcodeRow : Instr → BitVec 8
  | .nop _ => 0x00
  | .qlookup _ _ => 0x01
  | .edge _ _ _ => 0x02
  | .deblock _ _ _ _ _ => 0x03
  | .lutrd _ _ _ => 0x10
  | .cvt _ => 0x11
  | .ups _ => 0x12
  | .compose _ => 0x13

/-- The encoding carries the row's opcode in bits 31:24. -/
def OpcodeField.Statement (i : Instr) : Prop := opcodeOf (encode i) = opcodeRow i

theorem OpcodeField.nop (resv : BitVec 24) : OpcodeField.Statement (.nop resv) := extract_append_top 0x00#8 resv

theorem OpcodeField.qlookup (resv : BitVec 19) (q : BitVec 5) : OpcodeField.Statement (.qlookup resv q) :=
  (extract_append_high (n := 8) (s := 24) (0x01#8 ++ resv) q (by decide)).trans (extract_append_top 0x01#8 resv)

theorem OpcodeField.edge (resv : BitVec 18) (qm : BitVec 1) (sq : BitVec 5) :
    OpcodeField.Statement (.edge resv qm sq) :=
  (extract_append_high (n := 8) (s := 24) (0x02#8 ++ resv ++ qm) sq (by decide)).trans
    ((extract_append_high (n := 8) (s := 19) (0x02#8 ++ resv) qm (by decide)).trans (extract_append_top 0x02#8 resv))

theorem OpcodeField.deblock (resv : BitVec 16) (v h qm : BitVec 1) (sq : BitVec 5) :
    OpcodeField.Statement (.deblock resv v h qm sq) :=
  (extract_append_high (n := 8) (s := 24) (0x03#8 ++ resv ++ v ++ h ++ qm) sq (by decide)).trans
    ((extract_append_high (n := 8) (s := 19) (0x03#8 ++ resv ++ v ++ h) qm (by decide)).trans
      ((extract_append_high (n := 8) (s := 18) (0x03#8 ++ resv ++ v) h (by decide)).trans
        ((extract_append_high (n := 8) (s := 17) (0x03#8 ++ resv) v (by decide)).trans (extract_append_top 0x03#8 resv))))

theorem OpcodeField.lutrd (resv : BitVec 13) (tsel : BitVec 3) (idx : BitVec 8) :
    OpcodeField.Statement (.lutrd resv tsel idx) :=
  (extract_append_high (n := 8) (s := 24) (0x10#8 ++ resv ++ tsel) idx (by decide)).trans
    ((extract_append_high (n := 8) (s := 16) (0x10#8 ++ resv) tsel (by decide)).trans (extract_append_top 0x10#8 resv))

theorem OpcodeField.cvt (resv : BitVec 24) : OpcodeField.Statement (.cvt resv) := extract_append_top 0x11#8 resv

theorem OpcodeField.ups (resv : BitVec 24) : OpcodeField.Statement (.ups resv) := extract_append_top 0x12#8 resv

theorem OpcodeField.compose (resv : BitVec 24) : OpcodeField.Statement (.compose resv) := extract_append_top 0x13#8 resv

end Sys2Proof.Laws
end

