-- ==== Sys2Proof/Tests/Slice0.lean ====
section
/-! SUPPORT. The model's own tests. Expected values come from the spec: the encodings of 30_encoding.md and the vectors of
95_test_vectors.md (their names are in the comments). Then, for every obligation with hypotheses, a witness that meets them. -/

open Sys2Proof Sys2Proof.Machine

namespace Sys2Proof.Tests

/-! ### Well-formedness refuses each ill-formed term -/

theorem test_wf_refuses_reserved_bits :
    (Instr.nop 1).wellFormed = false ∧ (Instr.qlookup 1 1).wellFormed = false ∧ (Instr.edge 1 0 6).wellFormed = false ∧
    (Instr.deblock 1 1 1 0 6).wellFormed = false ∧ (Instr.lutrd 1 0 0).wellFormed = false ∧
    (Instr.cvt 1).wellFormed = false ∧ (Instr.ups 1).wellFormed = false ∧ (Instr.compose 1).wellFormed = false := by decide

theorem test_wf_refuses_illegal_fields :
    (Instr.qlookup 0 0).wellFormed = false ∧ (Instr.edge 0 0 13).wellFormed = false ∧ (Instr.edge 0 1 0).wellFormed = false ∧
    (Instr.deblock 0 1 1 0 31).wellFormed = false ∧ (Instr.deblock 0 1 1 1 0).wellFormed = false ∧
    (Instr.lutrd 0 5 0).wellFormed = false ∧ (Instr.lutrd 0 7 255).wellFormed = false := by decide

theorem test_wf_accepts :
    (Instr.nop 0).wellFormed = true ∧ (Instr.qlookup 0 31).wellFormed = true ∧ (Instr.edge 0 0 12).wellFormed = true ∧
    (Instr.edge 0 1 31).wellFormed = true ∧ (Instr.deblock 0 0 0 0 0).wellFormed = true ∧
    (Instr.lutrd 0 4 255).wellFormed = true ∧ (Instr.cvt 0).wellFormed = true ∧ (Instr.ups 0).wellFormed = true ∧
    (Instr.compose 0).wellFormed = true := by decide

/-! ### Decoding of words written out bit by bit from the formats of R81 to R85 -/

theorem test_decode_nop : decode 0b00000000000000000000000000000000#32 = .ok (.nop 0) := by decide
theorem test_decode_nop_reserved : decode 0b00000000100000000000000000000001#32 = .ok (.nop 0x800001) := by decide
theorem test_decode_qlookup : decode 0b00000001000000000000000000001101#32 = .ok (.qlookup 0 13) := by decide
theorem test_decode_edge : decode 0b00000010000000000000000000101101#32 = .ok (.edge 0 1 13) := by decide
theorem test_decode_edge_hv_reserved : decode 0b00000010000000000000000011000110#32 = .ok (.edge 3 0 6) := by decide
theorem test_decode_deblock_v : decode 0b00000011000000000000000010001100#32 = .ok (.deblock 0 1 0 0 12) := by decide
theorem test_decode_deblock_h : decode 0b00000011000000000000000001100001#32 = .ok (.deblock 0 0 1 1 1) := by decide
theorem test_decode_lutrd : decode 0b00010000000000000000001000011001#32 = .ok (.lutrd 0 2 25) := by decide
theorem test_decode_cvt : decode 0b00010001000000000000000000000000#32 = .ok (.cvt 0) := by decide
theorem test_decode_ups : decode 0b00010010000000000000000000000000#32 = .ok (.ups 0) := by decide
theorem test_decode_compose : decode 0b00010011000000000000000000000000#32 = .ok (.compose 0) := by decide

theorem test_decode_refuses_by_name :
    decode 0x04000000#32 = .error (.illegalOpcode 0x04) ∧ decode 0x0FFFFFFF#32 = .error (.illegalOpcode 0x0F) ∧
    decode 0x14000000#32 = .error (.illegalOpcode 0x14) ∧ decode 0xFF000000#32 = .error (.illegalOpcode 0xFF) := by decide

/-! ### The assembler's text (lines and words of 30_encoding.md R91 to R93) -/

theorem test_text_deblock :
    assembleText ['d', 'e', 'B', 'L', 'O', 'C', 'K', ' ', 'H', 'V', ',', ' ', 'q', '=', '1', '3', ' ', ';', ' ', 'x'] =
      some 0x030000ED#32 := by decide
theorem test_text_lutrd_hex :
    assembleText ['L', 'U', 'T', 'R', 'D', ' ', 'c', 'b', '_', 't', 'o', '_', 'b', ',', '0', 'x', 'F', 'f'] =
      some 0x100004FF#32 := by decide
theorem test_text_refuses_constraint : assembleText ['E', 'D', 'G', 'E', ' ', 's', '=', '1', '3'] = none := by decide

theorem test_pseudo_instructions :
    (assemble (.deblockDefault (.strength 6))).map encode = some 0x030000C6#32 ∧
    (assemble (.deblockH (.strength 12))).map encode = some 0x0300004C#32 ∧
    (assemble (.deblockV (.strength 12))).map encode = some 0x0300008C#32 ∧
    (assemble .yuv2rgba).map encode = some 0x13000000#32 := by decide

/-! ### One step of each command -/

/-- The state after the step that runs the word. -/
def ran (s : State) (w : Nat) : Option State :=
  match step (s.withFetchWord 32 w) with
  | .next t => some t
  | .fault _ => none
  | .refused _ => none

/-- STATUS and RESULT after the step that runs the word. -/
def ends (s : State) (w : Nat) : Option (Word × Word) := (ran s w).map fun t => (t.statusWord, t.result)

/-- Memory bytes from `a` on, after the step that runs the word. -/
def leaves (s : State) (w a n : Nat) : Option (List Byte) := (ran s w).map fun t => (List.range n).map fun k => t.mem.read (a + k)

/-- The reset state with a mark in RESULT, to see whether a command writes it. -/
def marked : State := { State.reset with result := 0x55#32 }

/-- Memory that holds these bytes from address 0 on. -/
def bytes (vs : List Byte) : Memory := (vs.zipIdx).foldl (fun m p => m.write p.2 p.1) []

-- N2, N3
theorem test_nop_keeps_err : ends { marked with err := true } 0x00000000 = some (0x00000006#32, 0x55#32) := by decide
theorem test_nop_reserved : ends marked 0x00000001 = some (0x00000206#32, 0x55#32) := by decide

-- Table Q: q = 13 and q = 0
theorem test_qlookup : ends marked 0x0100000D = some (0x00000002#32, 0x00000006#32) := by decide
theorem test_qlookup_zero : ends marked 0x01000000 = some (0x00000406#32, 0x55#32) := by decide

-- E13 (numerator -20, C clamps) and the quantizer form of E1
theorem test_edge_truncates :
    ends { marked with edgeIn := 0x28FFFA00#32 } 0x0200000C = some (0x00000002#32, 0x27FFF801#32) := by decide
theorem test_edge_quantizer :
    ends { marked with edgeIn := 0x6E6E6464#32 } 0x0200002D = some (0x00000002#32, 0x6D6B6765#32) := by decide

-- The line of D1 in a plane of one column, and the row of D6 in a plane of one row
theorem test_deblock_horizontal :
    leaves { marked with dim := 0x000A0001#32, mem := bytes [60, 60, 60, 60, 60, 60, 60, 60, 80, 80] } 0x030000CC 0 10 =
      some [60, 60, 60, 60, 60, 60, 63, 67, 73, 77] := by decide
theorem test_deblock_vertical :
    leaves { marked with dim := 0x0001000A#32, mem := bytes [40, 40, 40, 40, 40, 40, 40, 40, 50, 50] } 0x030000CC 0 10 =
      some [40, 40, 40, 40, 40, 40, 41, 43, 47, 49] := by decide

-- T9, and TSEL = 5
theorem test_lutrd : ends marked 0x100002FF = some (0x00000002#32, 0xFFFFF9B1#32) := by decide
theorem test_lutrd_bad_table : ends marked 0x10000500 = some (0x00000506#32, 0x55#32) := by decide

-- V11, V18
theorem test_cvt_red : ends { marked with pixIn := 0x00F05A51#32 } 0x11000000 = some (0x00000002#32, 0xFF0101FA#32) := by decide
theorem test_cvt_mixed : ends { marked with pixIn := 0x009210D2#32 } 0x11000000 = some (0x00000002#32, 0xFF05FFFE#32) := by decide

/-- The chroma planes of 95_test_vectors.md 2.6, Cb at address 0 and Cr at address 4, for a 4 by 4 frame. -/
def chromaSetup (pos : Word) : State :=
  { marked with dim := 0x00040004#32, src1 := 0, src2 := 4, pos := pos, mem := bytes [100, 200, 50, 150, 16, 240, 128, 64] }

-- U3, and BAD_POS at x = 4
theorem test_ups : ends (chromaSetup 0x00010002#32) 0x12000000 = some (0x00000002#32, 0x00009EA3#32) := by decide
theorem test_ups_bad_pos : ends (chromaSetup 0x00000004#32) 0x12000000 = some (0x00000606#32, 0x55#32) := by decide

-- V11 as a frame of one pixel (as F3), and F6
theorem test_compose :
    leaves { marked with dim := 0x00010001#32, src0 := 0, src1 := 1, src2 := 2, dst := 3, mem := bytes [81, 90, 240] }
      0x13000000 3 4 = some [250, 1, 1, 255] := by decide
theorem test_compose_overlap :
    ends { marked with dim := 0x00040004#32, src0 := 0x100, src1 := 0x200, src2 := 0x300, dst := 0x100 } 0x13000000 =
      some (0x00000806#32, 0x55#32) := by decide

-- An illegal opcode ends with ILLEGAL_OPCODE
theorem test_illegal_opcode : ends marked 0x14000000 = some (0x00000106#32, 0x55#32) := by decide

-- A bus error on a sample of the one filtered line (60_exceptions.md R225), as X9 has it for a byte that is not (log entry 24)
theorem test_deblock_bus_error :
    ends { marked with dim := 0x000A0001#32, memErr := [(9, .write)] } 0x030000CC = some (0x00000906#32, 0x55#32) := by decide

/-- STATUS, and whether IRQ is high, after one outside operation. -/
def hostEnds (op : HostOp) (s : State) : Option (Word × Bool) :=
  match hostEffect op s with
  | .next t => some (t.statusWord, t.irq)
  | .fault _ => none
  | .refused _ => none

-- N4, N5
theorem test_clear_keeps_errcode :
    hostEnds .clear { State.reset with done := true, err := true, errcode := 7 } = some (0x00000700#32, false) := by
  rw [hostEnds, hostEffect_clear]; decide
theorem test_irq_enable_raises :
    hostEnds (.writeReg 4 (Config.regBase + 0x04) 1#32) { State.reset with done := true } = some (0x00000002#32, true) := by
  rw [hostEnds, hostEffect, portAccess_regBase_add (by decide) (by decide)]; decide

-- While the reset input is asserted a word written to CMD is not accepted, and after its release one is (70_reset_and_hazards.md R260)
theorem test_reset_holds_cmd :
    (hostEnds (HostOp.issue 0#32) { State.reset with resetHeld := true }).map Prod.fst = some 0x00000000#32 := by
  rw [hostEnds, hostEffect_issue]; decide
theorem test_reset_released_cmd :
    (hostEnds (HostOp.issue 0#32) ({ State.reset with resetHeld := true } : State).releaseReset).map Prod.fst = some 0x00000001#32 := by
  rw [hostEnds, hostEffect_issue]; decide

/-! ### Witnesses: concrete values that meet the hypotheses of each obligation that has some -/

/-- A command in flight with this latch, over this memory. -/
def inFlight (L : Latch) (m : Memory) : State :=
  { State.reset with latch := L, cmd := L.cmd, engine := .busy, pending := latchFootprint L, mem := m }

theorem witness_EncodeOfDecodeIsTheWord : decode 0x0300004C#32 = .ok (.deblock 0 0 1 0 12) := by decide

theorem no_command {w : Word} {e : DecodeError} (h : decode w = .error e) (i : Instr) : decode w ≠ .ok i := by
  rw [h]
  exact fun h' => nomatch h'

theorem witness_IllegalOpcodesEndWithIllegalOpcode :
    (∀ i, decode 0x04000000#32 ≠ .ok i) ∧ (∀ i, decode 0x0F000000#32 ≠ .ok i) ∧ (∀ i, decode 0x14000000#32 ≠ .ok i) ∧
    (∀ i, decode 0xFFFFFFFF#32 ≠ .ok i) ∧ decode 0x10FFFFFF#32 = .ok (.lutrd 0x1FFF 7 255) ∧
    (State.reset.withFetchWord 32 0x04000000).engineTurn = true ∧
    (State.reset.withFetchWord 32 0x04000000).latch.cmd = 0x04000000#32 := by
  refine ⟨no_command (e := .illegalOpcode 0x04) (by decide), no_command (e := .illegalOpcode 0x0F) (by decide),
    no_command (e := .illegalOpcode 0x14) (by decide), no_command (e := .illegalOpcode 0xFF) (by decide), ?_⟩
  decide

theorem witness_StepRunsTheDecodedCommand :
    (State.reset.withFetchWord 32 0x0100000D).engineTurn = true ∧
    decode (State.reset.withFetchWord 32 0x0100000D).latch.cmd = .ok (.qlookup 0 13) ∧
    decodeTableWord 32 0x0100000D = some (.qlookup 0 13) := by decide

theorem witness_IdleDeviceWaits : State.reset.engine = .idle ∧ State.reset.host = [] := by decide

/-- NOP in flight, two outside operations from its completion. -/
def polling : State := { inFlight Latch.zero [] with host := [.wait], delay := 2 }

theorem witness_WaitReachesTheCompletionStep : polling.engine = .busy ∧ polling.host = .wait :: [] := by decide
theorem witness_CommandInFlightGetsItsTurn : polling.engine = .busy := by decide

theorem witness_EdgeReturnsTheFilteredSamples :
    (1#18 : BitVec 18) ≠ 0 ∧ 12 < (13#5 : BitVec 5).toNat ∧ 12 < (31#5 : BitVec 5).toNat ∧ (0#5 : BitVec 5) = 0 ∧
    strengthFieldLegal 0 0 = true ∧ strengthFieldLegal 0 12 = true ∧ strengthFieldLegal 1 1 = true ∧
    strengthFieldLegal 1 31 = true := by decide

theorem witness_CvtReturnsTheConvertedPixel : (0x800000#24 : BitVec 24) ≠ 0 ∧ (0#24 : BitVec 24) = 0 := by decide

/-- UPS at the last pixel of a 3 by 3 frame whose Cr plane ends at the top of the address space. -/
def upsampling : State :=
  inFlight { Latch.zero with cmd := 0x12000000#32, dim := 0x00030003#32, pos := 0x00020002#32, src2 := 0xFFFFFFFC#32 } []

theorem witness_UpsReturnsTheUpsampledChroma :
    (let L := upsampling.latch
     L.posX < L.width ∧ L.posY < L.height ∧ RangeFits L.src1.toNat (L.chromaWidth * L.chromaHeight) ∧
     RangeFits L.src2.toNat (L.chromaWidth * L.chromaHeight) ∧
     upsampling.memoryServes (footprintOf (.ups 0) L) = true) ∧
    (let L := { upsampling.latch with pos := 0x00000003#32 }; L.width ≤ L.posX) ∧
    (let L := { upsampling.latch with pos := 0x00030000#32 }; L.height ≤ L.posY) ∧
    (let L := { upsampling.latch with src1 := 0xFFFFFFFD#32 }
     L.posX < L.width ∧ L.posY < L.height ∧ 2 ^ 32 < L.src1.toNat + L.chromaWidth * L.chromaHeight) ∧
    (let L := { upsampling.latch with src2 := 0xFFFFFFFD#32 }
     2 ^ 32 < L.src2.toNat + L.chromaWidth * L.chromaHeight) := by decide

theorem witness_RampClosedForm : (0 : Int) ≤ 0 ∧ (0 : Int) ≤ 12 := by decide

/-- |d| is 6, exactly twice the strength 3. -/
theorem witness_EdgeFilterIdentities : 2 * ((3 : Nat) : Int) ≤ absInt (edgeD 0 0 16 16) := by decide

theorem witness_OuterSamplesStayBetween : (0 : Int) ≤ 0 := by decide

theorem witness_StrengthTableProperties :
    (1#5 : BitVec 5) ≠ 0 ∧ (1#5 : BitVec 5).toNat ≤ (31#5 : BitVec 5).toNat ∧ 1 ≤ (12#4 : BitVec 4).toNat ∧
    (12#4 : BitVec 4).toNat ≤ 12 := by decide

/-- DEBLOCK over a plane of this size that ends at the top of the address space. -/
def deblocking (dim base : Word) : State :=
  inFlight { Latch.zero with cmd := 0x030000CC#32, dim := dim, src0 := base } []

theorem witness_DeblockCompletesInsideThePlane :
    let s := deblocking 0x000A000A#32 0xFFFFFF9C#32
    strengthFieldLegal 0 12 = true ∧ RangeFits s.latch.src0.toNat (s.latch.width * s.latch.height) ∧
    s.memoryServes (footprintOf (.deblock 0 1 1 0 12) s.latch) = true := by decide

theorem witness_HorizontalPassFiltersEveryEdgeLine :
    let s := deblocking 0x000A0001#32 0xFFFFFFF6#32
    s.mem.wf = true ∧ strengthFieldLegal 0 12 = true ∧ RangeFits s.latch.src0.toNat (s.latch.width * s.latch.height) ∧
    s.memoryServes (footprintOf (.deblock 0 0 1 0 12) s.latch) = true ∧ 0 < s.latch.width ∧ EdgeAt s.latch.height 8 := by decide

theorem witness_VerticalPassFiltersEveryEdgeLine :
    let s := deblocking 0x0001000A#32 0xFFFFFFF6#32
    s.mem.wf = true ∧ strengthFieldLegal 1 31 = true ∧ RangeFits s.latch.src0.toNat (s.latch.width * s.latch.height) ∧
    s.memoryServes (footprintOf (.deblock 0 1 0 1 31) s.latch) = true ∧ EdgeAt s.latch.width 8 ∧ 0 < s.latch.height := by decide

/-- The next state of an outcome. -/
def nextOf : Result → Option State
  | .next t => some t
  | .fault _ => none
  | .refused _ => none

theorem witness_BothPassesAreHorizontalThenVertical :
    ((nextOf (exec (.deblock 0 0 1 0 12) (deblocking 0x000A000A#32 0#32))).bind fun t =>
      (nextOf (exec (.deblock 0 1 0 0 12) t)).map fun u => (t.errcode, u.errcode)) = some (0#4, 0#4) := by decide +kernel

theorem witness_LineOrderWithinAPassIsUnobservable :
    Memory.wf [] = true ∧ RangeFits 0 (2 * 10) ∧
    [(8, 1), (8, 0)].Perm ((edgePositions 10).flatMap fun y => (List.range 2).map fun x => (y, x)) ∧ RangeFits 0 (10 * 2) ∧
    [(8, 1), (8, 0)].Perm ((edgePositions 10).flatMap fun x => (List.range 2).map fun y => (x, y)) := by decide

theorem witness_SmallPlanesAreLeftAlone :
    let s := { deblocking 0x00090009#32 0xFFFFFFAF#32 with memErr := [(0xFFFFFFAF, .read)] }
    s.latch.height < 10 ∧ s.latch.width < 10 ∧ strengthFieldLegal 0 0 = true ∧
    RangeFits s.latch.src0.toNat (s.latch.width * s.latch.height) ∧
    s.touchesNonOrdinary (footprintOf (.deblock 0 1 1 0 0) s.latch) = false := by decide

theorem witness_NearFarClampsOnlyTheEnds : 0 < 2 * 1 ∧ 1 < 2 * 1 ∧ 1 = 2 * 1 - 1 ∧ (0 < 1 ∧ 1 < 2 * 2 - 1) := by decide

theorem witness_InteriorQuadValues : 0 + 1 < 2 ∧ 0 + 1 < 2 := by decide

/-- COMPOSE of one pixel, its four ranges next to one another, the last one up to the top of the address space. -/
def composing : State :=
  inFlight
    { Latch.zero with
      cmd := 0x13000000#32, dim := 0x00010001#32, src0 := 0xFFFFFFF9#32, src1 := 0xFFFFFFFA#32, src2 := 0xFFFFFFFB#32
      dst := 0xFFFFFFFC#32 } []

theorem witness_ComposeWritesEveryPixel :
    let s := composing
    let L := s.latch
    let luma := L.width * L.height
    let chroma := L.chromaWidth * L.chromaHeight
    s.mem.wf = true ∧ RangeFits L.src0.toNat luma ∧ RangeFits L.src1.toNat chroma ∧ RangeFits L.src2.toNat chroma ∧
    RangeFits L.dst.toNat (4 * luma) ∧ RangesApart L.dst.toNat (4 * luma) L.src0.toNat luma ∧
    RangesApart L.dst.toNat (4 * luma) L.src1.toNat chroma ∧ RangesApart L.dst.toNat (4 * luma) L.src2.toNat chroma ∧
    s.memoryServes (footprintOf (.compose 0) L) = true ∧ 0 < L.width ∧ 0 < L.height := by decide

theorem witness_ComposeOfAnEmptyFrame :
    (inFlight { Latch.zero with dim := 0x00040000#32 } []).latch.width = 0 ∧
    (inFlight { Latch.zero with dim := 0x00000004#32 } []).latch.height = 0 := by decide

theorem witness_ReservedBitsEndEveryCommand :
    (Instr.edge 1 0 6).reservedClear = false ∧ (Instr.compose 0x800000).reservedClear = false := by decide

/-- The third clause: a plane of two bytes that ends one byte past the address space. -/
theorem witness_DeblockErrorForms :
    let s := deblocking 0x00010002#32 0xFFFFFFFF#32
    12 < (13#5 : BitVec 5).toNat ∧ strengthFieldLegal 0 12 = true ∧ 0 < s.latch.width * s.latch.height ∧
    2 ^ 32 < s.latch.src0.toNat + s.latch.width * s.latch.height := by decide

/-- One frame one byte past the address space for ADDR_RANGE, and three frames whose output takes one byte of a source. -/
theorem witness_ComposeErrorForms :
    let L := composing.latch
    let luma := L.width * L.height
    let chroma := L.chromaWidth * L.chromaHeight
    0 < luma ∧ 2 ^ 32 < (0xFFFFFFFD#32 : Word).toNat + 4 * luma ∧
    RangeFits L.src0.toNat luma ∧ RangeFits L.src1.toNat chroma ∧ RangeFits L.src2.toNat chroma ∧
    RangeFits (0xFFFFFFF6#32 : Word).toNat (4 * luma) ∧ RangeFits (0xFFFFFFF7#32 : Word).toNat (4 * luma) ∧
    RangeFits (0xFFFFFFF8#32 : Word).toNat (4 * luma) ∧
    ¬RangesApart (0xFFFFFFF6#32 : Word).toNat (4 * luma) L.src0.toNat luma ∧
    ¬RangesApart (0xFFFFFFF7#32 : Word).toNat (4 * luma) L.src1.toNat chroma ∧
    ¬RangesApart (0xFFFFFFF8#32 : Word).toNat (4 * luma) L.src2.toNat chroma := by decide

theorem witness_ValidationErrorsChangeOnlyStatus :
    (nextOf (exec (.ups 0) (inFlight Latch.zero []))).map (fun t => t.errcode) = some 6#4 := by decide

/-- A memory that answers a read of the luma sample, or a write of the first output byte, with a bus error. -/
theorem witness_BusErrorSparesEverythingOutsideTheWriteFootprint :
    (nextOf (exec (.compose 0) { composing with memErr := [(0xFFFFFFF9, .read)] })).map (fun t => t.errcode) = some 9#4 ∧
    (nextOf (exec (.compose 0) { composing with memErr := [(0xFFFFFFFC, .write)] })).map (fun t => t.errcode) = some 9#4 ∧
    inSpans (footprintOf (.compose 0) composing.latch).writes 0xFFFFFFFB = false := by decide

/-- A read of the luma sample and a write of the last alpha byte of COMPOSE, a chroma read of UPS, and a sample of DEBLOCK's line in
each of its passes. -/
theorem witness_AnErringAccessEndsTheCommandWithBusError :
    (validate (.compose 0) composing.latch = .ok ∧ composing.touchesNonOrdinary (footprintOf (.compose 0) composing.latch) = false ∧
      ({ composing with memErr := [(0xFFFFFFF9, .read)] } : State).accessErrs (.compose 0) ∧
      ({ composing with memErr := [(0xFFFFFFFF, .write)] } : State).accessErrs (.compose 0)) ∧
    (validate (.ups 0) upsampling.latch = .ok ∧ upsampling.touchesNonOrdinary (footprintOf (.ups 0) upsampling.latch) = false ∧
      ({ upsampling with memErr := [(0xFFFFFFFF, .read)] } : State).accessErrs (.ups 0)) ∧
    (validate (.deblock 0 1 1 0 12) (deblocking 0x000A000A#32 0#32).latch = .ok ∧
      (deblocking 0x000A000A#32 0#32).touchesNonOrdinary
        (footprintOf (.deblock 0 1 1 0 12) (deblocking 0x000A000A#32 0#32).latch) = false ∧
      ({ deblocking 0x000A000A#32 0#32 with memErr := [(60, .read)] } : State).accessErrs (.deblock 0 0 1 0 12) ∧
      ({ deblocking 0x000A000A#32 0#32 with memErr := [(99, .write)] } : State).accessErrs (.deblock 0 1 0 0 12)) ∧
    (nextOf (exec (.compose 0) { composing with memErr := [(0xFFFFFFFF, .write)] })).map (fun t => t.errcode) = some 9#4 := by
  refine ⟨⟨by decide, by decide, ?_, ?_⟩, ⟨by decide, by decide, ?_⟩, ⟨by decide, by decide, ?_, ?_⟩, by decide⟩
  · exact ⟨0, 0, by decide, by decide, .inl (by decide)⟩
  · exact ⟨0, 0, by decide, by decide, .inr (.inr (.inr ⟨3, by decide, by decide⟩))⟩
  · exact .inr ⟨1, 1, by decide, by decide, by decide⟩
  · exact .inl ⟨rfl, 0, 8, 6, by decide, by decide, by decide, by decide, .inl (by decide)⟩
  · exact .inr ⟨rfl, 8, 9, 9, by decide, by decide, by decide, by decide, .inr (by decide)⟩

/-- The last byte of COMPOSE's range is not ordinary memory. -/
theorem witness_NonOrdinaryMemoryIsRefused :
    let s := { composing with nonOrdinary := [⟨0xFFFFFFFF, 1⟩] }
    validate (.compose 0) s.latch = .ok ∧ s.touchesNonOrdinary (footprintOf (.compose 0) s.latch) = true ∧
    validate (.compose 1) s.latch ≠ .ok ∧ composing.touchesNonOrdinary (footprintOf (.compose 0) composing.latch) = false ∧
    s.engine = .busy ∧ s.resetHeld = false ∧ decode s.latch.cmd = .ok (.compose 0) ∧ (2#32 : Word).getLsbD 1 = true ∧
    inSpans s.nonOrdinary (0xFFFFFFFF#32 : Word).toNat = true ∧
    (let u := { State.reset with nonOrdinary := [⟨0xFFFFFFFF, 1⟩] }
     u.writeHazard 0xFFFFFFFF = false ∧ u.readHazard 0xFFFFFFFF = false) := by decide

theorem witness_NoCommandWritesOutsideItsFootprint :
    (nextOf (exec (.compose 0) composing)).isSome = true ∧
    inSpans (footprintOf (.compose 0) composing.latch).writes 0xFFFFFFFB = false := by decide

/-- UPS reads bytes 0 and 1 here; the two memories differ at 5. -/
theorem witness_CommandsReadOnlyTheirFootprint :
    let s := inFlight { Latch.zero with dim := 0x00010001#32, src2 := 1 } (bytes [7, 9])
    let m' : Memory := [(0, 7), (1, 9), (5, 1)]
    s.mem.wf = true ∧ m'.wf = true ∧
    (∀ a, inSpans (footprintOf (.ups 0) s.latch).reads a = true → m'.read a = s.mem.read a) ∧
    (nextOf (exec (.ups 0) s)).isSome = true := by
  refine ⟨by decide, by decide, fun a ha => ?_, by decide⟩
  have h : a = 0 ∨ a = 1 := by
    simp [inFlight, footprintOf, inSpans, Span.contains, Latch.width, Latch.height, Latch.chromaWidth, Latch.chromaHeight,
      lowHalf, highHalf, Latch.zero] at ha
    omega
  rcases h with rfl | rfl <;> decide

theorem witness_ResultIsWrittenOnlyBySuccess :
    (nextOf (exec (.cvt 0) State.reset)).map (fun t => decide (t.result ≠ State.reset.result)) = some true := by decide

theorem witness_AcceptanceLatchesTheOperands :
    State.reset.resetHeld = false ∧ State.reset.engine = .idle ∧
    State.reset.peerConflict (latchFootprint (State.reset.capture 0x13000000#32)) = false := by decide

theorem witness_OverrunDropsTheWord : polling.resetHeld = false ∧ polling.engine = .busy := by decide

theorem witness_StatusWriteClearsFlags : polling.resetHeld = false := by decide

theorem witness_CtrlWriteStoresInterruptEnable :
    polling.resetHeld = false ∧ (1#32 : Word).getLsbD 1 = false ∧ (0xFFFFFFFD#32 : Word).getLsbD 1 = false ∧
    (3#32 : Word).getLsbD 1 = true ∧ polling.touchesNonOrdinary polling.abortedFootprint = false := by decide

theorem witness_RegisterWritesReadBack : composing.resetHeld = false := by decide

theorem witness_IllegalRegisterAccessesAreRefused :
    (0x08 < 64 ∧ (2 ≠ 4 ∨ 0x08 % 4 ≠ 0)) ∧ (0x3F < 64 ∧ (4 ≠ 4 ∨ 0x3F % 4 ≠ 0)) ∧
    (Config.regBase + 64 < Config.regBase ∨ Config.regBase + 64 ≤ Config.regBase + 64) :=
  ⟨by decide, by decide, .inr (Nat.le_refl _)⟩

theorem witness_InterruptFollowsStatus :
    State.reset.resetHeld = false ∧ State.reset.err = false ∧ State.reset.ovr = false := by decide

/-- The clauses on memory: an idle device, an illegal word in flight, an invalid command in flight, and a byte outside the write
range of a valid one. -/
theorem witness_ResetsRestoreTheRegisters :
    (2#32 : Word).getLsbD 1 = true ∧ (∀ s ∈ [State.reset, polling, upsampling, composing], s.resetHeld = false ∧
      s.touchesNonOrdinary s.abortedFootprint = false) ∧ State.reset.engine = .idle ∧
    decode composing.latch.cmd = .ok (.compose 0) ∧
    inSpans (footprintOf (.compose 0) composing.latch).writes 0xFFFFFFFB = false ∧
    validate (.ups 0) { upsampling.latch with dim := 0 } ≠ .ok := by decide

/-- The device held in reset, with a word for CMD, a release of the input and nothing pending outside. -/
theorem witness_AssertedResetHoldsTheDevice :
    let s := { State.reset with resetHeld := true }
    s.resetHeld = true ∧ (0x0C < 64 ∧ 0x0C % 4 = 0) ∧ (0x3C < 64 ∧ 0x3C % 4 = 0) ∧ s.inv = true ∧
    (∀ l : List HostOp, ({ s with host := l } : State).inv = true) ∧
    (∀ l ∈ [[HostOp.issue 0#32], [HostOp.releaseReset], []], (nextOf (step { s with host := l })).isSome = true) := by
  refine ⟨rfl, by decide, by decide, by decide, fun _ => (by decide : ({ State.reset with resetHeld := true } : State).inv = true), ?_⟩
  simp only [List.forall_mem_cons, List.not_mem_nil, false_implies, implies_true, and_true]
  refine ⟨?_, by decide, by decide⟩
  change (nextOf (hostEffect (HostOp.issue 0#32) _)).isSome = true
  rw [hostEffect_issue]
  decide

/-- For each clause on `composing`: the first and the last address of the RGBA range, and the byte below it, which is the Cr plane. For
the clauses on other instances: one that reads byte 4 and writes byte 5. For the accesses that are performed: bytes next to those. -/
theorem witness_FootprintHazardFaults :
    let p : Peer := ⟨0x1000, ⟨[⟨4, 1⟩], [⟨5, 1⟩]⟩⟩
    let s := { composing with peers := [p] }
    s.engine = .busy ∧ inSpans (s.pending.reads ++ s.pending.writes) (0xFFFFFFFB#32 : Word).toNat = true ∧
    inSpans s.pending.writes (0xFFFFFFFC#32 : Word).toNat = true ∧ inSpans s.pending.writes (0xFFFFFFFF#32 : Word).toNat = true ∧
    p ∈ s.peers ∧ inSpans (p.footprint.reads ++ p.footprint.writes) (4#32 : Word).toNat = true ∧
    inSpans p.footprint.writes (5#32 : Word).toNat = true ∧
    (∀ a ∈ [(0xFFFFFFFB#32 : Word), 4#32], inSpans s.pending.writes a.toNat = false ∧
      (∀ q ∈ s.peers, inSpans q.footprint.writes a.toNat = false) ∧ inSpans s.nonOrdinary a.toNat = false) ∧
    (∀ a ∈ [(0xFFFFFFF8#32 : Word), 6#32], inSpans (s.pending.reads ++ s.pending.writes) a.toNat = false ∧
      (∀ q ∈ s.peers, inSpans (q.footprint.reads ++ q.footprint.writes) a.toNat = false) ∧
      inSpans s.nonOrdinary a.toNat = false) ∧ s.mem.wf = true := by
  refine ⟨by decide, by decide, by decide, by decide, .head _, by decide, by decide, ?_, ?_, by decide⟩ <;>
    simp only [List.forall_mem_cons, List.not_mem_nil, false_implies, implies_true, and_true] <;> decide

theorem witness_ConflictingInstancesFault :
    let f : Footprint := ⟨[⟨0xFFFFFFFF, 1⟩], []⟩
    let g : Footprint := ⟨[], [⟨0, 1⟩]⟩
    let h : Footprint := ⟨[⟨0, 1⟩], []⟩
    let s := { State.reset with dim := 0x00010001#32, dst := 4, peers := [⟨0x1000, g⟩] }
    composing.engine = .busy ∧ f.conflicts composing.pending = true ∧ (∀ p ∈ composing.peers, p.regBase ≠ 0x1000) ∧
    s.resetHeld = false ∧ s.engine = .idle ∧ (latchFootprint (s.capture 0x13000000#32)).conflicts g = true ∧
    ⟨0x1000, g⟩ ∈ s.peers ∧ h.conflicts g = true ∧ (∀ p ∈ s.peers, p.regBase ≠ 0x2000) := by decide

theorem witness_EveryStepKeepsTheInvariant :
    State.reset.inv = true ∧ composing.inv = true ∧ (nextOf (step composing)).isSome = true := by decide

end Sys2Proof.Tests
end

section
/-! PROOFS. The invariant of Safety clause by clause, and which clauses each kind of state change touches. -/

namespace Sys2Proof.Machine

/-- The clauses of `State.inv` under names, for proofs to take apart and put together (`inv_iff`). -/
structure State.Invariant (s : State) : Prop where
  mem : s.mem.wf = true
  ctrl : s.ctrl &&& 0xFFFFFFFE#32 = 0#32
  pixIn : s.pixIn &&& 0xFF000000#32 = 0#32
  errcode : s.errcode.toNat ≤ 9
  engine : s.engineConsistent = true
  apart : s.inFlightApart = true
  reset : s.resetConsistent = true

theorem inv_iff (s : State) : s.inv = true ↔ s.Invariant := by
  simp only [State.inv, State.reservedClear, Bool.and_eq_true, decide_eq_true_eq]
  constructor
  · rintro ⟨⟨⟨⟨⟨mem, ctrl, pixIn⟩, errcode⟩, engine⟩, apart⟩, reset⟩
    exact ⟨mem, ctrl, pixIn, errcode, engine, apart, reset⟩
  · rintro ⟨mem, ctrl, pixIn, errcode, engine, apart, reset⟩
    exact ⟨⟨⟨⟨⟨mem, ctrl, pixIn⟩, errcode⟩, engine⟩, apart⟩, reset⟩

/-! ### The clauses on the engine, on what is in flight and on the reset input -/

theorem engine_eq_idle_of_ne_busy {s : State} (h : s.engine ≠ .busy) : s.engine = .idle := by
  cases e : s.engine with
  | idle => rfl
  | busy => exact absurd e h

theorem engineConsistent_busy_iff {s : State} (h : s.engine = .busy) :
    s.engineConsistent = true ↔ s.done = false ∧ s.cmd = s.latch.cmd ∧ s.pending = latchFootprint s.latch := by
  simp [State.engineConsistent, h, and_assoc]

theorem engineConsistent_idle_iff {s : State} (h : s.engine = .idle) :
    s.engineConsistent = true ↔ s.pending = Footprint.none := by
  simp [State.engineConsistent, h]

theorem inFlightApart_iff (s : State) :
    s.inFlightApart = true ↔ (∀ p ∈ s.peers, s.pending.conflicts p.footprint = false) ∧
      footprintsApart (s.peers.map Peer.footprint) = true := by
  simp only [State.inFlightApart, footprintsApart_cons, List.forall_mem_map]

theorem peerConflict_eq_false_iff (f : Footprint) (s : State) :
    s.peerConflict f = false ↔ ∀ p ∈ s.peers, f.conflicts p.footprint = false := by
  simp [State.peerConflict]

/-- Nothing is asked of a device that is not held in reset (70_reset_and_hazards.md R260). -/
theorem resetConsistent_of_released {s : State} (h : s.resetHeld = false) : s.resetConsistent = true := by
  simp [State.resetConsistent, h]

/-- A command is in flight only while the reset input is released (R260). -/
theorem resetHeld_eq_false_of_busy {s : State} (h : s.resetConsistent = true) (hb : s.engine = .busy) :
    s.resetHeld = false := by
  simpa [State.resetConsistent, hb] using h

/-! ### What each kind of state change needs -/

/-- No clause speaks of the outside's own fields. -/
theorem State.Invariant.setOutside {s : State} (h : s.Invariant) (host : List HostOp) (seen : List Observation)
    (delay draws : Nat) (errs : List (Nat × AccessKind)) :
    ({ s with host := host, seen := seen, delay := delay, draws := draws, memErr := errs } : State).Invariant :=
  ⟨h.mem, h.ctrl, h.pixIn, h.errcode, h.engine, h.apart, h.reset⟩

theorem State.Invariant.setMem {s : State} (h : s.Invariant) {m : Memory} (hm : m.wf = true) :
    ({ s with mem := m } : State).Invariant :=
  ⟨hm, h.ctrl, h.pixIn, h.errcode, h.engine, h.apart, h.reset⟩

theorem State.Invariant.setCtrl {s : State} (h : s.Invariant) (hr : s.resetHeld = false) {v : Word}
    (hv : v &&& 0xFFFFFFFE#32 = 0#32) : ({ s with ctrl := v } : State).Invariant :=
  ⟨h.mem, hv, h.pixIn, h.errcode, h.engine, h.apart, resetConsistent_of_released hr⟩

/-- Of the operand registers only PIX_IN has reserved bits (10_state.md R26 to R30). -/
theorem State.Invariant.withOperands {s : State} (h : s.Invariant) (hr : s.resetHeld = false) {o : Latch}
    (hp : o.pixIn &&& 0xFF000000#32 = 0#32) : (s.withOperands o).Invariant :=
  ⟨h.mem, h.ctrl, hp, h.errcode, h.engine, h.apart, resetConsistent_of_released hr⟩

theorem State.Invariant.setResult {s : State} (h : s.Invariant) (hr : s.resetHeld = false) (v : Word) :
    ({ s with result := v } : State).Invariant :=
  ⟨h.mem, h.ctrl, h.pixIn, h.errcode, h.engine, h.apart, resetConsistent_of_released hr⟩

/-- DONE may not rise while a command is in flight (40_command_control.md R101). -/
theorem State.Invariant.setFlags {s : State} (h : s.Invariant) (hr : s.resetHeld = false) {d : Bool} (e o : Bool)
    (hd : s.done = false → d = false) : ({ s with done := d, err := e, ovr := o } : State).Invariant := by
  refine ⟨h.mem, h.ctrl, h.pixIn, h.errcode, ?_, h.apart, resetConsistent_of_released hr⟩
  by_cases hb : s.engine = .busy
  · obtain ⟨hdone, hcmd, hpending⟩ := (engineConsistent_busy_iff hb).1 h.engine
    refine (engineConsistent_busy_iff ?_).2 ⟨hd hdone, hcmd, hpending⟩
    exact hb
  · have hi := engine_eq_idle_of_ne_busy hb
    refine (engineConsistent_idle_iff ?_).2 ((engineConsistent_idle_iff hi).1 h.engine)
    exact hi

/-- A completed command leaves nothing pending, so nothing to conflict with (40_command_control.md R104). -/
theorem State.Invariant.endedWith {s : State} (h : s.Invariant) (hr : s.resetHeld = false) {c : BitVec 4}
    (hc : c.toNat ≤ 9) : (s.endedWith c).Invariant where
  mem := h.mem
  ctrl := h.ctrl
  pixIn := h.pixIn
  errcode := hc
  engine := (engineConsistent_idle_iff rfl).2 rfl
  apart := (inFlightApart_iff _).2 ⟨fun p _ => none_conflicts p.footprint, ((inFlightApart_iff s).1 h.apart).2⟩
  reset := resetConsistent_of_released hr

/-- An accepted footprint conflicts with none in flight elsewhere (60_exceptions.md R243). -/
theorem State.Invariant.accept {s : State} (h : s.Invariant) (hr : s.resetHeld = false) {w : Word} (n : Nat)
    (hp : s.peerConflict (latchFootprint (s.capture w)) = false) : (s.accept w n).Invariant where
  mem := h.mem
  ctrl := h.ctrl
  pixIn := h.pixIn
  errcode := h.errcode
  engine := (engineConsistent_busy_iff rfl).2 ⟨rfl, rfl, rfl⟩
  apart := (inFlightApart_iff _).2 ⟨(peerConflict_eq_false_iff _ s).1 hp, ((inFlightApart_iff s).1 h.apart).2⟩
  reset := resetConsistent_of_released hr

/-- The state a reset leaves meets the invariant whether the reset input is asserted or not (70_reset_and_hazards.md R260). -/
theorem State.Invariant.afterReset {s : State} (h : s.Invariant) (held : Bool) :
    ({ s.afterReset with resetHeld := held } : State).Invariant where
  mem := afterReset_wf h.mem
  ctrl := by simp
  pixIn := by simp
  errcode := by simp
  engine := (engineConsistent_idle_iff rfl).2 rfl
  apart := (inFlightApart_iff _).2 ⟨fun p _ => none_conflicts p.footprint, ((inFlightApart_iff s).1 h.apart).2⟩
  reset := by simp [State.resetConsistent]

theorem State.Invariant.releaseReset {s : State} (h : s.Invariant) : s.releaseReset.Invariant :=
  ⟨h.mem, h.ctrl, h.pixIn, h.errcode, h.engine, h.apart, resetConsistent_of_released rfl⟩

/-- The accepted footprint of another device conflicts with none in flight, here or elsewhere (60_exceptions.md R243). -/
theorem State.Invariant.consPeer {s : State} (h : s.Invariant) (base : Nat) {f : Footprint}
    (hs : (s.busy && f.conflicts s.pending) = false) (hp : s.peerConflict f = false) :
    ({ s with peers := ⟨base, f⟩ :: s.peers } : State).Invariant := by
  obtain ⟨hhere, helse⟩ := (inFlightApart_iff s).1 h.apart
  have hpending : s.pending.conflicts f = false := by
    by_cases hb : s.engine = .busy
    · rw [conflicts_comm]
      simpa [(busy_iff s).2 hb] using hs
    · rw [(engineConsistent_idle_iff (engine_eq_idle_of_ne_busy hb)).1 h.engine, none_conflicts]
  refine ⟨h.mem, h.ctrl, h.pixIn, h.errcode, h.engine, (inFlightApart_iff _).2 ⟨?_, ?_⟩, h.reset⟩
  · exact List.forall_mem_cons.2 ⟨hpending, hhere⟩
  · exact (footprintsApart_cons _ _).2 ⟨List.forall_mem_map.2 ((peerConflict_eq_false_iff f s).1 hp), helse⟩

/-- Fewer footprints in flight elsewhere are still apart. -/
theorem State.Invariant.sublistPeers {s : State} (h : s.Invariant) {ps : List Peer} (hps : ps.Sublist s.peers) :
    ({ s with peers := ps } : State).Invariant := by
  obtain ⟨hhere, helse⟩ := (inFlightApart_iff s).1 h.apart
  refine ⟨h.mem, h.ctrl, h.pixIn, h.errcode, h.engine, (inFlightApart_iff _).2 ⟨?_, ?_⟩, h.reset⟩
  · exact fun p hp => hhere p (hps.subset hp)
  · exact footprintsApart_sublist (hps.map Peer.footprint) helse

/-! ### The engine's step -/

theorem errBits_le (c : ErrCode) : (errBits c).toNat ≤ 9 := by cases c <;> decide

theorem State.Invariant.of_exec {i : Instr} {s t : State} (h : s.Invariant) (hr : s.resetHeld = false)
    (he : exec i s = .next t) : t.Invariant := by
  cases exec_ended he with
  | invalid _ ht => exact ht ▸ h.endedWith hr (errBits_le _)
  | plain _ ht => exact ht ▸ h.endedWith hr (by decide)
  | result _ _ v ht => exact ht ▸ (h.setResult hr v).endedWith hr (by decide)
  | memory _ m ht _ hw => exact ht ▸ (h.setMem (hw h.mem)).endedWith hr (by decide)
  | bus hv ht =>
    have hscrambled := h.setMem (finishBusError_wf hv h.mem)
    have hdrawn := hscrambled.setOutside s.host s.seen s.delay (s.draws + 1) s.memErr
    rw [ht, State.finishBusError, finish_eq_endedWith]
    exact hdrawn.endedWith hr (by decide)

theorem State.Invariant.of_engineStep {s t : State} (h : s.Invariant) (hr : s.resetHeld = false)
    (he : engineStep s = .next t) : t.Invariant := by
  rcases engineStep_cases s with ⟨i, -, hexec⟩ | ⟨-, hend⟩
  · exact h.of_exec hr (hexec ▸ he)
  · obtain rfl := Host.Outcome.next.inj (hend.symm.trans he)
    exact h.endedWith hr (by decide)

/-! ### The outside's step -/

theorem State.Invariant.of_writeCtrl {v : Word} {s t : State} (h : s.Invariant) (hr : s.resetHeld = false)
    (he : s.writeCtrl v = .next t) : t.Invariant := by
  rcases writeCtrl_next he with ⟨-, -, rfl⟩ | ⟨-, rfl⟩
  · exact h.afterReset false
  · refine h.setCtrl hr ?_
    rw [BitVec.and_assoc]
    exact BitVec.and_zero

theorem State.Invariant.of_issue {w : Word} {s t : State} (h : s.Invariant) (hr : s.resetHeld = false)
    (he : s.issue w = .next t) : t.Invariant := by
  rcases issue_next he with ⟨-, rfl⟩ | ⟨-, hp, rfl⟩
  · exact h.setFlags hr s.err true id
  · exact (h.setOutside s.host s.seen s.delay (s.draws + 1) s.memErr).accept hr _ hp

/-- A register write in a device that is not held in reset. The latch `s.capture 0` with one field replaced names the operand
registers after the write of that one. -/
theorem State.Invariant.of_writeReg {r : Reg} {v : Word} {s t : State} (h : s.Invariant) (hr : s.resetHeld = false)
    (he : s.writeReg r v = .next t) : t.Invariant := by
  cases r with
  | ctrl => exact h.of_writeCtrl hr he
  | cmd => exact h.of_issue hr he
  | status =>
    obtain rfl := Host.Outcome.next.inj he
    exact h.setFlags hr _ _ fun hd => by rw [hd, Bool.false_and]
  | pixIn =>
    have hmasked : v &&& 0x00FFFFFF#32 &&& 0xFF000000#32 = 0#32 := by
      rw [BitVec.and_assoc]
      exact BitVec.and_zero
    exact Host.Outcome.next.inj he ▸ h.withOperands hr (o := { s.capture 0 with pixIn := v &&& 0x00FFFFFF#32 }) hmasked
  | src0 => exact Host.Outcome.next.inj he ▸ h.withOperands hr (o := { s.capture 0 with src0 := v }) h.pixIn
  | src1 => exact Host.Outcome.next.inj he ▸ h.withOperands hr (o := { s.capture 0 with src1 := v }) h.pixIn
  | src2 => exact Host.Outcome.next.inj he ▸ h.withOperands hr (o := { s.capture 0 with src2 := v }) h.pixIn
  | dst => exact Host.Outcome.next.inj he ▸ h.withOperands hr (o := { s.capture 0 with dst := v }) h.pixIn
  | dim => exact Host.Outcome.next.inj he ▸ h.withOperands hr (o := { s.capture 0 with dim := v }) h.pixIn
  | edgeIn => exact Host.Outcome.next.inj he ▸ h.withOperands hr (o := { s.capture 0 with edgeIn := v }) h.pixIn
  | pos => exact Host.Outcome.next.inj he ▸ h.withOperands hr (o := { s.capture 0 with pos := v }) h.pixIn
  | id => exact Host.Outcome.next.inj he ▸ h
  | result => exact Host.Outcome.next.inj he ▸ h
  | unassigned => exact Host.Outcome.next.inj he ▸ h

theorem State.Invariant.observe {s : State} (h : s.Invariant) (o : Observation) : (s.observe o).Invariant :=
  h.setOutside s.host (o :: s.seen) s.delay s.draws s.memErr

theorem State.Invariant.completePeer {s : State} (h : s.Invariant) (base : Nat) (stores : List (BitVec 32 × Byte)) :
    (s.completePeer base stores).Invariant := by
  rcases completePeer_cases base stores s with he | ⟨p, -, he⟩ <;> rw [he]
  · exact h
  · exact (h.setMem (storeInside_wf _ stores h.mem)).sublistPeers List.filter_sublist

theorem State.Invariant.of_hostEffect {op : HostOp} {s t : State} (h : s.Invariant) (he : hostEffect op s = .next t) :
    t.Invariant := by
  cases op with
  | writeReg width addr v =>
    obtain ⟨offset, -, -, hwrite⟩ := portAccess_next he
    rcases portWrite_next hwrite with ⟨-, rfl⟩ | ⟨hr, hwrite⟩
    · exact h
    · exact h.of_writeReg hr hwrite
  | readReg width addr =>
    obtain ⟨offset, -, -, hread⟩ := portAccess_next he
    exact Host.Outcome.next.inj hread ▸ h.observe _
  | wait =>
    obtain rfl := Host.Outcome.next.inj he
    rw [poll_eq]
    exact h.setOutside _ _ s.delay s.draws s.memErr
  | memWrite addr v =>
    obtain ⟨-, rfl⟩ := hostStore_next he
    exact h.setMem (write_wf h.mem v addr.isLt)
  | memRead addr =>
    obtain ⟨-, rfl⟩ := hostLoad_next he
    exact h.observe _
  | assertReset =>
    rcases assertReset_next he with ⟨-, rfl⟩ | ⟨-, -, rfl⟩
    · exact h
    · exact h.afterReset true
  | releaseReset => exact Host.Outcome.next.inj he ▸ h.releaseReset
  | memAnswers errs =>
    exact Host.Outcome.next.inj he ▸ h.setOutside s.host s.seen s.delay s.draws errs
  | peerAccept base f =>
    rcases acceptPeer_next he with rfl | ⟨hs, hp, rfl⟩
    · exact h
    · exact h.consPeer base hs hp
  | peerComplete base stores => exact Host.Outcome.next.inj he ▸ h.completePeer base stores

theorem State.Invariant.of_hostStep {s t : State} (h : s.Invariant) (he : hostStep s = .next t) : t.Invariant := by
  unfold hostStep at he
  split at he
  · exact Host.Outcome.next.inj he ▸ h
  · exact (h.setOutside _ s.seen _ s.draws s.memErr).of_hostEffect he

/-- When it is the engine's turn, the reset input is released: otherwise the engine would be idle. -/
theorem resetHeld_eq_false_of_engineTurn {s : State} (h : s.Invariant) (ht : s.engineTurn = true) :
    s.resetHeld = false := by
  rw [State.engineTurn, Bool.and_eq_true, busy_iff] at ht
  exact resetHeld_eq_false_of_busy h.reset ht.1

theorem State.Invariant.of_step {s t : State} (h : s.Invariant) (he : step s = .next t) : t.Invariant := by
  rcases step_cases s with ⟨hturn, hstep⟩ | ⟨-, hstep⟩ <;> rw [hstep] at he
  · exact h.of_engineStep (resetHeld_eq_false_of_engineTurn h hturn) he
  · exact h.of_hostStep he

/-- Settles O59: every clause of the invariant is kept by the engine's step and by every operation of the outside. -/
theorem everyStepKeepsTheInvariant : Obligations.EveryStepKeepsTheInvariant := fun s t hs he =>
  (inv_iff t).2 (((inv_iff s).1 hs).of_step he)

/-- Settles O60: the reset state is one concrete state, so the invariant's clauses are evaluated on it. -/
theorem resetMeetsTheInvariant : Obligations.ResetMeetsTheInvariant := by
  unfold Obligations.ResetMeetsTheInvariant
  decide

end Sys2Proof.Machine
end

section
/-! PROOFS. What a command leaves of RESULT and takes from the operand registers (10_state.md R31, R33). -/

namespace Sys2Proof.Machine

/-- Settles O44: of the ways a command can end, only the one with a result changes RESULT. -/
theorem resultIsWrittenOnlyBySuccess : Obligations.ResultIsWrittenOnlyBySuccess := by
  intro i s t he hne
  cases exec_ended he with
  | invalid _ ht => exact absurd (congrArg State.result ht) hne
  | plain _ ht => exact absurd (congrArg State.result ht) hne
  | memory _ m ht _ _ => exact absurd (congrArg State.result ht) hne
  | bus _ ht => exact absurd (congrArg State.result ht) hne
  | result _ hi v ht =>
    refine ⟨congrArg State.errcode ht, ?_⟩
    cases i with
    | nop _ | deblock _ _ _ _ _ | compose _ => exact absurd hi Bool.false_ne_true
    | qlookup _ _ | edge _ _ _ | lutrd _ _ _ | cvt _ | ups _ => trivial

/-! ### Commands see the latch, not the operand registers -/

@[simp] theorem withOperands_latch (o : Latch) (s : State) : (s.withOperands o).latch = s.latch := rfl
@[simp] theorem withOperands_mem (o : Latch) (s : State) : (s.withOperands o).mem = s.mem := rfl
@[simp] theorem withOperands_memErr (o : Latch) (s : State) : (s.withOperands o).memErr = s.memErr := rfl

theorem withOperands_finish (code : ErrCode) (o : Latch) (s : State) :
    (s.withOperands o).finish code = (s.finish code).withOperands o := rfl

theorem withOperands_finishRegister (code : ErrCode) (v : Word) (o : Latch) (s : State) :
    (s.withOperands o).finishRegister code v = (s.finishRegister code v).withOperands o := by
  unfold State.finishRegister
  split <;> rfl

/-- A memory command ignores the operand registers when its way of completing does. -/
theorem withOperands_runMemoryCommand {α : Type} (i : Instr) (body : Option α) {done done' : α → State} (o : Latch)
    (s : State) (hd : ∀ x, done' x = (done x).withOperands o) :
    runMemoryCommand i body done' (s.withOperands o) = mapNext (State.withOperands o) (runMemoryCommand i body done s) := by
  have hn : (s.withOperands o).touchesNonOrdinary (footprintOf i s.latch) =
      s.touchesNonOrdinary (footprintOf i s.latch) := rfl
  simp only [runMemoryCommand, withOperands_latch, hn]
  split
  · split
    · rfl
    · cases body with
      | none => rfl
      | some x => exact congrArg Host.Outcome.next (hd x)
  · rfl

/-- Settles O45: every command reads the latch, which the operand registers are no part of. -/
theorem commandsIgnoreLiveOperandRegisters : Obligations.CommandsIgnoreLiveOperandRegisters := by
  intro i s o
  cases i with
  | nop resv => rfl
  | qlookup resv q => exact congrArg Host.Outcome.next (withOperands_finishRegister _ _ o s)
  | edge resv qm sq => exact congrArg Host.Outcome.next (withOperands_finishRegister _ _ o s)
  | lutrd resv tsel idx => exact congrArg Host.Outcome.next (withOperands_finishRegister _ _ o s)
  | cvt resv => exact congrArg Host.Outcome.next (withOperands_finishRegister _ _ o s)
  | deblock resv v h qm sq => exact withOperands_runMemoryCommand _ _ o s fun m => rfl
  | ups resv => exact withOperands_runMemoryCommand _ _ o s fun v => withOperands_finishRegister .ok v o s
  | compose resv => exact withOperands_runMemoryCommand _ _ o s fun m => rfl

end Sys2Proof.Machine
end

section
/-! PROOFS. The register port at a legal offset, and the registers after a reset (10_state.md R20 to R40). -/

namespace Sys2Proof.Machine

/-- A write at the legal offset of a register, in a device that is not held in reset, writes that register (10_state.md R20). -/
theorem hostEffect_writeReg {k : Nat} (hk : k < 64) (ha : k % 4 = 0) {r : Reg} (hreg : regAt (BitVec.ofNat 6 k) = r)
    {s : State} (hr : s.resetHeld = false) (v : Word) :
    hostEffect (.writeReg 4 (Config.regBase + k) v) s = s.writeReg r v := by
  rw [hostEffect, portAccess_regBase_add hk ha, hreg, State.portWrite, hr, if_neg Bool.false_ne_true]

/-- A read at the legal offset of a register records that register's value (R35). -/
theorem hostEffect_readReg {offset : BitVec 6} (ha : offset.toNat % 4 = 0) {r : Reg} (hreg : regAt offset = r) (s : State) :
    hostEffect (.readReg 4 (Config.regBase + offset.toNat)) s = .next (s.observe (.register offset (s.readReg r))) := by
  rw [hostEffect, portAccess_regBase_add offset.isLt ha, BitVec.ofNat_toNat, BitVec.setWidth_eq, hreg]

/-- Settles O48: STATUS is at offset 0x08, and each flag is kept unless its bit of the word is 1. -/
theorem statusWriteClearsFlags : Obligations.StatusWriteClearsFlags := by
  intro v s hr
  have clear (b c : Bool) : (b && !c) = if c then false else b := by cases c <;> simp
  rw [hostEffect_writeReg (r := .status) (by decide) (by decide) rfl hr, State.writeReg, State.clearStatus,
    clear, clear, clear]

theorem and_one_eq_ite (v : Word) : v &&& 1#32 = if v.getLsbD 0 then 1#32 else 0#32 := by
  rw [BitVec.and_one_eq_setWidth_ofBool_getLsbD]
  cases v.getLsbD 0 <;> rfl

/-! ### Both ways to reset -/

/-- SRST resets at once unless the abort is refused (70_reset_and_hazards.md R261). -/
theorem hostEffect_softReset {v : Word} {s : State} (hv : v.getLsbD 1 = true) (hr : s.resetHeld = false)
    (ho : s.touchesNonOrdinary s.abortedFootprint = false) :
    hostEffect (.writeReg 4 (Config.regBase + 0x04) v) s = .next s.afterReset := by
  rw [hostEffect_writeReg (r := .ctrl) (by decide) (by decide) rfl hr]
  simp [State.writeReg, State.writeCtrl, State.resetDevice, hv, ho]

/-- The reset input makes the same change and holds it, unless the abort is refused (R260). -/
theorem hostEffect_assertReset {s : State} (hr : s.resetHeld = false)
    (ho : s.touchesNonOrdinary s.abortedFootprint = false) :
    hostEffect .assertReset s = .next { s.afterReset with resetHeld := true } := by
  simp [hostEffect, State.assertReset, hr, ho]

/-- Settles O49: with SRST 0 bit 0 of the word is kept, and with SRST 1 both ways to reset leave `State.afterReset`. -/
theorem ctrlWriteStoresInterruptEnable : Obligations.CtrlWriteStoresInterruptEnable := by
  intro v s hr
  refine ⟨fun hv => ?_, fun hv ho => ?_⟩
  · rw [hostEffect_writeReg (r := .ctrl) (by decide) (by decide) rfl hr, State.writeReg, State.writeCtrl, hv,
      if_neg Bool.false_ne_true, and_one_eq_ite]
  · exact ⟨s.afterReset, hostEffect_softReset hv hr ho, hostEffect_assertReset hr ho, rfl, rfl, rfl⟩

/-- Every register reads its reset value after a reset (10_state.md R40). -/
theorem readReg_afterReset (s : State) (r : Reg) : s.afterReset.readReg r = State.reset.readReg r := by
  cases r <;> rfl

@[simp] theorem irq_afterReset (s : State) : s.afterReset.irq = false := by simp [State.irq, State.irqEnabled]

/-- An abort leaves memory alone outside the write footprint of a command in flight that passes validation (R262). -/
theorem inSpans_abortedFootprint {s : State} {a : Nat}
    (h : s.engine = .idle ∨ (∀ i, decode s.latch.cmd ≠ .ok i) ∨
      ∃ i, decode s.latch.cmd = .ok i ∧
        (validate i s.latch ≠ .ok ∨ inSpans (footprintOf i s.latch).writes a = false)) :
    inSpans s.abortedFootprint.writes a = false := by
  unfold State.abortedFootprint
  split
  · rename_i hbusy
    split
    · rename_i i hi
      split
      · rename_i hv
        rcases h with hidle | hillegal | ⟨j, hj, hinvalid | hout⟩
        · exact absurd (hidle.symm.trans hbusy) (by decide)
        · exact absurd hi (hillegal i)
        · obtain rfl := Except.ok.inj (hi.symm.trans hj)
          exact absurd hv hinvalid
        · obtain rfl := Except.ok.inj (hi.symm.trans hj)
          exact hout
      · rfl
    · rfl
  · rfl

/-- Settles O55: both resets leave `State.afterReset`. -/
theorem resetsRestoreTheRegisters : Obligations.ResetsRestoreTheRegisters := by
  intro v s hv hr ho
  refine ⟨s.afterReset, hostEffect_softReset hv hr ho, hostEffect_assertReset hr ho, rfl, readReg_afterReset s, rfl, rfl,
    irq_afterReset s, fun a ha => ?_⟩
  exact scramble_read_outside s.draws _ s.mem (inSpans_abortedFootprint ha)

/-- Settles O54: register by register. -/
theorem resetStateReadsAsListed : Obligations.ResetStateReadsAsListed := by
  refine ⟨rfl, fun r hr => ?_, rfl, rfl, rfl⟩
  cases r with
  | id => exact absurd rfl hr
  | status => decide
  | _ => rfl

/-! ### The layout of STATUS -/

theorem getLsbD_append_ofBool_zero {n : Nat} (x : BitVec n) (b : Bool) : (x ++ BitVec.ofBool b).getLsbD 0 = b := by
  rw [BitVec.getLsbD_append]
  simp

theorem getLsbD_append_ofBool_succ {n : Nat} (x : BitVec n) (b : Bool) (i : Nat) :
    (x ++ BitVec.ofBool b).getLsbD (i + 1) = x.getLsbD i := by
  simp [BitVec.getLsbD_append]

theorem extract_append_ofBool_succ {n : Nat} (x : BitVec n) (b : Bool) (i k : Nat) :
    (x ++ BitVec.ofBool b).extractLsb' (i + 1) k = x.extractLsb' i k :=
  Laws.extract_append_high x (BitVec.ofBool b) (by omega)

/-- The bits of STATUS above its four flags: ERRCODE between bits that read 0 (10_state.md R23). -/
theorem extract_statusWord (s : State) (i k : Nat) :
    s.statusWord.extractLsb' (i + 4) k = (0#20 ++ s.errcode ++ 0#4).extractLsb' i k :=
  calc s.statusWord.extractLsb' (i + 4) k
    _ = _ := extract_append_ofBool_succ _ s.busy (i + 3) k
    _ = _ := extract_append_ofBool_succ _ s.done (i + 2) k
    _ = _ := extract_append_ofBool_succ _ s.err (i + 1) k
    _ = _ := extract_append_ofBool_succ _ s.ovr i k

/-- Settles O50: each field is reached past the fields below it in `State.statusWord`. -/
theorem statusReadLayout : Obligations.StatusReadLayout := by
  intro s
  refine ⟨?_, ?_, ?_, ?_, ?_, ?_, ?_⟩
  · exact getLsbD_append_ofBool_zero _ s.busy
  · exact (getLsbD_append_ofBool_succ _ s.busy 0).trans (getLsbD_append_ofBool_zero _ s.done)
  · exact (getLsbD_append_ofBool_succ _ s.busy 1).trans <|
      (getLsbD_append_ofBool_succ _ s.done 0).trans (getLsbD_append_ofBool_zero _ s.err)
  · exact (getLsbD_append_ofBool_succ _ s.busy 2).trans <| (getLsbD_append_ofBool_succ _ s.done 1).trans <|
      (getLsbD_append_ofBool_succ _ s.err 0).trans (getLsbD_append_ofBool_zero _ s.ovr)
  · exact (extract_statusWord s 0 4).trans <|
      (Laws.extract_append_low (0#20 ++ s.errcode) 0#4 (by decide)).trans (Laws.extract_all 0#4)
  · exact (extract_statusWord s 4 4).trans <|
      (Laws.extract_append_high (0#20 ++ s.errcode) 0#4 (by decide)).trans <|
      (Laws.extract_append_low 0#20 s.errcode (by decide)).trans (Laws.extract_all s.errcode)
  · exact (extract_statusWord s 8 20).trans <|
      (Laws.extract_append_high (0#20 ++ s.errcode) 0#4 (by decide)).trans (Laws.extract_append_top 0#20 s.errcode)

/-! ### The register map -/

/-- Settles O51: the register of each offset is `regAt` evaluated there. -/
theorem registerWritesReadBack : Obligations.RegisterWritesReadBack := by
  refine ⟨fun v s hr => ?_, fun s => ?_⟩
  · refine ⟨?_, ?_, ?_, ?_, ?_, ?_, ?_, ?_, ?_, ?_, ?_, ?_, ?_⟩ <;>
      exact hostEffect_writeReg (by decide) (by decide) rfl hr v
  · refine ⟨?_, ?_, ?_, ?_, ?_, ?_, ?_, ?_, ?_, ?_, ?_, ?_, ?_, ?_, ?_, ?_⟩ <;>
      exact hostEffect_readReg (by decide) rfl s

end Sys2Proof.Machine
end

section
/-! PROOFS. Accesses the model refuses: register accesses that R61 forbids, and memory that is not ordinary (20_memory.md R61,
R65). Then the bytes no command may change (R66). -/

namespace Sys2Proof.Machine

/-! ### Register accesses -/

/-- Outside the block the register port refuses every access (log entry 10). -/
theorem portAccess_outside {addr : Nat} (h : addr < Config.regBase ∨ Config.regBase + 64 ≤ addr) (width : Nat)
    (act : BitVec 6 → Result) : portAccess width addr act = .refused .outsideRegisterBlock := by
  rw [portAccess, (portOffset_eq_none_iff addr).2 h]

/-- Inside the block the register port refuses another width and an offset between registers (20_memory.md R61). -/
theorem portAccess_illegal {width k : Nat} (hk : k < 64) (h : width ≠ 4 ∨ k % 4 ≠ 0) (act : BitVec 6 → Result) :
    portAccess width (Config.regBase + k) act = .refused .illegalRegisterAccess := by
  have hl : legalAccess width (BitVec.ofNat 6 k) = false := by
    simpa [legalAccess, Nat.mod_eq_of_lt hk, Decidable.imp_iff_not_or] using h
  simp [portAccess, hk, hl]

/-- Settles O52: reads and writes go through one port, which refuses both before either acts. -/
theorem illegalRegisterAccessesAreRefused : Obligations.IllegalRegisterAccessesAreRefused :=
  ⟨fun _ _ _ _ hk h => ⟨portAccess_illegal hk h _, portAccess_illegal hk h _⟩,
    fun _ _ _ _ h => ⟨portAccess_outside h _ _, portAccess_outside h _ _⟩⟩

/-! ### Memory that is not ordinary -/

/-- A command without a footprint touches no memory. -/
@[simp] theorem touchesNonOrdinary_none (s : State) : s.touchesNonOrdinary Footprint.none = false := rfl

theorem runMemoryCommand_refused {α : Type} {i : Instr} {body : Option α} {done : α → State} {s : State}
    (hv : validate i s.latch = .ok) (ho : s.touchesNonOrdinary (footprintOf i s.latch) = true) :
    runMemoryCommand i body done s = .refused .nonOrdinaryMemory := by
  simp [runMemoryCommand, hv, ho]

/-- A memory command is refused for nothing but memory that is not ordinary. -/
theorem runMemoryCommand_answers {α : Type} {i : Instr} {body : Option α} {done : α → State} {s : State}
    (h : validate i s.latch ≠ .ok ∨ s.touchesNonOrdinary (footprintOf i s.latch) = false) :
    ∃ t, runMemoryCommand i body done s = .next t := by
  by_cases hv : validate i s.latch = .ok
  · have ho := h.resolve_left (not_not_intro hv)
    cases body with
    | none => exact ⟨_, runMemoryCommand_none hv ho rfl⟩
    | some x => exact ⟨_, runMemoryCommand_some hv ho rfl⟩
  · exact ⟨_, runMemoryCommand_invalid hv⟩

theorem exec_refused {i : Instr} {s : State} (hv : validate i s.latch = .ok)
    (ho : s.touchesNonOrdinary (footprintOf i s.latch) = true) : exec i s = .refused .nonOrdinaryMemory := by
  cases i with
  | deblock resv v h qm sq => exact runMemoryCommand_refused hv ho
  | ups resv => exact runMemoryCommand_refused hv ho
  | compose resv => exact runMemoryCommand_refused hv ho
  | nop _ | qlookup _ _ | edge _ _ _ | lutrd _ _ _ | cvt _ =>
    exact absurd ((touchesNonOrdinary_none s).symm.trans ho) Bool.false_ne_true

theorem exec_answers {i : Instr} {s : State}
    (h : validate i s.latch ≠ .ok ∨ s.touchesNonOrdinary (footprintOf i s.latch) = false) : ∃ t, exec i s = .next t := by
  cases i with
  | deblock resv v hp qm sq => exact runMemoryCommand_answers h
  | ups resv => exact runMemoryCommand_answers h
  | compose resv => exact runMemoryCommand_answers h
  | nop _ | qlookup _ _ | edge _ _ _ | lutrd _ _ _ | cvt _ => exact ⟨_, rfl⟩

/-- Aborting a command that passes validation leaves its whole footprint open (70_reset_and_hazards.md R262). -/
theorem abortedFootprint_of_valid {i : Instr} {s : State} (hb : s.engine = .busy) (hi : decode s.latch.cmd = .ok i)
    (hv : validate i s.latch = .ok) : s.abortedFootprint = footprintOf i s.latch := by
  simp [State.abortedFootprint, hb, hi, hv]

theorem hostStore_refused {a : BitVec 32} {s : State} (v : Byte) (ho : inSpans s.nonOrdinary a.toNat = true)
    (hz : s.writeHazard a.toNat = false) : s.hostStore a v = .refused .nonOrdinaryMemory := by
  simp [State.hostStore, ho, hz]

theorem hostLoad_refused {a : BitVec 32} {s : State} (ho : inSpans s.nonOrdinary a.toNat = true)
    (hz : s.readHazard a.toNat = false) : s.hostLoad a = .refused .nonOrdinaryMemory := by
  simp [State.hostLoad, ho, hz]

/-- Both ways to reset refuse to abort a command that may have touched memory which is not ordinary (20_memory.md R65). -/
theorem softReset_refused {v : Word} {s : State} (hv : v.getLsbD 1 = true) (hr : s.resetHeld = false)
    (ho : s.touchesNonOrdinary s.abortedFootprint = true) :
    hostEffect (.writeReg 4 (Config.regBase + 0x04) v) s = .refused .nonOrdinaryMemory := by
  rw [hostEffect_writeReg (r := .ctrl) (by decide) (by decide) rfl hr]
  simp [State.writeReg, State.writeCtrl, State.resetDevice, hv, ho]

theorem assertReset_refused {s : State} (hr : s.resetHeld = false) (ho : s.touchesNonOrdinary s.abortedFootprint = true) :
    s.assertReset = .refused .nonOrdinaryMemory := by
  simp [State.assertReset, hr, ho]

/-- Settles O41: only the three commands with a footprint can be refused, and an abort leaves the footprint of the command in
flight. -/
theorem nonOrdinaryMemoryIsRefused : Obligations.NonOrdinaryMemoryIsRefused := by
  refine ⟨fun i s hv ho => exec_refused hv ho, fun i s h => exec_answers h, fun addr v s ho => ?_,
    fun v i s hb hr hi hv ho => ?_⟩
  · exact ⟨fun hz => hostStore_refused v ho hz, fun hz => hostLoad_refused ho hz⟩
  · rw [← abortedFootprint_of_valid hb hi hv] at ho
    exact ⟨fun hv1 => softReset_refused hv1 hr ho, assertReset_refused hr ho⟩

/-! ### Bytes outside the write footprint -/

/-- Settles O42: of the ways a command can end, a new memory and a bus error keep those bytes, and the others keep memory. -/
theorem noCommandWritesOutsideItsFootprint : Obligations.NoCommandWritesOutsideItsFootprint := by
  intro i s t he a ha
  cases exec_ended he with
  | invalid _ ht => exact ht ▸ rfl
  | plain _ ht => exact ht ▸ rfl
  | result _ _ v ht => exact ht ▸ rfl
  | memory _ m ht ho _ => exact ht ▸ ho a ha
  | bus _ ht => exact ht ▸ scramble_read_outside s.draws _ s.mem ha

end Sys2Proof.Machine
end

section
/-! PROOFS. Two runs of one command over memories that agree on its read footprint (20_memory.md R66, R69). Both runs make the same
accesses and store the same bytes, so the set of addresses where the two memories agree only grows. -/

namespace Sys2Proof.Machine

/-- Two memories in canonical form that hold the same bytes at the addresses of `P`. -/
structure AgreeOn (P : Set Nat) (m m' : Memory) : Prop where
  wf : m.wf = true
  wf' : m'.wf = true
  reads : ∀ a ∈ P, m'.read a = m.read a

theorem AgreeOn.mono {P Q : Set Nat} {m m' : Memory} (h : AgreeOn P m m') (hs : Q ⊆ P) : AgreeOn Q m m' :=
  ⟨h.wf, h.wf', fun a ha => h.reads a (hs ha)⟩

/-- The same byte stored in both memories makes them agree at its address too. -/
theorem AgreeOn.write {P : Set Nat} {m m' : Memory} (h : AgreeOn P m m') {a : Nat} (v : Byte)
    (ha : a < Config.addressLimit) : AgreeOn (insert a P) (m.write a v) (m'.write a v) := by
  refine ⟨write_wf h.wf v ha, write_wf h.wf' v ha, fun x hx => ?_⟩
  rw [read_write h.wf', read_write h.wf]
  split
  · rfl
  · rename_i hne
    exact h.reads x (hx.resolve_left hne)

/-- Two runs of a loop whose passes need agreement on `S`, and in which each pass adds agreement on its own addresses. -/
theorem AgreeOn.after_forEach {α : Type} {f : α → Memory → Option Memory} {S : Set Nat} {Q : α → Set Nat} {xs : List α}
    (hf : ∀ x ∈ xs, ∀ P, S ⊆ P → ∀ k k' l l', AgreeOn P k k' → f x k = some l → f x k' = some l' → AgreeOn (P ∪ Q x) l l')
    {P : Set Nat} (hS : S ⊆ P) {m m' n n' : Memory} (h : AgreeOn P m m') (hn : forEach f xs m = some n)
    (hn' : forEach f xs m' = some n') : AgreeOn (P ∪ {a | ∃ x ∈ xs, a ∈ Q x}) n n' := by
  induction xs generalizing P m m' with
  | nil =>
    obtain rfl := Option.some.inj hn
    obtain rfl := Option.some.inj hn'
    exact h.mono (by simp)
  | cons x xs ih =>
    rw [forEach_cons, Option.bind_eq_some_iff] at hn hn'
    obtain ⟨k, hk, hn⟩ := hn
    obtain ⟨k', hk', hn'⟩ := hn'
    have hx := hf x List.mem_cons_self P hS m m' k k' h hk hk'
    have hxs := ih (fun y hy => hf y (List.mem_cons_of_mem _ hy)) (hS.trans Set.subset_union_left) hx hn hn'
    refine hxs.mono ?_
    rintro a (ha | ⟨y, hy, ha⟩)
    · exact .inl (.inl ha)
    · rcases List.mem_cons.1 hy with rfl | hy
      · exact .inl (.inr ha)
      · exact .inr ⟨y, hy, ha⟩

/-! ### Unspecified footprints -/

/-- A draw gives an address the same free value in both memories (log entry 5). -/
theorem AgreeOn.after_scrambleFrom (draw : Nat) {n a : Nat} {P : Set Nat} {m m' : Memory} (h : AgreeOn P m m')
    (hr : n = 0 ∨ a + n ≤ Config.addressLimit) :
    AgreeOn (P ∪ {x | a ≤ x ∧ x < a + n}) (Memory.scrambleFrom draw n a m) (Memory.scrambleFrom draw n a m') := by
  induction n generalizing a P m m' with
  | zero =>
    refine h.mono ?_
    rintro x (hx | ⟨hlo, hhi⟩)
    · exact hx
    · omega
  | succ n ih =>
    refine (ih (h.write (Config.freeByte draw a) (by omega)) (by omega)).mono ?_
    rintro x (hx | ⟨hlo, hhi⟩)
    · exact .inl (.inr hx)
    · rcases Nat.eq_or_lt_of_le hlo with rfl | hlt
      · exact .inl (.inl rfl)
      · exact .inr ⟨hlt, by omega⟩

theorem AgreeOn.after_scramble (draw : Nat) {rs : List Span} {P : Set Nat} {m m' : Memory} (h : AgreeOn P m m')
    (hr : ∀ r ∈ rs, r.valid = true) :
    AgreeOn (P ∪ {a | inSpans rs a = true}) (m.scramble draw rs) (m'.scramble draw rs) := by
  induction rs generalizing P m m' with
  | nil => exact h.mono (by simp [inSpans])
  | cons r rs ih =>
    have hfirst := h.after_scrambleFrom draw ((valid_iff r).1 (hr r List.mem_cons_self))
    refine (ih hfirst fun q hq => hr q (List.mem_cons_of_mem _ hq)).mono ?_
    rintro a (ha | ha)
    · exact .inl (.inl ha)
    · obtain ⟨q, hq, hin⟩ := (inSpans_iff _ a).1 ha
      rcases List.mem_cons.1 hq with rfl | hq
      · exact .inl (.inr hin)
      · exact .inr ((inSpans_iff _ a).2 ⟨q, hq, hin⟩)

/-! ### DEBLOCK -/

/-- The memory after four samples are stored on a line. -/
def LineAddr.store (q : LineAddr) (v : Samples) (m : Memory) : Memory :=
  (((m.write q.a v.a).write q.b v.b).write q.c v.c).write q.d v.d

theorem LineAddr.filter_eq_some {errs : List (Nat × AccessKind)} {s : Nat} {q : LineAddr} {m n : Memory}
    (h : q.filter errs s m = some n) : n = q.store (edgeFilter (q.samples m) s) m :=
  filterAt_eq_some h

/-- A line takes the same samples in both memories. -/
theorem AgreeOn.after_store {q : LineAddr} {P : Set Nat} {m m' : Memory} (h : AgreeOn P m m') (hg : q.Good) (v : Samples) :
    AgreeOn P (q.store v m) (q.store v m') := by
  have ha := h.write v.a (hg.inside q.a (.inl rfl))
  have hb := ha.write v.b (hg.inside q.b (.inr (.inl rfl)))
  have hc := hb.write v.c (hg.inside q.c (.inr (.inr (.inl rfl))))
  have hd := hc.write v.d (hg.inside q.d (.inr (.inr (.inr rfl))))
  exact hd.mono fun x hx => .inr (.inr (.inr (.inr hx)))

/-- EdgeFilter computes the same samples from both memories, where they agree on the line. -/
theorem AgreeOn.after_filter {errs : List (Nat × AccessKind)} {s : Nat} {q : LineAddr} {P : Set Nat} {m m' n n' : Memory}
    (h : AgreeOn P m m') (hq : ∀ a, q.has a → a ∈ P) (hg : q.Good) (hn : q.filter errs s m = some n)
    (hn' : q.filter errs s m' = some n') : AgreeOn P n n' := by
  have hsame : q.samples m' = q.samples m := q.samples_congr fun a ha => h.reads a (hq a ha)
  rw [LineAddr.filter_eq_some hn, LineAddr.filter_eq_some hn', hsame]
  exact h.after_store hg _

/-- A loop of EdgeFilters over lines of `P` keeps agreement on `P`. -/
theorem AgreeOn.after_forEach_filter {α : Type} {errs : List (Nat × AccessKind)} {s : Nat} {q : α → LineAddr} {xs : List α}
    {P : Set Nat} {m m' n n' : Memory} (h : AgreeOn P m m') (hq : ∀ x ∈ xs, ∀ a, (q x).has a → a ∈ P)
    (hg : ∀ x ∈ xs, (q x).Good) (hn : forEach (fun x => (q x).filter errs s) xs m = some n)
    (hn' : forEach (fun x => (q x).filter errs s) xs m' = some n') : AgreeOn P n n' := by
  refine (AgreeOn.after_forEach (S := P) (Q := fun _ => ∅) ?_ subset_rfl h hn hn').mono Set.subset_union_left
  intro x hx R hPR k k' l l' hk hl hl'
  rw [Set.union_empty]
  exact hk.after_filter (fun a ha => hPR (hq x hx a ha)) (hg x hx) hl hl'

/-- The samples of a plane. -/
def planeSet (b w h : Nat) : Set Nat := {a | b ≤ a ∧ a < b + w * h}

theorem planeAddr_mem_planeSet {b w h x y : Nat} (hx : x < w) (hy : y < h) : planeAddr b w x y ∈ planeSet b w h :=
  ⟨le_planeAddr b w x y, planeAddr_lt hx hy⟩

theorem AgreeOn.after_horizontalPass {errs : List (Nat × AccessKind)} {b w h s : Nat} {m m' n n' : Memory}
    (hm : AgreeOn (planeSet b w h) m m') (hb : w * h = 0 ∨ b + w * h ≤ Config.addressLimit)
    (hn : horizontalPass errs b w h s m = some n) (hn' : horizontalPass errs b w h s m' = some n') :
    AgreeOn (planeSet b w h) n n' := by
  rw [horizontalPass_eq] at hn hn'
  refine hm.after_forEach_filter (fun p hp a ha => ?_) (fun p hp => columnAddr_good hb hp) hn hn'
  obtain ⟨y, rfl, hy, -, -⟩ := columnAddr_has hp ha
  exact planeAddr_mem_planeSet ((mem_columnLines w h p).1 hp).2 hy

theorem AgreeOn.after_verticalPass {errs : List (Nat × AccessKind)} {b w h s : Nat} {m m' n n' : Memory}
    (hm : AgreeOn (planeSet b w h) m m') (hb : w * h = 0 ∨ b + w * h ≤ Config.addressLimit)
    (hn : verticalPass errs b w h s m = some n) (hn' : verticalPass errs b w h s m' = some n') :
    AgreeOn (planeSet b w h) n n' := by
  rw [verticalPass_eq] at hn hn'
  refine hm.after_forEach_filter (fun p hp a ha => ?_) (fun p hp => rowAddr_good hb hp) hn hn'
  obtain ⟨x, rfl, hx, -, -⟩ := rowAddr_has hp ha
  exact planeAddr_mem_planeSet hx ((mem_rowLines w h p).1 hp).2

/-- DEBLOCK leaves the same plane in both memories (41_deblock.md R133). -/
theorem AgreeOn.after_deblockPlane {errs : List (Nat × AccessKind)} {hp vp : BitVec 1} {b w h s : Nat} {m m' n n' : Memory}
    (hm : AgreeOn (planeSet b w h) m m') (hb : w * h = 0 ∨ b + w * h ≤ Config.addressLimit)
    (hn : deblockPlane errs hp vp b w h s m = some n)
    (hn' : deblockPlane errs hp vp b w h s m' = some n') : AgreeOn (planeSet b w h) n n' := by
  rw [deblockPlane, Option.bind_eq_some_iff] at hn hn'
  obtain ⟨k, hk, hn⟩ := hn
  obtain ⟨k', hk', hn'⟩ := hn'
  have hmid : AgreeOn (planeSet b w h) k k' := by
    by_cases hh : hp = 1#1
    · rw [if_pos hh] at hk hk'
      exact hm.after_horizontalPass hb hk hk'
    · rw [if_neg hh] at hk hk'
      exact Option.some.inj hk ▸ Option.some.inj hk' ▸ hm
  by_cases hv : vp = 1#1
  · rw [if_pos hv] at hn hn'
    exact hmid.after_verticalPass hb hn hn'
  · rw [if_neg hv] at hn hn'
    exact Option.some.inj hn ▸ Option.some.inj hn' ▸ hmid

/-! ### UPS and COMPOSE -/

/-- What UPS returns depends only on the chroma planes (43_upsample_compose.md R196). -/
theorem upsampledWord_congr {errs : List (Nat × AccessKind)} {L : Latch} {m m' : Memory} {v v' : Word}
    (hx : L.posX < L.width) (hy : L.posY < L.height)
    (h1 : ∀ a ∈ planeSet L.src1.toNat L.chromaWidth L.chromaHeight, m'.read a = m.read a)
    (h2 : ∀ a ∈ planeSet L.src2.toNat L.chromaWidth L.chromaHeight, m'.read a = m.read a)
    (hv : upsampledWord errs m L = some v) (hv' : upsampledWord errs m' L = some v') : v' = v := by
  have hw := chromaWidth_pos (L := L) (by omega)
  have hh := chromaHeight_pos (L := L) (by omega)
  simp only [upsampledWord, Option.bind_eq_bind, Option.bind_eq_some_iff, Option.some.injEq] at hv hv'
  obtain ⟨cb, hcb, cr, hcr, rfl⟩ := hv
  obtain ⟨cb', hcb', cr', hcr', rfl⟩ := hv'
  rw [upsampleAt_eq_some hcb, upsampleAt_eq_some hcr, upsampleAt_eq_some hcb', upsampleAt_eq_some hcr',
    upsampledAt_congr _ _ hw hh fun a hlo hhi => h1 a ⟨hlo, hhi⟩, upsampledAt_congr _ _ hw hh fun a hlo hhi => h2 a ⟨hlo, hhi⟩]

/-- The four bytes of a pixel's RGBA. -/
def pixelSet (L : Latch) (p : Nat × Nat) : Set Nat := {a | ∃ k < 4, a = rgbaAddr L p.2 p.1 k}

/-- Every byte of the RGBA buffer belongs to a pixel of the frame (20_memory.md R68). -/
theorem exists_pixel_of_inOutput {L : Latch} {a : Nat} (h : L.inOutput a) : ∃ p ∈ framePixels L, a ∈ pixelSet L p := by
  obtain ⟨hlo, hhi⟩ := h
  obtain ⟨j, rfl⟩ := Nat.exists_eq_add_of_le hlo
  have hj : j / 4 < L.width * L.height := by omega
  have hw : 0 < L.width := Nat.pos_of_mul_pos_right (Nat.zero_lt_of_lt hj)
  refine ⟨(j / 4 / L.width, j / 4 % L.width), (mem_framePixels L _).2 ⟨Nat.mod_lt _ hw, Nat.div_lt_of_lt_mul hj⟩,
    j % 4, Nat.mod_lt _ (by decide), ?_⟩
  have hdiv := Nat.div_add_mod' (j / 4) L.width
  rw [rgbaAddr, hdiv]
  omega

/-- One pixel is stored the same in both memories, and they agree on its bytes thereafter. -/
theorem AgreeOn.after_storePixel {L : Latch} {P : Set Nat} {m m' : Memory} (h : AgreeOn P m m') {x y : Nat} (c : Rgb)
    (hin : ∀ k < 4, rgbaAddr L x y k < Config.addressLimit) :
    AgreeOn (P ∪ pixelSet L (y, x)) (storePixel L x y c m) (storePixel L x y c m') := by
  have h0 := h.write c.r (hin 0 (by decide))
  have h1 := h0.write c.g (hin 1 (by decide))
  have h2 := h1.write c.b (hin 2 (by decide))
  have h3 := h2.write 255 (hin 3 (by decide))
  refine h3.mono ?_
  rintro a (ha | ⟨k, hk, rfl⟩)
  · exact .inr (.inr (.inr (.inr ha)))
  · have hcases : k = 3 ∨ k = 2 ∨ k = 1 ∨ k = 0 := by omega
    rcases hcases with rfl | rfl | rfl | rfl
    · exact .inl rfl
    · exact .inr (.inl rfl)
    · exact .inr (.inr (.inl rfl))
    · exact .inr (.inr (.inr (.inl rfl)))

/-- COMPOSE leaves the same frame in both memories (43_upsample_compose.md R197). -/
theorem AgreeOn.after_composeFrame {errs : List (Nat × AccessKind)} {L : Latch} {m m' n n' : Memory}
    (h : AgreeOn {a | L.inSources a} m m')
    (hd : L.width * L.height = 0 ∨ L.dst.toNat + 4 * (L.width * L.height) ≤ Config.addressLimit)
    (hn : composeFrame errs L m = some n) (hn' : composeFrame errs L m' = some n') :
    AgreeOn {a | L.inOutput a} n n' := by
  rw [composeFrame_eq] at hn hn'
  refine (AgreeOn.after_forEach (Q := pixelSet L) ?_ subset_rfl h hn hn').mono fun a ha => .inr (exists_pixel_of_inOutput ha)
  intro p hp P hS k k' l l' hk hl hl'
  obtain ⟨hx, hy⟩ := (mem_framePixels L p).1 hp
  have hin : ∀ j < 4, rgbaAddr L p.2 p.1 j < Config.addressLimit := fun j hj => by
    have hout := rgbaAddr_inOutput hx hy hj
    unfold Latch.inOutput at hout
    omega
  have hsame : pixelOf L k' p.2 p.1 = pixelOf L k p.2 p.1 := pixelOf_congr hx hy fun a ha => hk.reads a (hS ha)
  rw [composePixel_eq_some hl, composePixel_eq_some hl', hsame]
  exact hk.after_storePixel _ hin

/-! ### Two endings of one command -/

/-- What two runs of one command with write ranges `ws` have in common at the end. -/
structure SameEnding (ws : List Span) (t u : State) : Prop where
  errcode : u.errcode = t.errcode
  result : u.result = t.result
  err : u.err = t.err
  done : u.done = t.done
  draws : u.draws = t.draws
  mem : t.errcode = 0 ∨ t.errcode = 9 → ∀ a, inSpans ws a = true → u.mem.read a = t.mem.read a

/-- An ending that stores nothing is the same whatever memory holds. -/
theorem finish_nil_sameEnding (code : ErrCode) (s : State) (m' : Memory) :
    SameEnding [] (s.finish code) (({ s with mem := m' } : State).finish code) :=
  ⟨rfl, rfl, rfl, rfl, rfl, fun _ _ ha => absurd ha Bool.false_ne_true⟩

theorem finishRegister_sameEnding (code : ErrCode) (v : Word) (s : State) (m' : Memory) :
    SameEnding [] (s.finishRegister code v) (({ s with mem := m' } : State).finishRegister code v) := by
  unfold State.finishRegister
  split
  · exact finish_nil_sameEnding .ok { s with result := v } m'
  · exact finish_nil_sameEnding code s m'

/-- A command that stores the same bytes in both runs ends the same. -/
theorem finish_sameEnding {ws : List Span} {k k' : Memory} (s : State) (h : AgreeOn {a | inSpans ws a = true} k k') :
    SameEnding ws (({ s with mem := k } : State).finish .ok) (({ s with mem := k' } : State).finish .ok) :=
  ⟨rfl, rfl, rfl, rfl, rfl, fun _ => h.reads⟩

/-- The bytes a bus error leaves are the same draw's in both runs (60_exceptions.md R225; log entry 5). -/
theorem finishBusError_sameEnding {f : Footprint} {P : Set Nat} {s : State} {m' : Memory} (h : AgreeOn P s.mem m')
    (hf : ∀ r ∈ f.writes, r.valid = true) :
    SameEnding f.writes (s.finishBusError f) (({ s with mem := m' } : State).finishBusError f) :=
  ⟨rfl, rfl, rfl, rfl, rfl, fun _ a ha => (h.after_scramble s.draws hf).reads a (.inr ha)⟩

theorem firstError_ne {c : ErrCode} {cs : List ErrCode} (hok : .ok ≠ c) (h : ∀ x ∈ cs, x ≠ c) : firstError cs ≠ c := by
  induction cs with
  | nil => exact hok
  | cons x xs ih =>
    unfold firstError
    split
    · exact ih fun y hy => h y (List.mem_cons_of_mem _ hy)
    · exact h x List.mem_cons_self

theorem codeOf_strengthOf_ne_busError (qm : BitVec 1) (sq : BitVec 5) : codeOf (strengthOf qm sq) ≠ .busError := by
  unfold strengthOf
  split <;> split <;> exact nofun

/-- The operand fields give codes of their own (40_command_control.md R103 step 3). -/
theorem checkFields_ne_busError (i : Instr) : checkFields i ≠ .busError := by
  cases i with
  | qlookup resv q =>
    simp only [checkFields, quantOf]
    split <;> exact nofun
  | lutrd resv tsel idx =>
    simp only [checkFields]
    split <;> exact nofun
  | edge resv qm sq => exact codeOf_strengthOf_ne_busError qm sq
  | deblock resv v h qm sq => exact codeOf_strengthOf_ne_busError qm sq
  | nop _ | cvt _ | ups _ | compose _ => exact nofun

theorem checkPosition_ne_busError (i : Instr) (L : Latch) : checkPosition i L ≠ .busError := by
  cases i with
  | ups resv =>
    simp only [checkPosition]
    split <;> exact nofun
  | nop _ | qlookup _ _ | edge _ _ _ | deblock _ _ _ _ _ | lutrd _ _ _ | cvt _ | compose _ => exact nofun

theorem checkOverlap_ne_busError (i : Instr) (f : Footprint) : checkOverlap i f ≠ .busError := by
  cases i with
  | compose resv =>
    simp only [checkOverlap]
    split <;> exact nofun
  | nop _ | qlookup _ _ | edge _ _ _ | deblock _ _ _ _ _ | lutrd _ _ _ | cvt _ | ups _ => exact nofun

/-- Validation makes no access, so it never gives BUS_ERROR (R103). -/
theorem validate_ne_busError (i : Instr) (L : Latch) : validate i L ≠ .busError := by
  have reserved : checkReserved i ≠ .busError := by
    rw [checkReserved_eq]
    split <;> exact nofun
  have ranges : checkRanges (footprintOf i L) ≠ .busError := by
    unfold checkRanges
    split <;> exact nofun
  refine firstError_ne nofun ?_
  simp [reserved, checkFields_ne_busError, checkPosition_ne_busError, ranges, checkOverlap_ne_busError]

theorem errBits_eq_zero_iff (c : ErrCode) : errBits c = 0 ↔ c = .ok := by cases c <;> decide

theorem errBits_eq_nine_iff (c : ErrCode) : errBits c = 9 ↔ c = .busError := by cases c <;> decide

/-- A command that fails validation ends the same whatever memory holds, with a code that says nothing of the bytes. -/
theorem invalid_sameEnding {i : Instr} {s : State} (ws : List Span) (m' : Memory) (hv : validate i s.latch ≠ .ok) :
    SameEnding ws (s.endedWith (errBits (validate i s.latch)))
      (({ s with mem := m' } : State).endedWith (errBits (validate i s.latch))) := by
  refine ⟨rfl, rfl, rfl, rfl, rfl, fun hc => ?_⟩
  rcases hc with hc | hc
  · exact absurd ((errBits_eq_zero_iff _).1 hc) hv
  · exact absurd ((errBits_eq_nine_iff _).1 hc) (validate_ne_busError i s.latch)

/-- A memory command ends the same in two runs when a bus error ends both bodies or neither, and completing ends the same. -/
theorem runMemoryCommand_sameEnding {α : Type} {i : Instr} {body body' : Option α} {done done' : α → State} {P : Set Nat}
    {s t : State} {m' : Memory} (hm : AgreeOn P s.mem m') (hnone : body = none ↔ body' = none)
    (hdone : validate i s.latch = .ok → ∀ x x', body = some x → body' = some x' →
      SameEnding (footprintOf i s.latch).writes (done x) (done' x'))
    (h : runMemoryCommand i body done s = .next t) :
    ∃ u, runMemoryCommand i body' done' { s with mem := m' } = .next u ∧
      SameEnding (footprintOf i s.latch).writes t u := by
  rcases runMemoryCommand_next h with ⟨hv, rfl⟩ | ⟨hv, ho, ⟨x, hx, rfl⟩ | ⟨hx, rfl⟩⟩
  · exact ⟨_, runMemoryCommand_invalid hv, invalid_sameEnding _ m' hv⟩
  · obtain ⟨x', hx'⟩ := Option.ne_none_iff_exists'.1 fun hx' => Option.some_ne_none x (hx.symm.trans (hnone.2 hx'))
    exact ⟨_, runMemoryCommand_some hv ho hx', hdone hv x x' hx hx'⟩
  · exact ⟨_, runMemoryCommand_none hv ho (hnone.1 hx),
      finishBusError_sameEnding hm fun r hr => valid_of_validate hv r (.inr hr)⟩

/-- DEBLOCK reads its plane (20_memory.md R66). -/
theorem inSpans_deblock_reads (resv : BitVec 16) (v h qm : BitVec 1) (sq : BitVec 5) (L : Latch) :
    {a | inSpans (footprintOf (.deblock resv v h qm sq) L).reads a = true} = planeSet L.src0.toNat L.width L.height := by
  ext a
  simp [inSpans_iff, footprintOf, planeSet]

/-- COMPOSE reads its three source planes. -/
theorem inSpans_compose_reads (resv : BitVec 24) (L : Latch) (a : Nat) :
    inSpans (footprintOf (.compose resv) L).reads a = true ↔ L.inSources a := by
  simp [inSpans_iff, footprintOf, Latch.inSources]

/-- COMPOSE writes its RGBA buffer. -/
theorem inSpans_compose_writes (resv : BitVec 24) (L : Latch) (a : Nat) :
    inSpans (footprintOf (.compose resv) L).writes a = true ↔ L.inOutput a := by
  simp [inSpans_iff, footprintOf, Latch.inOutput]

theorem validate_ups_inside {resv : BitVec 24} {L : Latch} (h : validate (.ups resv) L = .ok) :
    L.posX < L.width ∧ L.posY < L.height := by
  obtain ⟨-, -, hposition, -, -⟩ := (validate_eq_ok_iff _ _).1 h
  simpa [checkPosition] using hposition

/-- Every command ends the same in two runs over memories that agree on its read footprint. -/
theorem exec_sameEnding {i : Instr} {s t : State} {m' : Memory}
    (hm : AgreeOn {a | inSpans (footprintOf i s.latch).reads a = true} s.mem m') (h : exec i s = .next t) :
    ∃ u, exec i { s with mem := m' } = .next u ∧ SameEnding (footprintOf i s.latch).writes t u := by
  cases i with
  | nop resv =>
    obtain rfl := Host.Outcome.next.inj h
    exact ⟨_, rfl, finish_nil_sameEnding _ s m'⟩
  | qlookup _ _ | edge _ _ _ | lutrd _ _ _ | cvt _ =>
    obtain rfl := Host.Outcome.next.inj h
    exact ⟨_, rfl, finishRegister_sameEnding _ _ s m'⟩
  | deblock resv v hp qm sq =>
    refine runMemoryCommand_sameEnding hm (deblockPlane_eq_none_iff.trans deblockPlane_eq_none_iff.symm)
      (fun hv k k' hk hk' => finish_sameEnding s ?_) h
    have hplane := inSpans_deblock_reads resv v hp qm sq s.latch
    rw [hplane] at hm
    exact hplane ▸ hm.after_deblockPlane (validate_fits hv (r := ⟨s.latch.src0.toNat, _⟩) List.mem_cons_self) hk hk'
  | ups resv =>
    refine runMemoryCommand_sameEnding hm (upsampledWord_eq_none_iff.trans upsampledWord_eq_none_iff.symm)
      (fun hv w w' hw hw' => ?_) h
    obtain ⟨hx, hy⟩ := validate_ups_inside hv
    have hsame : w' = w := upsampledWord_congr hx hy
      (fun a ha => hm.reads a ((inSpans_iff _ a).2 ⟨_, List.mem_cons_self, ha⟩))
      (fun a ha => hm.reads a ((inSpans_iff _ a).2 ⟨_, List.mem_cons_of_mem _ List.mem_cons_self, ha⟩)) hw hw'
    rw [hsame]
    exact finishRegister_sameEnding .ok w s m'
  | compose resv =>
    refine runMemoryCommand_sameEnding hm (composeFrame_eq_none_iff.trans composeFrame_eq_none_iff.symm)
      (fun hv k k' hk hk' => finish_sameEnding s ?_) h
    have hsources : AgreeOn {a | s.latch.inSources a} s.mem m' := hm.mono fun a ha => (inSpans_compose_reads resv _ a).2 ha
    have hfits := validate_fits hv (r := ⟨s.latch.dst.toNat, 4 * (s.latch.width * s.latch.height)⟩) (by simp [footprintOf])
    simp only at hfits
    exact (hsources.after_composeFrame (by omega) hk hk').mono fun a ha => (inSpans_compose_writes resv _ a).1 ha

/-- Settles O43: what the two runs have in common at the end is `SameEnding`. -/
theorem commandsReadOnlyTheirFootprint : Obligations.CommandsReadOnlyTheirFootprint := by
  intro i s t m' hw hw' hreads he
  obtain ⟨u, hu, hsame⟩ := exec_sameEnding ⟨hw, hw', hreads⟩ he
  exact ⟨u, hu, hsame.errcode, hsame.result, hsame.err, hsame.done, hsame.draws, hsame.mem⟩

end Sys2Proof.Machine
end

section
/-! PROOFS. The decoder as one rule per row of the opcode map, that it and the encoder are inverse to each other, and which opcodes
are in no row (30_encoding.md R85, R86, R90). -/

namespace Sys2Proof.Laws

/-- The listed opcodes (30_encoding.md R85). -/
def opcodeMap : List (BitVec 8) := [0x00#8, 0x01#8, 0x02#8, 0x03#8, 0x10#8, 0x11#8, 0x12#8, 0x13#8]

theorem mem_opcodeMap (opc : BitVec 8) :
    opc ∈ opcodeMap ↔ opc = 0x00#8 ∨ opc = 0x01#8 ∨ opc = 0x02#8 ∨ opc = 0x03#8 ∨ opc = 0x10#8 ∨ opc = 0x11#8 ∨
      opc = 0x12#8 ∨ opc = 0x13#8 := by
  simp [opcodeMap]

/-- The decoder as a relation, a rule for each row of R86: the row's opcode, and where its fields are read. -/
inductive DecodesTo (w : Word) : Except DecodeError Instr → Prop where
  | nop (h : opcodeOf w = 0x00#8) : DecodesTo w (.ok (.nop (w.extractLsb' 0 24)))
  | qlookup (h : opcodeOf w = 0x01#8) : DecodesTo w (.ok (.qlookup (w.extractLsb' 5 19) (w.extractLsb' 0 5)))
  | edge (h : opcodeOf w = 0x02#8) :
      DecodesTo w (.ok (.edge (w.extractLsb' 6 18) (w.extractLsb' 5 1) (w.extractLsb' 0 5)))
  | deblock (h : opcodeOf w = 0x03#8) :
      DecodesTo w (.ok (.deblock (w.extractLsb' 8 16) (w.extractLsb' 7 1) (w.extractLsb' 6 1) (w.extractLsb' 5 1)
        (w.extractLsb' 0 5)))
  | lutrd (h : opcodeOf w = 0x10#8) :
      DecodesTo w (.ok (.lutrd (w.extractLsb' 11 13) (w.extractLsb' 8 3) (w.extractLsb' 0 8)))
  | cvt (h : opcodeOf w = 0x11#8) : DecodesTo w (.ok (.cvt (w.extractLsb' 0 24)))
  | ups (h : opcodeOf w = 0x12#8) : DecodesTo w (.ok (.ups (w.extractLsb' 0 24)))
  | compose (h : opcodeOf w = 0x13#8) : DecodesTo w (.ok (.compose (w.extractLsb' 0 24)))
  | illegal (h : opcodeOf w ∉ opcodeMap) : DecodesTo w (.error (.illegalOpcode (opcodeOf w)))

theorem DecodesTo.decode_eq {w : Word} {r : Except DecodeError Instr} (h : DecodesTo w r) : decode w = r := by
  cases h with
  | nop h | qlookup h | edge h | deblock h | lutrd h | cvt h | ups h | compose h => simp [decode, h]
  | illegal h =>
    simp only [mem_opcodeMap, not_or] at h
    simp [decode, h]

theorem exists_decodesTo (w : Word) : ∃ r, DecodesTo w r := by
  by_cases h : opcodeOf w ∈ opcodeMap
  · rcases (mem_opcodeMap _).1 h with h | h | h | h | h | h | h | h
    exacts [⟨_, .nop h⟩, ⟨_, .qlookup h⟩, ⟨_, .edge h⟩, ⟨_, .deblock h⟩, ⟨_, .lutrd h⟩, ⟨_, .cvt h⟩, ⟨_, .ups h⟩,
      ⟨_, .compose h⟩]
  · exact ⟨_, .illegal h⟩

/-- The rules say all of what the decoder does. -/
theorem decode_eq_iff (w : Word) (r : Except DecodeError Instr) : decode w = r ↔ DecodesTo w r := by
  refine ⟨fun h => ?_, DecodesTo.decode_eq⟩
  obtain ⟨r', hr'⟩ := exists_decodesTo w
  exact h ▸ hr'.decode_eq.symm ▸ hr'

/-! ### Round trips -/

/-- The operand field of format N (R81). -/
theorem extract_opcode_append (opc : BitVec 8) (resv : BitVec 24) : (opc ++ resv).extractLsb' 0 24 = resv :=
  (extract_append_low opc resv (by decide)).trans (extract_all resv)

/-- Settles O1: the encoding of a command has its row's opcode, and each field is found where the row's rule reads it. -/
theorem decodeOfEncodeIsTheCommand : Obligations.DecodeOfEncodeIsTheCommand := by
  intro i
  rw [decode_eq_iff]
  cases i with
  | nop resv => simpa only [encode, extract_opcode_append] using DecodesTo.nop (OpcodeField.nop resv)
  | qlookup resv q =>
    simpa (disch := decide) only [encode, extract_append_low, extract_append_high, Nat.reduceSub, extract_all]
      using DecodesTo.qlookup (OpcodeField.qlookup resv q)
  | edge resv qm sq =>
    simpa (disch := decide) only [encode, extract_append_low, extract_append_high, Nat.reduceSub, extract_all]
      using DecodesTo.edge (OpcodeField.edge resv qm sq)
  | deblock resv v h qm sq =>
    simpa (disch := decide) only [encode, extract_append_low, extract_append_high, Nat.reduceSub, extract_all]
      using DecodesTo.deblock (OpcodeField.deblock resv v h qm sq)
  | lutrd resv tsel idx =>
    simpa (disch := decide) only [encode, extract_append_low, extract_append_high, Nat.reduceSub, extract_all]
      using DecodesTo.lutrd (OpcodeField.lutrd resv tsel idx)
  | cvt resv => simpa only [encode, extract_opcode_append] using DecodesTo.cvt (OpcodeField.cvt resv)
  | ups resv => simpa only [encode, extract_opcode_append] using DecodesTo.ups (OpcodeField.ups resv)
  | compose resv => simpa only [encode, extract_opcode_append] using DecodesTo.compose (OpcodeField.compose resv)

theorem opcodeOf_append (w : Word) : opcodeOf w ++ w.extractLsb' 0 24 = w := BitVec.extractLsb'_append_extractLsb'

/-- Settles O2: the fields that a row's rule reads lie side by side, so appending them below the opcode gives the word back. -/
theorem encodeOfDecodeIsTheWord : Obligations.EncodeOfDecodeIsTheWord := by
  intro w i hi
  cases (decode_eq_iff w _).1 hi with
  | nop h | cvt h | ups h | compose h =>
    rw [encode, ← h]
    exact opcodeOf_append w
  | qlookup h | edge h | deblock h | lutrd h =>
    rw [encode, ← h, opcodeOf]
    simp (disch := decide) only [BitVec.extractLsb'_append_extractLsb'_eq_extractLsb']
    exact extract_all w

/-- A word stands for a command exactly when it is the command's encoding. -/
theorem decode_eq_ok_iff (w : Word) (i : Instr) : decode w = .ok i ↔ encode i = w :=
  ⟨encodeOfDecodeIsTheWord w i, fun h => h ▸ decodeOfEncodeIsTheCommand i⟩

/-- Settles O5: each word is the encoding of its command. -/
theorem sampleWordsDecode : Obligations.SampleWordsDecode := by
  simp only [Obligations.SampleWordsDecode, decode_eq_ok_iff]
  decide

/-- Settles O4: the encoder evaluated at the command of each line. -/
theorem assemblyExamplesEncodeAsListed : Obligations.AssemblyExamplesEncodeAsListed := by
  unfold Obligations.AssemblyExamplesEncodeAsListed
  decide

/-! ### Illegal opcodes -/

theorem decode_ne_ok_iff (w : Word) : (∀ i, decode w ≠ .ok i) ↔ opcodeOf w ∉ opcodeMap := by
  obtain ⟨r, hr⟩ := exists_decodesTo w
  rw [hr.decode_eq]
  cases hr with
  | nop h | qlookup h | edge h | deblock h | lutrd h | cvt h | ups h | compose h => simp [mem_opcodeMap, h]
  | illegal h => simp [h]

theorem opcodeOf_toNat (w : Word) : (opcodeOf w).toNat = w.toNat / 2 ^ 24 := by
  rw [opcodeOf, BitVec.extractLsb'_toNat, Nat.shiftRight_eq_div_pow]
  omega

/-- The opcodes in no row are two ranges (R90). -/
theorem not_mem_opcodeMap_iff (opc : BitVec 8) :
    opc ∉ opcodeMap ↔ (0x04 ≤ opc.toNat ∧ opc.toNat ≤ 0x0F) ∨ (0x14 ≤ opc.toNat ∧ opc.toNat ≤ 0xFF) := by
  simp only [mem_opcodeMap, ← BitVec.toNat_inj, BitVec.toNat_ofNat]
  omega

end Sys2Proof.Laws

namespace Sys2Proof.Machine

/-- The completion step of a word that is no command (40_command_control.md R103 step 1). -/
theorem engineStep_illegal {s : State} (h : ∀ i, decode s.latch.cmd ≠ .ok i) : engineStep s = .next (s.endedWith 1) := by
  rcases engineStep_cases s with ⟨i, hi, -⟩ | ⟨-, he⟩
  · exact absurd hi (h i)
  · exact he

theorem step_of_engineTurn {s : State} (h : s.engineTurn = true) : step s = engineStep s := by
  rcases step_cases s with ⟨-, hs⟩ | ⟨hn, -⟩
  · exact hs
  · exact absurd (h.symm.trans hn) (by decide)

/-- Settles O3: the illegal words are those with an opcode outside `opcodeMap`. -/
theorem illegalOpcodesEndWithIllegalOpcode : Obligations.IllegalOpcodesEndWithIllegalOpcode := by
  intro w
  refine ⟨?_, fun s hturn hcmd hillegal => ?_⟩
  · rw [Laws.decode_ne_ok_iff, Laws.not_mem_opcodeMap_iff, Laws.opcodeOf_toNat]
  · exact (step_of_engineTurn hturn).trans (engineStep_illegal (hcmd ▸ hillegal))

/-! ### Commands that fail validation -/

theorem finishRegister_invalid {code : ErrCode} (h : code ≠ .ok) (v : Word) (s : State) :
    s.finishRegister code v = s.endedWith (errBits code) := by
  rw [finishRegister_eq, if_neg h]

/-- A command that fails validation ends with the code and does nothing else (40_command_control.md R103, R104). -/
theorem exec_invalid {i : Instr} {s : State} (h : validate i s.latch ≠ .ok) :
    exec i s = .next (s.endedWith (errBits (validate i s.latch))) := by
  cases i with
  | nop resv => exact congrArg Host.Outcome.next (finish_eq_endedWith _ s)
  | qlookup _ _ | edge _ _ _ | lutrd _ _ _ | cvt _ => exact congrArg Host.Outcome.next (finishRegister_invalid h _ s)
  | deblock _ _ _ _ _ | ups _ | compose _ => exact runMemoryCommand_invalid h

/-- Reserved bits are checked before everything else (R103 step 2). -/
theorem validate_reserved {i : Instr} (L : Latch) (h : i.reservedClear = false) : validate i L = .reservedNonzero := by
  simp [validate, firstError, checkReserved_eq, h]

/-- Settles O35: validation ends such a command, whichever it is. -/
theorem reservedBitsEndEveryCommand : Obligations.ReservedBitsEndEveryCommand := by
  intro i s h
  have hv : validate i s.latch = .reservedNonzero := validate_reserved s.latch h
  have he := exec_invalid (i := i) (s := s) (hv ▸ nofun)
  rwa [hv] at he

end Sys2Proof.Machine
end

section
/-! PROOFS. The life of a command word: dropped or accepted at CMD, its turn, its validation in priority order, and the commands
that end there (40_command_control.md R100 to R105). -/

namespace Sys2Proof.Machine

/-! ### Issue -/

/-- In a device that is not held in reset, `ISSUE` reaches CMD (10_state.md R25). -/
theorem hostEffect_issue_released {s : State} (hr : s.resetHeld = false) (w : Word) :
    hostEffect (HostOp.issue w) s = s.issue w :=
  hostEffect_writeReg (r := .cmd) (by decide) (by decide) rfl hr w

theorem issue_of_busy {s : State} (h : s.engine = .busy) (w : Word) : s.issue w = .next { s with ovr := true } := by
  rw [State.issue, if_pos h]

theorem issue_of_idle {w : Word} {s : State} (h : s.engine = .idle)
    (hp : s.peerConflict (latchFootprint (s.capture w)) = false) :
    s.issue w = .next (({ s with draws := s.draws + 1 } : State).accept w (Config.latency s.draws)) := by
  rw [State.issue, if_neg (h ▸ nofun), hp, if_neg Bool.false_ne_true]

/-- Settles O47: the write reaches CMD, which drops the word of a busy engine. -/
theorem overrunDropsTheWord : Obligations.OverrunDropsTheWord := fun w _ hr hb =>
  (hostEffect_issue_released hr w).trans (issue_of_busy hb w)

/-- Settles O46: the two values that the statement leaves open are the latency drawn and the count of draws after it. -/
theorem acceptanceLatchesTheOperands : Obligations.AcceptanceLatchesTheOperands := fun w s hr hi hp =>
  ⟨Config.latency s.draws, s.draws + 1, (hostEffect_issue_released hr w).trans (issue_of_idle hi hp)⟩

/-! ### The completion step -/

theorem engineStep_of_decode {s : State} {i : Instr} (h : decode s.latch.cmd = .ok i) : engineStep s = exec i s := by
  rw [engineStep, h]

@[simp] theorem withFetchWord_latch_cmd (n w : Nat) (s : State) : (s.withFetchWord n w).latch.cmd = tableWord n w := rfl

/-- A fetched word is in flight with no latency left. -/
theorem engineTurn_withFetchWord (n w : Nat) (s : State) : (s.withFetchWord n w).engineTurn = true := rfl

theorem decode_of_decodeTableWord {n w : Nat} {i : Instr} (h : decodeTableWord n w = some i) :
    decode (tableWord n w) = .ok i := by
  unfold decodeTableWord at h
  split at h
  · next hd => exact hd.trans (congrArg Except.ok (Option.some.inj h))
  · cases h

/-- Settles O6: a fetched word is the latched one of a state in which the engine has its turn. -/
theorem stepRunsTheDecodedCommand : Obligations.StepRunsTheDecodedCommand := by
  have runs (s : State) (i : Instr) (ht : s.engineTurn = true) (hd : decode s.latch.cmd = .ok i) : step s = exec i s :=
    (step_of_engineTurn ht).trans (engineStep_of_decode hd)
  refine ⟨runs, fun s w i hw => runs _ i (engineTurn_withFetchWord 32 w s) ?_⟩
  rw [withFetchWord_latch_cmd]
  exact decode_of_decodeTableWord hw

/-- NOP only validates (R105). -/
theorem exec_nop (resv : BitVec 24) (s : State) :
    exec (.nop resv) s = .next (s.endedWith (errBits (validate (.nop resv) s.latch))) :=
  congrArg Host.Outcome.next (finish_eq_endedWith _ s)

/-- Settles O10: reserved bits are all that NOP's validation looks at. -/
theorem nopCompletes : Obligations.NopCompletes := by
  intro resv s
  rw [exec_nop, validate_nop]
  split <;> rfl

/-! ### Validation stops at the first check that fails (R103) -/

theorem validate_of_badFields {i : Instr} (L : Latch) (hr : i.reservedClear = true) (h : checkFields i ≠ .ok) :
    validate i L = checkFields i := by
  simp [validate, firstError, checkReserved_eq, hr, h]

theorem validate_of_badRanges {i : Instr} {L : Latch} (hr : i.reservedClear = true) (hf : i.fieldsLegal = true)
    (hp : checkPosition i L = .ok) (h : checkRanges (footprintOf i L) = .addrRange) : validate i L = .addrRange := by
  simp [validate, firstError, checkReserved_eq, hr, (checkFields_eq_ok_iff i).2 hf, hp, h]

theorem validate_of_overlap {i : Instr} {L : Latch} (hr : i.reservedClear = true) (hf : i.fieldsLegal = true)
    (hp : checkPosition i L = .ok) (hs : checkRanges (footprintOf i L) = .ok)
    (h : checkOverlap i (footprintOf i L) = .overlap) : validate i L = .overlap := by
  simp [validate, firstError, checkReserved_eq, hr, (checkFields_eq_ok_iff i).2 hf, hp, hs, h]

theorem checkRanges_of_fit {f : Footprint} (h : ∀ r ∈ f.reads ++ f.writes, RangeFits r.base r.len) :
    checkRanges f = .ok :=
  if_pos (List.all_eq_true.2 fun r hr => (valid_iff r).2 (h r hr))

/-- A range past the address space is not empty, since its base is a 32-bit address. -/
theorem checkRanges_of_exceeds {f : Footprint} {a : Word} {n : Nat} (hm : ⟨a.toNat, n⟩ ∈ f.reads ++ f.writes)
    (h : 2 ^ 32 < a.toNat + n) : checkRanges f = .addrRange := by
  have hv : ¬(Span.mk a.toNat n).valid = true := by
    rw [valid_iff, Config.addressLimit]
    have := a.isLt
    simp only
    omega
  exact if_neg fun hall => hv (List.all_eq_true.1 hall _ hm)

theorem checkOverlap_of_meet {resv : BitVec 24} {f : Footprint} {r q : Span} (hr : r ∈ f.writes) (hq : q ∈ f.reads)
    (h : ¬RangesApart r.base r.len q.base q.len) : checkOverlap (.compose resv) f = .overlap := by
  have hm : r.overlaps q = true := by rwa [← overlaps_iff, Bool.not_eq_false] at h
  exact if_pos (List.any_eq_true.2 ⟨r, hr, List.any_eq_true.2 ⟨q, hq, hm⟩⟩)

/-- A command whose validation gives an error ends with its code and does nothing else. -/
theorem exec_of_error {i : Instr} {s : State} {c : ErrCode} (h : validate i s.latch = c) (hc : c ≠ .ok) :
    exec i s = .next (s.endedWith (errBits c)) := by
  subst h
  exact exec_invalid hc

/-! ### DEBLOCK and COMPOSE -/

theorem strengthOf_badStrength {qm : BitVec 1} {sq : BitVec 5} (hqm : qm = 0#1) (hsq : Config.strengthMax < sq.toNat) :
    strengthOf qm sq = .error .badStrength := by
  rw [strengthOf, if_pos hqm, if_pos hsq]

theorem strengthOf_badQuant {qm : BitVec 1} {sq : BitVec 5} (hqm : qm = 1#1) (hsq : sq = 0#5) :
    strengthOf qm sq = .error .badQuant := by
  rw [strengthOf, if_neg (hqm ▸ by decide), if_pos hsq]

theorem exec_deblock_badField {v h qm : BitVec 1} {sq : BitVec 5} {c : ErrCode} (s : State)
    (hs : strengthOf qm sq = .error c) (hc : c ≠ .ok) :
    exec (.deblock 0 v h qm sq) s = .next (s.endedWith (errBits c)) := by
  have hf : checkFields (.deblock 0 v h qm sq) = c := congrArg codeOf hs
  exact exec_of_error ((validate_of_badFields _ rfl (hf ▸ hc)).trans hf) hc

/-- Settles O36: R87 rejects the strength field, or else the plane is the range past the address space. -/
theorem deblockErrorForms : Obligations.DeblockErrorForms := by
  intro v h qm sq s
  refine ⟨fun hqm hsq => ?_, fun hqm hsq => ?_, fun hlegal _ hend => ?_⟩
  · exact exec_deblock_badField s (strengthOf_badStrength hqm hsq) nofun
  · exact exec_deblock_badField s (strengthOf_badQuant hqm hsq) nofun
  · have hv : validate (.deblock 0 v h qm sq) s.latch = .addrRange :=
      validate_of_badRanges rfl hlegal rfl (checkRanges_of_exceeds (.head _) hend)
    exact exec_of_error hv nofun

/-- Settles O37: a range past the address space fails step 5 of R103; with all four inside it, the RGBA range meeting a source
fails step 6. -/
theorem composeErrorForms : Obligations.ComposeErrorForms := by
  intro s
  refine fun _ => ⟨fun hend => ?_, fun hluma hcb hcr hout hmeet => ?_⟩
  · have hranges : checkRanges (footprintOf (.compose 0) s.latch) = .addrRange := by
      rcases hend with h | h | h | h <;> exact checkRanges_of_exceeds (by simp [footprintOf]) h
    exact exec_of_error (validate_of_badRanges rfl rfl rfl hranges) nofun
  · have hranges : checkRanges (footprintOf (.compose 0) s.latch) = .ok := by
      refine checkRanges_of_fit ?_
      simp only [footprintOf, List.cons_append, List.nil_append, List.forall_mem_cons]
      exact ⟨hluma, hcb, hcr, hout, nofun⟩
    have hoverlap : checkOverlap (.compose 0) (footprintOf (.compose 0) s.latch) = .overlap := by
      rcases hmeet with h | h | h
      · exact checkOverlap_of_meet (.head _) (.head _) h
      · exact checkOverlap_of_meet (.head _) (.tail _ (.head _)) h
      · exact checkOverlap_of_meet (.head _) (.tail _ (.tail _ (.head _))) h
    exact exec_of_error (validate_of_overlap rfl rfl rfl hranges hoverlap) nofun

end Sys2Proof.Machine
end

section
/-! PROOFS. The arithmetic of EdgeFilter (41_deblock.md R124 to R128), StrengthTable (R120, R121), and the two commands that return
them in RESULT, QLOOKUP and EDGE (R131, R132). -/

namespace Sys2Proof.Machine

/-! ### `sign` and `abs` are the library's -/

theorem absInt_eq_abs (x : Int) : absInt x = |x| := by
  rcases absInt_cases x with ⟨hx, e⟩ | ⟨hx, e⟩
  · rw [e, abs_of_nonneg hx]
  · rw [e, abs_of_neg hx]

theorem sgn_eq_sign (x : Int) : sgn x = x.sign := by
  unfold sgn
  rcases lt_trichotomy x 0 with hx | rfl | hx
  · rw [if_neg hx.not_gt, if_pos hx, Int.sign_eq_neg_one_of_neg hx]
  · rfl
  · rw [if_pos hx, Int.sign_eq_one_of_pos hx]

@[simp] theorem absInt_zero : absInt 0 = 0 := rfl

@[simp] theorem absInt_neg (x : Int) : absInt (-x) = absInt x := by simp only [absInt_eq_abs, abs_neg]

theorem sgn_neg (x : Int) : sgn (-x) = -sgn x := by simp only [sgn_eq_sign, Int.sign_neg]

theorem sgn_of_pos {x : Int} (h : 0 < x) : sgn x = 1 := if_pos h

theorem sgn_of_neg {x : Int} (h : x < 0) : sgn x = -1 := by rw [sgn, if_neg h.not_gt, if_pos h]

@[simp] theorem tdiv_zero_left (b : Int) : tdiv 0 b = 0 := by simp [tdiv]

/-- Truncation moves a quotient toward 0 (00_scope.md R12). -/
theorem tdiv_four_cases (a : Int) : (0 ≤ a ∧ 0 ≤ tdiv a 4 ∧ tdiv a 4 ≤ a) ∨ (a < 0 ∧ a ≤ tdiv a 4 ∧ tdiv a 4 ≤ 0) := by
  rcases le_or_gt 0 a with h | h
  · rw [tdiv_nonneg_eq h]
    omega
  · rw [tdiv_neg_eq h]
    omega

/-! ### `ramp` (R124) -/

@[simp] theorem ramp_zero_left (s : Int) : ramp 0 s = 0 := Int.zero_mul _

theorem ramp_neg (x s : Int) : ramp (-x) s = -ramp x s := by simp only [ramp, sgn_neg, absInt_neg, Int.neg_mul]

/-- A step of at least twice the strength gives 0. -/
theorem ramp_of_two_mul_le {x s : Int} (hs : 0 ≤ s) (h : 2 * s ≤ absInt x) : ramp x s = 0 := by
  rcases ramp_cases x s hs with ⟨hle, e⟩ | ⟨-, hlt, -⟩ | ⟨-, hlt, -⟩ | ⟨-, -, e⟩
  · have hx := absInt_cases x
    omega
  · omega
  · omega
  · exact e

@[simp] theorem ramp_zero_right (x : Int) : ramp x 0 = 0 := by
  refine ramp_of_two_mul_le le_rfl ?_
  rw [absInt_eq_abs]
  exact abs_nonneg x

theorem ramp_eq_ite {x s : Int} (hs : 0 ≤ s) :
    ramp x s = if absInt x ≤ s then x else if absInt x < 2 * s then sgn x * (2 * s - absInt x) else 0 := by
  have habs := absInt_cases x
  rcases ramp_cases x s hs with ⟨hle, e⟩ | ⟨hlo, hhi, hx, e⟩ | ⟨hlo, hhi, hx, e⟩ | ⟨hge, -, e⟩
  · rw [e, if_pos hle]
  · rw [e, if_neg hlo.not_ge, if_pos hhi, sgn_of_pos hx]
    omega
  · rw [e, if_neg hlo.not_ge, if_pos hhi, sgn_of_neg hx]
    omega
  · rw [e, if_neg hge.not_gt]
    split <;> omega

theorem absInt_ramp_le (x : Int) {s : Int} (hs : 0 ≤ s) : absInt (ramp x s) ≤ s := by
  rw [absInt_eq_abs, abs_le]
  have hx := absInt_cases x
  have hr := ramp_cases x s hs
  omega

/-- Settles O16: the closed form and the bound are read off the three regions of ramp, oddness off its sign factor. -/
theorem rampClosedForm : Obligations.RampClosedForm := fun x s hs =>
  ⟨ramp_eq_ite hs, rfl, absInt_ramp_le x hs, ramp_zero_left s, ramp_neg x s, ramp_zero_right x⟩

/-! ### `clip` (R125) -/

theorem clip_of_nonneg {x : Int} (h : 0 ≤ x) (lim : Int) : clip x lim = min x (absInt lim) := by
  have hlim := absInt_cases lim
  unfold clip clamp
  omega

theorem clip_neg (x lim : Int) : clip (-x) lim = -clip x lim := by
  have hlim := absInt_cases lim
  unfold clip clamp
  omega

@[simp] theorem clip_zero_right (x : Int) : clip x 0 = 0 := by
  unfold clip clamp
  rw [absInt_zero]
  omega

theorem absInt_clip (x lim : Int) : absInt (clip x lim) = min (absInt x) (absInt lim) := by
  have of_nonneg {y : Int} (hy : 0 ≤ y) : absInt (clip y lim) = min (absInt y) (absInt lim) := by
    have hlim : 0 ≤ absInt lim := absInt_eq_abs lim ▸ abs_nonneg lim
    rw [clip_of_nonneg hy, absInt_eq_abs (min _ _), abs_of_nonneg (le_min hy hlim), absInt_eq_abs y, abs_of_nonneg hy]
  rcases le_or_gt 0 x with hx | hx
  · exact of_nonneg hx
  · have h := of_nonneg (y := -x) (by omega)
    rwa [clip_neg, absInt_neg, absInt_neg] at h

theorem sgn_clip (x lim : Int) : clip x lim = 0 ∨ sgn (clip x lim) = sgn x := by
  refine or_iff_not_imp_left.2 fun hne => ?_
  rcases clip_cases x lim with ⟨hx, hc, hle, -⟩ | ⟨hx, hc, -⟩
  · rw [sgn_of_pos (by omega), sgn_of_pos (by omega)]
  · rw [sgn_of_neg (by omega), sgn_of_neg hx]

/-- Settles O17: clip is odd, and on the numbers from 0 up it is the minimum with |lim|. -/
theorem clipKeepsSignAndBoundsMagnitude : Obligations.ClipKeepsSignAndBoundsMagnitude := fun x lim =>
  ⟨rfl, sgn_clip x lim, absInt_clip x lim⟩

/-! ### EdgeFilter (R126 to R128) -/

theorem toByte_natCast_toNat (v : Byte) : toByte v.toNat = v := by simp [toByte]

theorem clamp_natCast_toNat (v : Byte) : clamp v.toNat 0 255 = v.toNat := by
  have := v.isLt
  unfold clamp
  omega

theorem edgeD2_eq_zero {a b c d s : Int} (h : edgeD1 a b c d s = 0) : edgeD2 a b c d s = 0 := by
  rw [edgeD2, h, tdiv_zero_left, clip_zero_right]

/-- The outer samples move toward each other by at most their distance. -/
theorem edgeD2_cases (a b c d s : Int) :
    (d ≤ a ∧ 0 ≤ edgeD2 a b c d s ∧ edgeD2 a b c d s ≤ a - d) ∨
    (a < d ∧ a - d ≤ edgeD2 a b c d s ∧ edgeD2 a b c d s ≤ 0) := by
  have ht := tdiv_four_cases (a - d)
  have hc := clip_cases (tdiv (a - d) 4) (tdiv (edgeD1 a b c d s) 2)
  unfold edgeD2
  omega

/-- With `d1 = 0` the filter changes nothing. -/
theorem edgeFilter_eq_self {x : Samples} {s : Nat} (h : edgeD1 x.a.toNat x.b.toNat x.c.toNat x.d.toNat s = 0) :
    edgeFilter x s = x := by
  simp only [edgeFilter, edgeA, edgeB, edgeC, edgeDOut, edgeD2_eq_zero h, h, Int.sub_zero, Int.add_zero, clamp_natCast_toNat,
    toByte_natCast_toNat]

theorem edgeD_flat (v : Int) : edgeD v v v v = 0 := by
  have h : v - 4 * v + 4 * v - v = 0 := by ring
  rw [edgeD, h, tdiv_zero_left]

/-- Settles O18: in each case `d1 = 0`, by a value of ramp, and the rest follows from that. -/
theorem edgeFilterIdentities : Obligations.EdgeFilterIdentities := by
  refine ⟨fun x => ?_, fun v s => ?_, fun x s hlarge => ?_⟩
  · have hd1 : edgeD1 x.a.toNat x.b.toNat x.c.toNat x.d.toNat 0 = 0 := ramp_zero_right _
    exact ⟨hd1, edgeD2_eq_zero hd1, edgeFilter_eq_self hd1⟩
  · have hd1 : edgeD1 v.toNat v.toNat v.toNat v.toNat s = 0 := by rw [edgeD1, edgeD_flat, ramp_zero_left]
    exact ⟨edgeD_flat _, hd1, edgeD2_eq_zero hd1, edgeFilter_eq_self hd1⟩
  · have hd1 : edgeD1 x.a.toNat x.b.toNat x.c.toNat x.d.toNat s = 0 := ramp_of_two_mul_le (Int.natCast_nonneg s) hlarge
    exact ⟨hd1, edgeD2_eq_zero hd1, edgeFilter_eq_self hd1⟩

theorem edgeA_between (a b c d s : Int) : min a d ≤ edgeA a b c d s ∧ edgeA a b c d s ≤ max a d := by
  have h := edgeD2_cases a b c d s
  unfold edgeA
  omega

theorem edgeDOut_between (a b c d s : Int) : min a d ≤ edgeDOut a b c d s ∧ edgeDOut a b c d s ≤ max a d := by
  have h := edgeD2_cases a b c d s
  unfold edgeDOut
  omega

/-- An integer between two bytes is stored in a byte exactly. -/
theorem toByte_toNat_of_between {x y : Byte} {v : Int} (h : min (x.toNat : Int) y.toNat ≤ v ∧ v ≤ max (x.toNat : Int) y.toNat) :
    ((toByte v).toNat : Int) = v := by
  have hx := x.isLt
  have hy := y.isLt
  exact toByte_toNat (by omega) (by omega)

theorem edgeFilter_a_toNat (x : Samples) (s : Nat) :
    ((edgeFilter x s).a.toNat : Int) = edgeA x.a.toNat x.b.toNat x.c.toNat x.d.toNat s :=
  toByte_toNat_of_between (edgeA_between _ _ _ _ _)

theorem edgeFilter_b_toNat (x : Samples) (s : Nat) :
    ((edgeFilter x s).b.toNat : Int) = edgeB x.a.toNat x.b.toNat x.c.toNat x.d.toNat s :=
  toByte_toNat (clamp_mem (by decide)).1 (clamp_mem (by decide)).2

theorem edgeFilter_c_toNat (x : Samples) (s : Nat) :
    ((edgeFilter x s).c.toNat : Int) = edgeC x.a.toNat x.b.toNat x.c.toNat x.d.toNat s :=
  toByte_toNat (clamp_mem (by decide)).1 (clamp_mem (by decide)).2

theorem edgeFilter_d_toNat (x : Samples) (s : Nat) :
    ((edgeFilter x s).d.toNat : Int) = edgeDOut x.a.toNat x.b.toNat x.c.toNat x.d.toNat s :=
  toByte_toNat_of_between (edgeDOut_between _ _ _ _ _)

/-- Settles O19: `d2` lies between 0 and `A - D`. -/
theorem outerSamplesStayBetween : Obligations.OuterSamplesStayBetween := by
  refine ⟨fun a b c d s _ => ?_, fun x s => ⟨edgeFilter_a_toNat x s, edgeFilter_d_toNat x s⟩⟩
  obtain ⟨hloA, hhiA⟩ := edgeA_between a b c d s
  obtain ⟨hloD, hhiD⟩ := edgeDOut_between a b c d s
  exact ⟨hloA, hhiA, hloD, hhiD⟩

/-! ### StrengthTable and QLOOKUP (R120, R121, R131) -/

/-- The table does not decrease along the list. -/
theorem strengthTable_sorted : strengthTable.Pairwise fun e e' => e.toNat ≤ e'.toNat := by decide

theorem strengthEntry_eq_getElem (q : BitVec 5) : strengthEntry q = strengthTable[q.toNat]'q.isLt :=
  List.getD_eq_getElem _ _ _

theorem strengthEntry_mono {p q : BitVec 5} (h : p.toNat ≤ q.toNat) :
    (strengthEntry p).toNat ≤ (strengthEntry q).toNat := by
  rcases Nat.eq_or_lt_of_le h with heq | hlt
  · rw [BitVec.eq_of_toNat_eq heq]
  · rw [strengthEntry_eq_getElem, strengthEntry_eq_getElem]
    exact List.pairwise_iff_getElem.1 strengthTable_sorted _ _ _ _ hlt

/-- The first index of a strength in the table. -/
def firstIndex (k : BitVec 4) : BitVec 5 := BitVec.ofNat 5 (strengthTable.idxOf k)

/-- The first index of a strength and the index after it both select it. -/
theorem strengthEntry_firstIndex : ∀ k : BitVec 4, 1 ≤ k.toNat → k.toNat ≤ 12 →
    firstIndex k ≠ firstIndex k + 1 ∧ firstIndex k ≠ 0 ∧ firstIndex k + 1 ≠ 0 ∧
    strengthEntry (firstIndex k) = k ∧ strengthEntry (firstIndex k + 1) = k := by decide

/-- Settles O20: the range entry by entry, the order by `strengthTable_sorted`. -/
theorem strengthTableProperties : Obligations.StrengthTableProperties :=
  ⟨by decide, fun _ _ h => strengthEntry_mono h, fun k h1 h12 => ⟨_, _, strengthEntry_firstIndex k h1 h12⟩⟩

/-- An entry as it reads in a 32-bit RESULT. -/
theorem setWidth_strengthEntry (q : BitVec 5) :
    (strengthEntry q).setWidth 32 = BitVec.ofNat 32 ((strengthTable.map BitVec.toNat).getD q.toNat 0) :=
  calc (strengthEntry q).setWidth 32
    _ = BitVec.ofNat 32 (strengthTable.getD q.toNat 0).toNat := (BitVec.ofNat_toNat 32 _).symm
    _ = _ := congrArg (BitVec.ofNat 32) (List.getD_map _ 0#4 BitVec.toNat).symm

/-- QLOOKUP validates and returns its entry. -/
theorem exec_qlookup (resv : BitVec 19) (q : BitVec 5) (s : State) :
    exec (.qlookup resv q) s =
      .next (s.finishRegister (validate (.qlookup resv q) s.latch) ((strengthEntry q).setWidth 32)) := rfl

/-- Settles O11: the two error codes are those of `validate_qlookup`, and the entries read as listed. -/
theorem qlookupReturnsTheStrength : Obligations.QlookupReturnsTheStrength := by
  intro resv q s
  rw [exec_qlookup, validate_qlookup, setWidth_strengthEntry, finishRegister_eq]
  by_cases hr : resv = 0
  · by_cases hq : q = 0
    · rw [if_pos hr, if_pos hq, if_neg nofun, if_neg (not_not_intro hr), if_pos hq, errBits]
    · rw [if_pos hr, if_neg hq, if_pos rfl, if_neg (not_not_intro hr), if_neg hq]
      rfl
  · rw [if_neg hr, if_neg nofun, if_pos hr, errBits]

/-! ### EDGE (R132) -/

theorem packBytes_extract (b3 b2 b1 b0 : Byte) :
    (packBytes b3 b2 b1 b0).extractLsb' 0 8 = b0 ∧ (packBytes b3 b2 b1 b0).extractLsb' 8 8 = b1 ∧
    (packBytes b3 b2 b1 b0).extractLsb' 16 8 = b2 ∧ (packBytes b3 b2 b1 b0).extractLsb' 24 8 = b3 := by
  unfold packBytes
  simp (disch := decide) only [Laws.extract_append_low, Laws.extract_append_high, Nat.reduceSub, Laws.extract_all, and_self]

theorem edgeWord_extract (x : Samples) :
    (edgeWord x).extractLsb' 0 8 = x.a ∧ (edgeWord x).extractLsb' 8 8 = x.b ∧ (edgeWord x).extractLsb' 16 8 = x.c ∧
    (edgeWord x).extractLsb' 24 8 = x.d :=
  packBytes_extract x.d x.c x.b x.a

theorem exec_edge (resv : BitVec 18) (qm : BitVec 1) (sq : BitVec 5) (s : State) :
    exec (.edge resv qm sq) s = .next (s.finishRegister (validate (.edge resv qm sq) s.latch)
      (edgeWord (edgeFilter (edgeOperands s.latch.edgeIn) (strengthValue qm sq)))) := rfl

/-- A strength field that R87 rejects ends EDGE with the code of R87. -/
theorem exec_edge_badField {resv : BitVec 18} {qm : BitVec 1} {sq : BitVec 5} {c : ErrCode} (s : State) (hr : resv = 0)
    (hs : strengthOf qm sq = .error c) (hc : c ≠ .ok) : exec (.edge resv qm sq) s = .next (s.endedWith (errBits c)) := by
  refine exec_of_error ?_ hc
  rw [validate_edge, if_pos hr, hs, codeOf]

/-- With a legal strength EDGE returns the filtered samples. -/
theorem exec_edge_legal {resv : BitVec 18} {qm : BitVec 1} {sq : BitVec 5} (s : State) (hr : resv = 0)
    (hs : strengthFieldLegal qm sq = true) :
    exec (.edge resv qm sq) s = .next (({ s with
      result := edgeWord (edgeFilter (edgeOperands s.latch.edgeIn) (strengthValue qm sq)) } : State).endedWith 0) := by
  have hv : validate (.edge resv qm sq) s.latch = .ok := by
    rw [validate_edge, if_pos hr, (codeOf_strengthOf_eq_ok_iff qm sq).2 hs]
  rw [exec_edge, finishRegister_eq, hv, if_pos rfl]

theorem strengthValue_natCast (qm : BitVec 1) (sq : BitVec 5) :
    ((strengthValue qm sq : Nat) : Int) = if qm = 0 then (sq.toNat : Int) else ((strengthEntry sq).toNat : Int) :=
  apply_ite Nat.cast _ _ _

/-- Settles O12: validation gives the error forms, and each byte of RESULT is the integer its sample was narrowed from. -/
theorem edgeReturnsTheFilteredSamples : Obligations.EdgeReturnsTheFilteredSamples := by
  intro resv qm sq s
  refine ⟨fun hr => ?_, fun hr hqm hsq => ?_, fun hr hqm hsq => ?_, fun hr hs => ?_⟩
  · have hv : validate (.edge resv qm sq) s.latch = .reservedNonzero := by rw [validate_edge, if_neg hr]
    exact exec_of_error hv nofun
  · exact exec_edge_badField s hr (strengthOf_badStrength hqm hsq) nofun
  · exact exec_edge_badField s hr (strengthOf_badQuant hqm hsq) nofun
  · refine ⟨_, exec_edge_legal s hr hs, ?_⟩
    rw [← strengthValue_natCast]
    obtain ⟨ha, hb, hc, hd⟩ := edgeWord_extract (edgeFilter (edgeOperands s.latch.edgeIn) (strengthValue qm sq))
    rw [ha, hb, hc, hd]
    exact ⟨edgeFilter_a_toNat _ _, edgeFilter_b_toNat _ _, edgeFilter_c_toNat _ _, edgeFilter_d_toNat _ _⟩

end Sys2Proof.Machine
end

section
/-! PROOFS. DEBLOCK (41_deblock.md R130, R133 to R137). A pass is a loop of EdgeFilters over lines that share no byte, so what it
leaves is determined line by line (`FilteredLines`), whatever the order of the lines. -/

namespace Sys2Proof.Machine

/-! ### EdgeFilter over lines that share no byte -/

/-- Lines inside the address space, no two of which share an address. -/
structure LinesApart {α : Type} (q : α → LineAddr) (xs : List α) : Prop where
  good : ∀ x ∈ xs, (q x).Good
  apart : xs.Pairwise fun x y => ∀ p, (q x).has p → ¬(q y).has p

theorem columnLines_apart {b w h : Nat} (hb : RangeFits b (w * h)) : LinesApart (columnAddr b w) (columnLines w h) :=
  ⟨fun _ hp => columnAddr_good hb hp,
    (columnLines_nodup w h).pairwise_of_forall_ne fun _ hp _ hp' hne => columnAddr_disjoint hp hp' hne⟩

theorem rowLines_apart {b w h : Nat} (hb : RangeFits b (w * h)) : LinesApart (rowAddr b w) (rowLines w h) :=
  ⟨fun _ hp => rowAddr_good hb hp,
    (rowLines_nodup w h).pairwise_of_forall_ne fun _ hp _ hp' hne => rowAddr_disjoint hp hp' hne⟩

theorem LinesApart.perm {α : Type} {q : α → LineAddr} {xs ys : List α} (h : LinesApart q xs) (hp : ys.Perm xs) :
    LinesApart q ys :=
  ⟨fun x hx => h.good x (hp.subset hx), (hp.pairwise_iff fun hxy p hy hx => hxy p hx hy).2 h.apart⟩

/-- The memory answers OK to every access to the line. -/
def LineAddr.answers (errs : List (Nat × AccessKind)) (q : LineAddr) : Prop :=
  ∀ p, q.has p → (p, AccessKind.read) ∉ errs ∧ (p, AccessKind.write) ∉ errs

theorem LineAddr.not_has_iff {q : LineAddr} {p : Nat} : ¬q.has p ↔ p ≠ q.a ∧ p ≠ q.b ∧ p ≠ q.c ∧ p ≠ q.d := by
  simp only [LineAddr.has, not_or, ne_eq]

/-- What EdgeFilter over lines leaves: each line filtered from what it held before, every other byte as it was. -/
structure FilteredLines {α : Type} (q : α → LineAddr) (xs : List α) (s : Nat) (m m' : Memory) : Prop where
  wf : m'.wf = true
  samples : ∀ x ∈ xs, (q x).samples m' = edgeFilter ((q x).samples m) s
  outside : ∀ p, (∀ x ∈ xs, ¬(q x).has p) → m'.read p = m.read p

theorem FilteredLines.perm {α : Type} {q : α → LineAddr} {xs ys : List α} {s : Nat} {m m' : Memory}
    (h : FilteredLines q ys s m m') (hp : ys.Perm xs) : FilteredLines q xs s m m' :=
  ⟨h.wf, fun x hx => h.samples x (hp.mem_iff.2 hx), fun p ho => h.outside p fun x hx => ho x (hp.mem_iff.1 hx)⟩

theorem LineAddr.read_eq_of_samples_eq {q : LineAddr} {m m' : Memory} (h : q.samples m = q.samples m') {p : Nat}
    (hp : q.has p) : m.read p = m'.read p := by
  obtain ⟨ha, hb, hc, hd⟩ := Samples.mk.inj h
  rcases hp with rfl | rfl | rfl | rfl
  · exact ha
  · exact hb
  · exact hc
  · exact hd

/-- Only one memory is what EdgeFilter over lines leaves: every byte lies on a line or on none. -/
theorem FilteredLines.unique {α : Type} {q : α → LineAddr} {xs : List α} {s : Nat} {m n n' : Memory}
    (h : FilteredLines q xs s m n) (h' : FilteredLines q xs s m n') : n = n' := by
  refine wf_ext h.wf h'.wf fun p => ?_
  by_cases hp : ∃ x ∈ xs, (q x).has p
  · obtain ⟨x, hx, hin⟩ := hp
    exact LineAddr.read_eq_of_samples_eq ((h.samples x hx).trans (h'.samples x hx).symm) hin
  · have hout : ∀ x ∈ xs, ¬(q x).has p := fun x hx hin => hp ⟨x, hx, hin⟩
    exact (h.outside p hout).trans (h'.outside p hout).symm

theorem LinesApart.forEach_answers {α : Type} {errs : List (Nat × AccessKind)} {q : α → LineAddr} {xs : List α} {m : Memory}
    (h : LinesApart q xs) (s : Nat) (hm : m.wf = true) (ha : ∀ x ∈ xs, (q x).answers errs) :
    ∃ m', forEach (fun x => (q x).filter errs s) xs m = some m' ∧ FilteredLines q xs s m m' := by
  obtain ⟨m', he, hw, hs, ho⟩ := forEach_filter (s := s) hm h.good ha h.apart
  exact ⟨m', he, hw, hs, ho⟩

theorem LineAddr.filter_eq_none_iff_not_answers {errs : List (Nat × AccessKind)} {s : Nat} (q : LineAddr) (m : Memory) :
    q.filter errs s m = none ↔ ¬q.answers errs := by
  simp only [q.filter_eq_none_iff, LineAddr.answers, not_forall, not_and_or, not_not, exists_prop]

theorem forEach_filter_eq_none_iff {α : Type} {errs : List (Nat × AccessKind)} {s : Nat} {q : α → LineAddr} {xs : List α}
    {m : Memory} : forEach (fun x => (q x).filter errs s) xs m = none ↔ ∃ x ∈ xs, ¬(q x).answers errs :=
  forEach_eq_none_iff (fun x _ m => LineAddr.filter_eq_none_iff_not_answers (q x) m) m

/-- Any order of the lines meets a bus error alike, or leaves the same memory (R130, R136). -/
theorem LinesApart.forEach_perm {α : Type} {errs : List (Nat × AccessKind)} {q : α → LineAddr} {xs ys : List α} {m : Memory}
    (h : LinesApart q xs) (s : Nat) (hm : m.wf = true) (hp : ys.Perm xs) :
    forEach (fun x => (q x).filter errs s) ys m = forEach (fun x => (q x).filter errs s) xs m := by
  by_cases hbad : ∃ x ∈ xs, ¬(q x).answers errs
  · have hbad' : ∃ x ∈ ys, ¬(q x).answers errs := hbad.imp fun x hx => ⟨hp.mem_iff.2 hx.1, hx.2⟩
    rw [forEach_filter_eq_none_iff.2 hbad, forEach_filter_eq_none_iff.2 hbad']
  · have ha : ∀ x ∈ xs, (q x).answers errs := fun x hx => by_contra fun hn => hbad ⟨x, hx, hn⟩
    obtain ⟨n, hn, hf⟩ := h.forEach_answers s hm ha
    obtain ⟨n', hn', hf'⟩ := (h.perm hp).forEach_answers s hm fun x hx => ha x (hp.subset hx)
    rw [hn, hn', (hf'.perm hp).unique hf]

/-- Settles O25: both passes are loops over lines that share no byte. -/
theorem lineOrderWithinAPassIsUnobservable : Obligations.LineOrderWithinAPassIsUnobservable := by
  intro errs b w h s m lines hm hb
  refine ⟨fun hp => ?_, fun hp => ?_⟩
  · rw [horizontalPass_eq]
    exact (columnLines_apart hb).forEach_perm s hm hp
  · rw [verticalPass_eq]
    exact (rowLines_apart hb).forEach_perm s hm hp

/-! ### The enabled passes (R133) -/

theorem deblockPlane_horizontal (errs : List (Nat × AccessKind)) (b w h s : Nat) (m : Memory) :
    deblockPlane errs 1 0 b w h s m = horizontalPass errs b w h s m := Option.bind_fun_some _

theorem deblockPlane_vertical (errs : List (Nat × AccessKind)) (b w h s : Nat) (m : Memory) :
    deblockPlane errs 0 1 b w h s m = verticalPass errs b w h s m := rfl

theorem deblockPlane_both (errs : List (Nat × AccessKind)) (b w h s : Nat) (m : Memory) :
    deblockPlane errs 1 1 b w h s m = (horizontalPass errs b w h s m).bind (verticalPass errs b w h s) := rfl

theorem horizontalPass_small {h : Nat} (hh : h < 10) (errs : List (Nat × AccessKind)) (b w s : Nat) (m : Memory) :
    horizontalPass errs b w h s m = some m := by
  rw [horizontalPass, edgePositions_small hh, forEach_nil]

theorem verticalPass_small {w : Nat} (hw : w < 10) (errs : List (Nat × AccessKind)) (b h s : Nat) (m : Memory) :
    verticalPass errs b w h s m = some m := by
  rw [verticalPass, edgePositions_small hw, forEach_nil]

/-- Passes without an edge make no access (R137). -/
theorem deblockPlane_small {hp vp : BitVec 1} {w h : Nat} (hh : hp = 1 → h < 10) (hv : vp = 1 → w < 10)
    (errs : List (Nat × AccessKind)) (b s : Nat) (m : Memory) : deblockPlane errs hp vp b w h s m = some m := by
  have hrow : (if hp = 1#1 then horizontalPass errs b w h s m else some m) = some m :=
    ite_eq_right_iff.2 fun h1 => horizontalPass_small (hh h1) errs b w s m
  rw [deblockPlane, hrow, Option.bind_some]
  exact ite_eq_right_iff.2 fun h1 => verticalPass_small (hv h1) errs b h s m

/-! ### DEBLOCK as a command -/

/-- DEBLOCK whose accesses are answered leaves the memory of its passes (40_command_control.md R104). -/
theorem exec_deblock_of_some {v h qm : BitVec 1} {sq : BitVec 5} {s : State} {m : Memory}
    (hq : strengthFieldLegal qm sq = true) (hb : RangeFits s.latch.src0.toNat (s.latch.width * s.latch.height))
    (ho : s.touchesNonOrdinary (footprintOf (.deblock 0 v h qm sq) s.latch) = false)
    (hm : deblockPlane s.memErr h v s.latch.src0.toNat s.latch.width s.latch.height (strengthValue qm sq) s.mem = some m) :
    exec (.deblock 0 v h qm sq) s = .next (({ s with mem := m } : State).endedWith 0) :=
  runMemoryCommand_some ((validate_deblock_eq_ok_iff v h qm sq s.latch).2 ⟨hq, hb⟩) ho hm

/-- Settles O26: passes without an edge leave the memory they found. -/
theorem smallPlanesAreLeftAlone : Obligations.SmallPlanesAreLeftAlone := fun _ _ _ _ _ hh hv hq hb ho =>
  exec_deblock_of_some hq hb ho (deblockPlane_small hh hv _ _ _ _)

/-- What a DEBLOCK of `s` that ended in `t` with code 0 met, and what it left for the next command to work on. -/
structure DeblockDone (v h qm : BitVec 1) (sq : BitVec 5) (s t : State) : Prop where
  legal : strengthFieldLegal qm sq = true
  fits : RangeFits s.latch.src0.toNat (s.latch.width * s.latch.height)
  ordinary : s.touchesNonOrdinary (footprintOf (.deblock 0 v h qm sq) s.latch) = false
  plane : deblockPlane s.memErr h v s.latch.src0.toNat s.latch.width s.latch.height (strengthValue qm sq) s.mem = some t.mem
  latch : t.latch = s.latch
  memErr : t.memErr = s.memErr

theorem deblockDone_of_exec {v h qm : BitVec 1} {sq : BitVec 5} {s t : State}
    (he : exec (.deblock 0 v h qm sq) s = .next t) (h0 : t.errcode = 0) : DeblockDone v h qm sq s t := by
  rcases runMemoryCommand_next he with ⟨hv, rfl⟩ | ⟨hv, ho, ⟨m, hm, rfl⟩ | ⟨-, rfl⟩⟩
  · exact absurd ((errBits_eq_zero_iff _).1 h0) hv
  · obtain ⟨hq, hb⟩ := (validate_deblock_eq_ok_iff v h qm sq s.latch).1 hv
    exact ⟨hq, hb, ho, hm, rfl, rfl⟩
  · exact absurd h0 (show (9 : BitVec 4) ≠ 0 by decide)

/-- Settles O24: the second DEBLOCK works on what the first one left of memory, with the same latch and the same answers. -/
theorem bothPassesAreHorizontalThenVertical : Obligations.BothPassesAreHorizontalThenVertical := by
  intro qm sq s t ht ht0 u hu hu0
  obtain ⟨hq, hb, ho, hhor, hlatch, herr⟩ := deblockDone_of_exec ht ht0
  obtain ⟨-, -, -, hver, -, -⟩ := deblockDone_of_exec hu hu0
  rw [deblockPlane_horizontal] at hhor
  rw [deblockPlane_vertical, hlatch, herr] at hver
  refine exec_deblock_of_some hq hb ho ?_
  rw [deblockPlane_both, hhor, Option.bind_some, hver]

/-! ### A memory that serves the plane -/

/-- The memory answers OK to every access to the plane. -/
def planeAnswers (errs : List (Nat × AccessKind)) (b w h : Nat) : Prop :=
  ∀ a ∈ planeSet b w h, (a, AccessKind.read) ∉ errs ∧ (a, AccessKind.write) ∉ errs

/-- DEBLOCK's footprint is its plane, for reads and for writes (20_memory.md R66). -/
theorem planeAnswers_of_memoryServes {v h qm : BitVec 1} {sq : BitVec 5} {s : State}
    (hs : s.memoryServes (footprintOf (.deblock 0 v h qm sq) s.latch) = true) :
    planeAnswers s.memErr s.latch.src0.toNat s.latch.width s.latch.height := by
  obtain ⟨-, hr, hw⟩ := (memoryServes_iff _ s).1 hs
  intro a ha
  have hin : inSpans [⟨s.latch.src0.toNat, s.latch.width * s.latch.height⟩] a = true :=
    (inSpans_iff _ a).2 ⟨_, List.mem_singleton_self _, ha⟩
  exact ⟨hr a hin, hw a hin⟩

theorem planeAnswers.column {errs : List (Nat × AccessKind)} {b w h : Nat} (hok : planeAnswers errs b w h) {p : Nat × Nat}
    (hp : p ∈ columnLines w h) : (columnAddr b w p).answers errs := by
  intro a ha
  obtain ⟨y, rfl, hy, -, -⟩ := columnAddr_has hp ha
  exact hok _ (planeAddr_mem_planeSet ((mem_columnLines w h p).1 hp).2 hy)

theorem planeAnswers.row {errs : List (Nat × AccessKind)} {b w h : Nat} (hok : planeAnswers errs b w h) {p : Nat × Nat}
    (hp : p ∈ rowLines w h) : (rowAddr b w p).answers errs := by
  intro a ha
  obtain ⟨x, rfl, hx, -, -⟩ := rowAddr_has hp ha
  exact hok _ (planeAddr_mem_planeSet hx ((mem_rowLines w h p).1 hp).2)

/-- The passes access samples of the plane alone. -/
theorem planeAnswers.not_deblockErrs {errs : List (Nat × AccessKind)} {b w h : Nat} (hok : planeAnswers errs b w h)
    (hp vp : BitVec 1) : ¬deblockErrs errs hp vp b w h := by
  rintro (⟨-, x, y, q, hx, hy, -, hq, he⟩ | ⟨-, x, y, q, hx, hy, -, hq, he⟩)
  · obtain ⟨hr, hw⟩ := hok _ (planeAddr_mem_planeSet (y := q) hx (by omega))
    exact he.elim hr hw
  · obtain ⟨hr, hw⟩ := hok _ (planeAddr_mem_planeSet (x := q) (by omega) hy)
    exact he.elim hr hw

/-- Settles O21: no access errs, and what the passes leave differs from what they found inside the plane only. -/
theorem deblockCompletesInsideThePlane : Obligations.DeblockCompletesInsideThePlane := by
  intro v h qm sq s plane hq hb hs
  have hok := planeAnswers_of_memoryServes hs
  obtain ⟨m, hm⟩ := Option.ne_none_iff_exists'.1 fun hnone => hok.not_deblockErrs h v (deblockPlane_eq_none_iff.1 hnone)
  exact ⟨m, exec_deblock_of_some hq hb ((memoryServes_iff _ s).1 hs).1 hm, fun a ha => deblockPlane_outside hm ha⟩

/-- Settles O22: the lines of the pass are the columns across its edge rows. -/
theorem horizontalPassFiltersEveryEdgeLine : Obligations.HorizontalPassFiltersEveryEdgeLine := by
  intro qm sq s b W H hwf hq hb hs
  have hok := planeAnswers_of_memoryServes hs
  obtain ⟨m, hm, -, hsamples, houtside⟩ :=
    (columnLines_apart hb).forEach_answers (strengthValue qm sq) hwf fun p hp => hok.column hp
  refine ⟨m, exec_deblock_of_some hq hb ((memoryServes_iff _ s).1 hs).1 ?_, fun x y hx hy => ?_, fun a ha => ?_⟩
  · rw [deblockPlane_horizontal, horizontalPass_eq]
    exact hm
  · exact hsamples (y, x) ((mem_columnLines W H _).2 ⟨hy, hx⟩)
  · refine houtside a fun p hp => LineAddr.not_has_iff.2 ?_
    obtain ⟨hy, hx⟩ := (mem_columnLines W H p).1 hp
    exact ha p.2 p.1 hx hy

/-- Settles O23: the lines of the pass are the rows across its edge columns. -/
theorem verticalPassFiltersEveryEdgeLine : Obligations.VerticalPassFiltersEveryEdgeLine := by
  intro qm sq s b W H hwf hq hb hs
  have hok := planeAnswers_of_memoryServes hs
  obtain ⟨m, hm, -, hsamples, houtside⟩ :=
    (rowLines_apart hb).forEach_answers (strengthValue qm sq) hwf fun p hp => hok.row hp
  refine ⟨m, exec_deblock_of_some hq hb ((memoryServes_iff _ s).1 hs).1 ?_, fun x y hx hy => ?_, fun a ha => ?_⟩
  · rw [deblockPlane_vertical, verticalPass_eq]
    exact hm
  · exact hsamples (x, y) ((mem_rowLines W H _).2 ⟨hx, hy⟩)
  · refine houtside a fun p hp => LineAddr.not_has_iff.2 ?_
    obtain ⟨hx, hy⟩ := (mem_rowLines W H p).1 hp
    exact ha p.1 p.2 hx hy

end Sys2Proof.Machine
end

section
/-! PROOFS. The colour unit (42_color_lut.md): its ROM, its conversion, and the two commands LUTRD and CVT. The ROM is compared with
its formula once; ranges and neutral entries are then read off the formula. -/

namespace Sys2Proof.Machine

/-! ### The ROM and its formula (R160 to R162) -/

/-- The least value of a table. -/
def lutLeast : LutTable → Int
  | .yToGray => -298
  | .crToR => -3196
  | .crToG => -1615
  | .cbToG => -781
  | .cbToB => -4039

/-- The greatest value of a table. -/
def lutGreatest : LutTable → Int
  | .yToGray => 4453
  | .crToR => 3171
  | .crToG => 1627
  | .cbToG => 787
  | .cbToB => 4008

/-- The quotients are of linear functions of the index, so an index of 0..255 bounds them. -/
theorem lutFormula_mem (t : LutTable) (v : Byte) : lutLeast t ≤ lutFormula t v ∧ lutFormula t v ≤ lutGreatest t := by
  have hv := v.isLt
  cases t <;> simp only [lutFormula, roundQuot, lutCoefficient, lutLeast, lutGreatest] <;> omega

/-- The listed rows are the formula, entry by entry. -/
theorem lutRows_eq_formula (t : LutTable) :
    lutRows t = (List.range 16).map fun i => (List.range 16).map fun k => lutFormula t (BitVec.ofNat 8 (16 * i + k)) := by
  cases t <;> decide

/-- The entry listed for an index, before it is stored in 16 bits. -/
theorem listed_eq_lutFormula (t : LutTable) (v : Byte) :
    ((lutRows t).getD (v.toNat / 16) []).getD (v.toNat % 16) 0 = lutFormula t v := by
  have hi : v.toNat / 16 < 16 := Nat.div_lt_of_lt_mul v.isLt
  have hk : v.toNat % 16 < 16 := Nat.mod_lt _ (by decide)
  simp [lutRows_eq_formula, hi, hk, Nat.div_add_mod]

/-- Settles O27: the formula fits in 16 bits, so storing the listed entry loses nothing. -/
theorem romEqualsItsFormula : Obligations.RomEqualsItsFormula := by
  intro t v
  have hfits : -32768 ≤ lutFormula t v ∧ lutFormula t v < 32768 := by
    have := lutFormula_mem t v
    cases t <;> simp only [lutLeast, lutGreatest] at this <;> omega
  rw [lutValue, lutEntry, listed_eq_lutFormula, BitVec.toInt_ofInt]
  exact Int.bmod_eq_of_le (by omega) (by omega)

theorem lutValue_mem (t : LutTable) (v : Byte) : lutLeast t ≤ lutValue t v ∧ lutValue t v ≤ lutGreatest t := by
  rw [romEqualsItsFormula]
  exact lutFormula_mem t v

/-! ### Conversion (R163 to R165) -/

/-- Floor and truncating division by 16 differ only on negative numbers, which both clamp to 0. -/
theorem clamp_asr_eq_clamp_tdiv (x : Int) : clamp (asr x 4) 0 255 = clamp (tdiv x 16) 0 255 := by
  have hasr : asr x 4 = x / 16 := rfl
  rcases Int.lt_or_le x 0 with hneg | hnonneg
  · rw [hasr, tdiv_neg_eq hneg, clamp, clamp]
    omega
  · rw [hasr, tdiv_nonneg_eq hnonneg]

/-- Settles O29: each sum ranges between the sums of its tables' ends. -/
theorem conversionSumsAreInRange : Obligations.ConversionSumsAreInRange := by
  intro y cb cr r g b
  have hgray := lutValue_mem .yToGray y
  have hr := lutValue_mem .crToR cr
  have hgr := lutValue_mem .crToG cr
  have hgb := lutValue_mem .cbToG cb
  have hb := lutValue_mem .cbToB cb
  simp only [lutLeast, lutGreatest] at hgray hr hgr hgb hb
  exact ⟨by omega, by omega, by omega, clamp_asr_eq_clamp_tdiv r, clamp_asr_eq_clamp_tdiv g, clamp_asr_eq_clamp_tdiv b⟩

/-- A chroma sample of 128 adds nothing. -/
theorem lutValue_chroma_128 {t : LutTable} (h : t ≠ .yToGray) : lutValue t 128#8 = 0 := by
  rw [romEqualsItsFormula]
  cases t with
  | yToGray => exact absurd rfl h
  | crToR | crToG | cbToG | cbToB => rfl

/-- Without chroma the three channels are the gray value. -/
theorem convert_gray (y : Byte) : convert y 128 128 =
    ⟨channel (lutValue .yToGray y), channel (lutValue .yToGray y), channel (lutValue .yToGray y)⟩ := by
  simp [convert, lutValue_chroma_128]

/-- Settles O28: every vector is a gray, so one table entry decides it. -/
theorem conversionVectorsHold : Obligations.ConversionVectorsHold := by
  unfold Obligations.ConversionVectorsHold
  simp only [convert_gray]
  decide

/-- The narrowing of a channel to a byte never truncates. -/
theorem channel_toNat (sum : Int) : ((channel sum).toNat : Int) = clamp (asr (sum + 8) 4) 0 255 :=
  toByte_toNat (clamp_mem (by decide)).1 (clamp_mem (by decide)).2

/-! ### CVT (R168) -/

theorem rgbaWord_extract (p : Rgb) :
    (rgbaWord p).extractLsb' 0 8 = p.r ∧ (rgbaWord p).extractLsb' 8 8 = p.g ∧ (rgbaWord p).extractLsb' 16 8 = p.b ∧
    (rgbaWord p).extractLsb' 24 8 = 255#8 :=
  packBytes_extract 255 p.b p.g p.r

theorem exec_cvt (resv : BitVec 24) (s : State) :
    exec (.cvt resv) s = .next (s.finishRegister (validate (.cvt resv) s.latch)
      (rgbaWord (convert (byteOf s.latch.pixIn 0) (byteOf s.latch.pixIn 1) (byteOf s.latch.pixIn 2)))) := rfl

/-- Settles O14: each byte of RESULT is the integer its channel was narrowed from. -/
theorem cvtReturnsTheConvertedPixel : Obligations.CvtReturnsTheConvertedPixel := by
  intro resv s
  rw [exec_cvt, validate_cvt, finishRegister_eq]
  refine ⟨fun hresv => ?_, fun hresv => ?_⟩
  · rw [if_neg hresv, if_neg nofun, errBits]
  · rw [if_pos hresv, if_pos rfl]
    refine ⟨_, rfl, ?_⟩
    obtain ⟨hr, hg, hb, ha⟩ := rgbaWord_extract
      (convert (byteOf s.latch.pixIn 0) (byteOf s.latch.pixIn 1) (byteOf s.latch.pixIn 2))
    rw [hr, hg, hb, ha]
    exact ⟨channel_toNat _, channel_toNat _, channel_toNat _, rfl⟩

/-! ### LUTRD (R167) -/

theorem exec_lutrd (resv : BitVec 13) (tsel : BitVec 3) (idx : BitVec 8) (s : State) :
    exec (.lutrd resv tsel idx) s =
      .next (s.finishRegister (validate (.lutrd resv tsel idx) s.latch) (lutWord tsel idx)) := rfl

theorem tableOf_eq_none_iff : ∀ tsel : BitVec 3, tableOf tsel = none ↔ 4 < tsel.toNat := by decide

/-- Sign extension of the entry is the 32-bit word of its value. -/
theorem lutWord_of_tableOf {tsel : BitVec 3} {t : LutTable} (h : tableOf tsel = some t) (idx : BitVec 8) :
    lutWord tsel idx = BitVec.ofInt 32 (lutValue t idx) := by
  rw [lutWord, h]
  rfl

/-- LUTRD by the table that TSEL selects, if any. -/
theorem exec_lutrd_tableOf (tsel : BitVec 3) (idx : BitVec 8) (s : State) :
    exec (.lutrd 0 tsel idx) s = .next ((tableOf tsel).elim (s.endedWith 5)
      fun t => ({ s with result := BitVec.ofInt 32 (lutValue t idx) } : State).endedWith 0) := by
  have hnone := tableOf_eq_none_iff tsel
  rw [exec_lutrd, validate_lutrd, if_pos rfl, finishRegister_eq]
  cases ht : tableOf tsel with
  | none =>
    rw [if_pos (hnone.1 ht), if_neg nofun]
    rfl
  | some t =>
    have hlegal : ¬4 < tsel.toNat := fun h => nomatch ht.symm.trans (hnone.2 h)
    rw [if_neg hlegal, if_pos rfl, lutWord_of_tableOf ht]
    rfl

/-- Settles O13: `exec_lutrd_tableOf` with the comparisons of `tableOf` written out. -/
theorem lutrdReturnsTheEntry : Obligations.LutrdReturnsTheEntry := by
  intro resv tsel idx s
  by_cases hr : resv = 0
  · rw [hr, exec_lutrd_tableOf, if_neg (not_not_intro rfl), tableOf]
    split_ifs <;> rfl
  · have hv : validate (.lutrd resv tsel idx) s.latch = .reservedNonzero := by rw [validate_lutrd, if_neg hr]
    rw [if_pos hr]
    exact exec_of_error hv nofun

end Sys2Proof.Machine
end

section
/-! PROOFS. The upsampler and the compositor (43_upsample_compose.md): which chroma indices a luma position reads, what the kernel
makes of the samples there, and the two commands UPS and COMPOSE. -/

namespace Sys2Proof.Machine

/-! ### Chroma indices (R191) -/

theorem clampIndex_of_legal {i : Int} {n : Nat} (h0 : 0 ≤ i) (hn : i < n) : (clampIndex i n : Int) = i := by
  unfold clampIndex clamp
  omega

theorem clampIndex_of_neg {i : Int} (h : i < 0) (n : Nat) : clampIndex i n = 0 := by
  unfold clampIndex clamp
  omega

theorem clampIndex_of_ge {i : Int} {n : Nat} (h : n ≤ i) : clampIndex i n = n - 1 := by
  unfold clampIndex clamp
  omega

/-- An odd luma index `2k + 1` lies right after chroma sample `k`, an even one `2k` right before it. -/
theorem nearIndex_eq (p : Nat) : nearIndex p = (p / 2 : Nat) := by
  unfold nearIndex
  split <;> omega

/-- The far index with the near one written out, as R191 states it. -/
theorem farIndex_eq (p : Nat) : farIndex p = if p % 2 = 1 then ((p : Int) - 1) / 2 + 1 else (p : Int) / 2 - 1 := by
  unfold farIndex nearIndex
  split_ifs <;> rfl

theorem farIndex_of_odd {p : Nat} (h : p % 2 = 1) : farIndex p = (p / 2 : Nat) + 1 := by
  rw [farIndex, if_pos h, nearIndex_eq]

theorem farIndex_of_even {p : Nat} (h : p % 2 = 0) : farIndex p = (p / 2 : Nat) - 1 := by
  rw [farIndex, if_neg (by omega), nearIndex_eq]

theorem nearFar_fst {p n : Nat} (h : p < 2 * n) : ((nearFar p n).1 : Int) = nearIndex p := by
  have hnear := nearIndex_eq p
  exact clampIndex_of_legal (by omega) (by omega)

/-- Between the two ends the far index is legal as it is. -/
theorem nearFar_snd {p n : Nat} (h0 : 0 < p) (h : p < 2 * n - 1) : ((nearFar p n).2 : Int) = farIndex p := by
  rcases Nat.mod_two_eq_zero_or_one p with hp | hp
  · have hfar := farIndex_of_even hp
    exact clampIndex_of_legal (by omega) (by omega)
  · have hfar := farIndex_of_odd hp
    exact clampIndex_of_legal (by omega) (by omega)

/-- Settles O30: at the two ends the far index is -1 and `n`, and everywhere else both indices are legal as they are. -/
theorem nearFarClampsOnlyTheEnds : Obligations.NearFarClampsOnlyTheEnds := by
  intro p n h
  obtain ⟨hnear, hfar⟩ := nearFar_lt (p := p) (show 0 < n by omega)
  refine ⟨nearFar_fst h, fun h0 h1 => (nearFar_snd h0 h1).trans (farIndex_eq p), fun hp => ?_, fun hp => ?_, hnear, hfar⟩
  · have hleft : farIndex p < 0 := by
      rw [farIndex_of_even (by omega)]
      omega
    exact clampIndex_of_neg hleft n
  · have hright : (n : Int) ≤ farIndex p := by
      rw [farIndex_of_odd (by omega)]
      omega
    exact clampIndex_of_ge hright

/-- The luma index right after chroma sample `k` reads `k`, then the next one. -/
theorem nearFar_after {k n : Nat} (h : k + 1 < n) : nearFar (2 * k + 1) n = (k, k + 1) := by
  have hnear := nearFar_fst (p := 2 * k + 1) (n := n) (by omega)
  have hfar := nearFar_snd (p := 2 * k + 1) (n := n) (by omega) (by omega)
  rw [nearIndex_eq] at hnear
  rw [farIndex_of_odd (by omega)] at hfar
  exact Prod.ext (by omega) (by omega)

/-- The luma index right before chroma sample `k + 1` reads `k + 1`, then the one before. -/
theorem nearFar_before {k n : Nat} (h : k + 1 < n) : nearFar (2 * k + 2) n = (k + 1, k) := by
  have hnear := nearFar_fst (p := 2 * k + 2) (n := n) (by omega)
  have hfar := nearFar_snd (p := 2 * k + 2) (n := n) (by omega) (by omega)
  rw [nearIndex_eq] at hnear
  rw [farIndex_of_even (by omega)] at hfar
  exact Prod.ext (by omega) (by omega)

/-! ### The kernel (R192 to R194) -/

/-- Settles O32: each of the four positions lies after or before a chroma sample in each direction. -/
theorem interiorQuadValues : Obligations.InteriorQuadValues := by
  intro m base cw ch i j hi hj
  simp only [upsampledAt, nearFar_after hi, nearFar_before hi, nearFar_after hj, nearFar_before hj, and_self]

/-- Settles O31: the weights add up to 16, and the rounding term 8 is less than that. -/
theorem upsampledValueIsAWeightedMean : Obligations.UpsampledValueIsAWeightedMean := by
  intro nn fn nf ff
  have hvalue := upsampleValue_toNat nn fn nf ff
  refine ⟨hvalue, by omega, by omega, BitVec.eq_of_toNat_eq ?_⟩
  rw [upsampleValue_toNat]
  omega

/-! ### UPS (R196) -/

/-- A position outside the frame is found before the ranges are looked at (40_command_control.md R103 step 4). -/
theorem validate_of_badPosition {i : Instr} {L : Latch} (hr : i.reservedClear = true) (hf : i.fieldsLegal = true)
    (hp : checkPosition i L = .badPos) : validate i L = .badPos := by
  simp [validate, firstError, checkReserved_eq, hr, (checkFields_eq_ok_iff i).2 hf, hp]

/-- UPS reads its two chroma planes. -/
theorem inSpans_ups_reads (resv : BitVec 24) (L : Latch) (a : Nat) :
    inSpans (footprintOf (.ups resv) L).reads a = true ↔
      a ∈ planeSet L.src1.toNat L.chromaWidth L.chromaHeight ∨ a ∈ planeSet L.src2.toNat L.chromaWidth L.chromaHeight := by
  simp [inSpans_iff, footprintOf, planeSet]

/-- Inside the frame the upsampler's answer is the two samples, where no read of the chroma planes errs. -/
theorem upsampledWord_total {errs : List (Nat × AccessKind)} {L : Latch} (m : Memory) (hx : L.posX < L.width)
    (hy : L.posY < L.height)
    (hcb : ∀ a ∈ planeSet L.src1.toNat L.chromaWidth L.chromaHeight, (a, AccessKind.read) ∉ errs)
    (hcr : ∀ a ∈ planeSet L.src2.toNat L.chromaWidth L.chromaHeight, (a, AccessKind.read) ∉ errs) :
    upsampledWord errs m L = some (packBytes 0 0
      (BitVec.ofNat 8 (upsampledAt m L.src2.toNat L.chromaWidth L.chromaHeight L.posX L.posY))
      (BitVec.ofNat 8 (upsampledAt m L.src1.toNat L.chromaWidth L.chromaHeight L.posX L.posY))) := by
  have hw : 0 < L.chromaWidth := chromaWidth_pos (Nat.zero_lt_of_lt hx)
  have hh : 0 < L.chromaHeight := chromaHeight_pos (Nat.zero_lt_of_lt hy)
  rw [upsampledWord, upsampleAt_total m _ _ hw hh fun a h1 h2 => hcb a ⟨h1, h2⟩,
    upsampleAt_total m _ _ hw hh fun a h1 h2 => hcr a ⟨h1, h2⟩]
  rfl

theorem packBytes_extract_high (b3 b2 b1 b0 : Byte) : (packBytes b3 b2 b1 b0).extractLsb' 16 16 = b3 ++ b2 := by
  unfold packBytes
  simp (disch := decide) only [Laws.extract_append_high, Nat.reduceSub, Laws.extract_all]

/-- RESULT of UPS holds its two samples whole, for they are numbers below 256. -/
theorem packBytes_chroma_extract {cb cr : Nat} (hcb : cb < 256) (hcr : cr < 256) :
    let w := packBytes 0 0 (BitVec.ofNat 8 cr) (BitVec.ofNat 8 cb)
    (w.extractLsb' 0 8).toNat = cb ∧ (w.extractLsb' 8 8).toNat = cr ∧ w.extractLsb' 16 16 = 0#16 := by
  obtain ⟨hlow, hnext, -, -⟩ := packBytes_extract 0 0 (BitVec.ofNat 8 cr) (BitVec.ofNat 8 cb)
  dsimp only
  rw [hlow, hnext, BitVec.toNat_ofNat, BitVec.toNat_ofNat]
  exact ⟨Nat.mod_eq_of_lt hcb, Nat.mod_eq_of_lt hcr, packBytes_extract_high _ _ _ _⟩

/-- Settles O15: validation gives the two error forms, and each byte of RESULT is the number its sample was narrowed from. -/
theorem upsReturnsTheUpsampledChroma : Obligations.UpsReturnsTheUpsampledChroma := by
  intro s L
  refine ⟨fun hout => ?_, fun hx hy hend => ?_, fun hx hy hcb hcr hs => ?_⟩
  · have hposition : checkPosition (.ups 0) L = .badPos := if_pos hout
    exact exec_of_error (validate_of_badPosition rfl rfl hposition) nofun
  · have hposition : checkPosition (.ups 0) L = .ok := if_neg (by omega)
    have hranges : checkRanges (footprintOf (.ups 0) L) = .addrRange := by
      rcases hend with h | h <;> exact checkRanges_of_exceeds (by simp [footprintOf]) h
    exact exec_of_error (validate_of_badRanges rfl rfl hposition hranges) nofun
  · obtain ⟨ho, hreads, -⟩ := (memoryServes_iff _ s).1 hs
    have hv : validate (.ups 0) L = .ok := (validate_ups_eq_ok_iff L).2 ⟨⟨hx, hy⟩, hcb, hcr⟩
    have hword := upsampledWord_total s.mem hx hy (fun a ha => hreads a ((inSpans_ups_reads 0 L a).2 (.inl ha)))
      fun a ha => hreads a ((inSpans_ups_reads 0 L a).2 (.inr ha))
    exact ⟨_, runMemoryCommand_some hv ho hword,
      packBytes_chroma_extract (upsampledAt_lt _ _ _ _ _ _) (upsampledAt_lt _ _ _ _ _ _)⟩

/-! ### COMPOSE (R195, R197) -/

/-- COMPOSE whose accesses are answered leaves the memory of its loop (40_command_control.md R104). -/
theorem exec_compose_of_some {s : State} {m : Memory} (hv : validate (.compose 0) s.latch = .ok)
    (ho : s.touchesNonOrdinary (footprintOf (.compose 0) s.latch) = false)
    (hm : composeFrame s.memErr s.latch s.mem = some m) :
    exec (.compose 0) s = .next (({ s with mem := m } : State).endedWith 0) :=
  runMemoryCommand_some hv ho hm

/-- An RGBA buffer apart from the three source planes holds no byte of them. -/
theorem not_inOutput_of_inSources {L : Latch}
    (h0 : RangesApart L.dst.toNat (4 * (L.width * L.height)) L.src0.toNat (L.width * L.height))
    (h1 : RangesApart L.dst.toNat (4 * (L.width * L.height)) L.src1.toNat (L.chromaWidth * L.chromaHeight))
    (h2 : RangesApart L.dst.toNat (4 * (L.width * L.height)) L.src2.toNat (L.chromaWidth * L.chromaHeight))
    {a : Nat} (ha : L.inSources a) : ¬L.inOutput a := by
  unfold Latch.inOutput
  rcases ha with ha | ha | ha <;> omega

/-- Settles O33: the loop visits every pixel of the frame once, and no pixel's bytes are a source of another. -/
theorem composeWritesEveryPixel : Obligations.ComposeWritesEveryPixel := by
  intro s L luma chroma hwf hluma hcb hcr hout hapart0 hapart1 hapart2 hs
  obtain ⟨ho, hreads, hwrites⟩ := (memoryServes_iff _ s).1 hs
  have hv : validate (.compose 0) L = .ok :=
    (validate_compose_eq_ok_iff L).2 ⟨⟨hluma, hcb, hcr, hout⟩, hapart0, hapart1, hapart2⟩
  have hbuffer : luma = 0 ∨ L.dst.toNat + 4 * luma ≤ Config.addressLimit :=
    hout.imp_left fun h => by omega
  obtain ⟨m, hloop, -, hpixels, -⟩ := forEach_composePixel hwf (fun p => (mem_framePixels L p).1) (framePixels_nodup L)
    hbuffer (fun a => not_inOutput_of_inSources hapart0 hapart1 hapart2)
    (fun a ha => hreads a ((inSpans_compose_reads 0 L a).2 ha))
    fun a ha => hwrites a ((inSpans_compose_writes 0 L a).2 ha)
  rw [← composeFrame_eq] at hloop
  refine ⟨m, exec_compose_of_some hv ho hloop, fun x y hx hy => ?_, fun a ha => composeFrame_outside hloop ?_⟩
  · exact hpixels (y, x) ((mem_framePixels L _).2 ⟨hx, hy⟩)
  · unfold Latch.inOutput
    omega

/-! ### Empty frames (R197) -/

/-- Every range of an empty frame is empty. -/
theorem footprintOf_compose_empty {L : Latch} (h : L.width = 0 ∨ L.height = 0) :
    ∀ r ∈ (footprintOf (.compose 0) L).reads ++ (footprintOf (.compose 0) L).writes, r.len = 0 := by
  have hluma : L.width * L.height = 0 := Nat.mul_eq_zero.2 h
  have hchroma : L.chromaWidth * L.chromaHeight = 0 :=
    Nat.mul_eq_zero.2 (h.imp (fun hw => by simp [Latch.chromaWidth, hw]) fun hh => by simp [Latch.chromaHeight, hh])
  simp [footprintOf, hluma, hchroma]

theorem overlaps_of_empty {r : Span} (h : r.len = 0) (q : Span) : r.overlaps q = false :=
  (overlaps_iff r q).2 (.inl h)

theorem spansMeet_of_empty {rs : List Span} (h : ∀ r ∈ rs, r.len = 0) (qs : List Span) : spansMeet rs qs = false := by
  refine List.any_eq_false.2 fun r hr => ?_
  simp [overlaps_of_empty (h r hr)]

theorem framePixels_empty {L : Latch} (h : L.width = 0 ∨ L.height = 0) : framePixels L = [] := by
  refine List.eq_nil_iff_forall_not_mem.2 fun p hp => ?_
  obtain ⟨hx, hy⟩ := (mem_framePixels L p).1 hp
  omega

/-- Settles O34: empty ranges pass validation and meet nothing, and the loop has no pixel to visit. -/
theorem composeOfAnEmptyFrame : Obligations.ComposeOfAnEmptyFrame := by
  intro s h
  have hempty := footprintOf_compose_empty h
  have hv : validate (.compose 0) s.latch = .ok := by
    refine (validate_eq_ok_iff _ _).2 ⟨rfl, rfl, rfl, checkRanges_of_fit fun r hr => .inl (hempty r hr), if_neg ?_⟩
    rw [spansMeet_of_empty fun r hr => hempty r (List.mem_append_right _ hr)]
    exact Bool.false_ne_true
  have hframe : composeFrame s.memErr s.latch s.mem = some s.mem := by
    rw [composeFrame_eq, framePixels_empty h, forEach_nil]
  exact exec_compose_of_some hv (spansMeet_of_empty hempty _) hframe

end Sys2Proof.Machine
end

section
/-! PROOFS. How commands end in error (60_exceptions.md R224, R225), the interrupt output (R230, R231), and the hazard of two
instances in flight (R243). -/

namespace Sys2Proof.Machine

/-! ### Validation errors and BUS_ERROR -/

/-- Settles O38: of the ways a command can end, only a failed validation gives such a code. -/
theorem validationErrorsChangeOnlyStatus : Obligations.ValidationErrorsChangeOnlyStatus := by
  intro i s t he h0 h9
  cases exec_ended he with
  | invalid _ ht =>
    subst ht
    rfl
  | plain _ ht => exact absurd (congrArg State.errcode ht) h0
  | result _ _ v ht => exact absurd (congrArg State.errcode ht) h0
  | memory _ m ht _ _ => exact absurd (congrArg State.errcode ht) h0
  | bus _ ht => exact absurd (congrArg State.errcode ht) h9

/-- BUS_ERROR comes from an access alone: validation never gives it, and a command that completes ends with code 0. -/
theorem eq_finishBusError_of_errcode {i : Instr} {s t : State} (he : exec i s = .next t) (h9 : t.errcode = 9) :
    t = s.finishBusError (footprintOf i s.latch) := by
  have hne : (9 : BitVec 4) ≠ 0 := by decide
  cases exec_ended he with
  | invalid _ ht =>
    rw [ht, endedWith_errcode, errBits_eq_nine_iff] at h9
    exact absurd h9 (validate_ne_busError i s.latch)
  | plain _ ht => exact absurd (h9.symm.trans (congrArg State.errcode ht)) hne
  | result _ _ v ht => exact absurd (h9.symm.trans (congrArg State.errcode ht)) hne
  | memory _ m ht _ _ => exact absurd (h9.symm.trans (congrArg State.errcode ht)) hne
  | bus _ ht => exact ht

/-- Settles O39: such an end is `State.finishBusError`, which keeps RESULT and scrambles only the write footprint. -/
theorem busErrorSparesEverythingOutsideTheWriteFootprint :
    Obligations.BusErrorSparesEverythingOutsideTheWriteFootprint := by
  intro i s t he h9
  have ht := eq_finishBusError_of_errcode he h9
  subst ht
  exact ⟨rfl, finishBusError_err _ s, rfl, rfl, noCommandWritesOutsideItsFootprint i s _ he⟩

/-! ### Erring accesses -/

/-- BUS_ERROR as claims write it: the bytes of the write footprint are a fresh draw's (60_exceptions.md R225). -/
theorem finishBusError_eq_endedWith (f : Footprint) (s : State) :
    s.finishBusError f = ({ s with mem := s.mem.scramble s.draws f.writes, draws := s.draws + 1 } : State).endedWith 9 :=
  finish_eq_endedWith .busError _

theorem finishRegister_errcode (code : ErrCode) (v : Word) (s : State) :
    (s.finishRegister code v).errcode = errBits code := by
  unfold State.finishRegister
  split
  · next h => rw [h, finish_errcode]
  · rfl

/-- A command over ordinary memory that passes validation ends with BUS_ERROR when an access of its pseudocode errs. -/
theorem exec_of_accessErrs {i : Instr} {s : State} (hv : validate i s.latch = .ok)
    (ho : s.touchesNonOrdinary (footprintOf i s.latch) = false) (h : s.accessErrs i) :
    exec i s = .next (s.finishBusError (footprintOf i s.latch)) := by
  cases i with
  | deblock resv v hp qm sq => exact runMemoryCommand_none hv ho (deblockPlane_eq_none_iff.2 h)
  | ups resv => exact runMemoryCommand_none hv ho (upsampledWord_eq_none_iff.2 h)
  | compose resv => exact runMemoryCommand_none hv ho (composeFrame_eq_none_iff.2 h)
  | nop _ | qlookup _ _ | edge _ _ _ | lutrd _ _ _ | cvt _ => exact h.elim

/-- A memory command that completes with code 0 ends with BUS_ERROR only where one of its accesses was answered so. -/
theorem body_eq_none_of_busError {α : Type} {i : Instr} {body : Option α} {done : α → State} {s t : State}
    (hdone : ∀ x, (done x).errcode = 0) (he : runMemoryCommand i body done s = .next t) (h9 : t.errcode = 9) :
    body = none := by
  rcases runMemoryCommand_next he with ⟨-, rfl⟩ | ⟨-, -, ⟨x, -, rfl⟩ | ⟨hnone, -⟩⟩
  · exact absurd ((errBits_eq_nine_iff _).1 h9) (validate_ne_busError i s.latch)
  · exact absurd (h9.symm.trans (hdone x)) (by decide)
  · exact hnone

/-- A command that writes RESULT without an access to memory never ends with BUS_ERROR (40_command_control.md R104). -/
theorem finishRegister_validate_errcode_ne_nine (i : Instr) (v : Word) (s : State) :
    (s.finishRegister (validate i s.latch) v).errcode ≠ 9 := by
  rw [finishRegister_errcode, Ne, errBits_eq_nine_iff]
  exact validate_ne_busError i s.latch

/-- A command that ends with BUS_ERROR made an access that errs. -/
theorem accessErrs_of_errcode {i : Instr} {s t : State} (he : exec i s = .next t) (h9 : t.errcode = 9) : s.accessErrs i := by
  cases i with
  | deblock resv v hp qm sq => exact deblockPlane_eq_none_iff.1 (body_eq_none_of_busError (fun _ => rfl) he h9)
  | ups resv => exact upsampledWord_eq_none_iff.1 (body_eq_none_of_busError (fun _ => rfl) he h9)
  | compose resv => exact composeFrame_eq_none_iff.1 (body_eq_none_of_busError (fun _ => rfl) he h9)
  | nop resv =>
    obtain rfl := Host.Outcome.next.inj he
    exact absurd ((errBits_eq_nine_iff _).1 h9) (validate_ne_busError (.nop resv) s.latch)
  | qlookup _ _ | edge _ _ _ | lutrd _ _ _ | cvt _ =>
    obtain rfl := Host.Outcome.next.inj he
    exact absurd h9 (finishRegister_validate_errcode_ne_nine _ _ s)

/-- Settles O40: the body of a memory command has no answer exactly when one of its accesses errs. -/
theorem anErringAccessEndsTheCommandWithBusError : Obligations.AnErringAccessEndsTheCommandWithBusError := by
  refine fun i s => ⟨fun hv ho herr => ?_, fun t he h9 => accessErrs_of_errcode he h9⟩
  have he := exec_of_accessErrs hv ho herr
  exact ⟨_, _, he.trans (congrArg Host.Outcome.next (finishBusError_eq_endedWith _ s)),
    fun a ha => scramble_read_outside s.draws _ s.mem ha⟩

/-! ### The interrupt output -/

theorem irq_of_flags_clear {s : State} (hd : s.done = false) (he : s.err = false) (ho : s.ovr = false) : s.irq = false := by
  simp [State.irq, hd, he, ho]

theorem irq_of_masked {s : State} (h : s.ctrl = 0#32) : s.irq = false := by
  simp [State.irq, State.irqEnabled, h]

/-- Settles O53: each of the ways to lower IRQ leaves its three flags 0 or IRQ_EN 0. -/
theorem interruptFollowsStatus : Obligations.InterruptFollowsStatus := by
  intro s
  obtain ⟨-, hdone, herr, hovr, -, -, -⟩ := statusReadLayout s
  refine ⟨?_, fun hr => ?_, fun hr => ?_, fun w n he ho => irq_of_flags_clear rfl he ho⟩
  · rw [hdone, herr, hovr]
    rfl
  · exact ⟨_, statusWriteClearsFlags 0x0000000E#32 s hr, irq_of_flags_clear rfl rfl rfl⟩
  · exact ⟨_, (ctrlWriteStoresInterruptEnable 0#32 s hr).1 (by decide), irq_of_masked rfl⟩

/-! ### Two instances in flight -/

theorem peerConflict_of_mem {base : Nat} {f g : Footprint} {s : State} (hg : ⟨base, g⟩ ∈ s.peers)
    (h : f.conflicts g = true) : s.peerConflict f = true :=
  List.any_eq_true.2 ⟨_, hg, h⟩

/-- An idle device that accepts a word whose footprint conflicts with another instance's is the hazard. -/
theorem issue_fault {w : Word} {s : State} (h : s.engine = .idle) (hp : s.peerConflict (latchFootprint (s.capture w)) = true) :
    s.issue w = .fault .hazardFootprint := by
  rw [State.issue, if_neg (h ▸ nofun), if_pos hp]

/-- Another instance that is not busy and accepts a footprint that conflicts with one in flight is the hazard. -/
theorem acceptPeer_fault {base : Nat} {f : Footprint} {s : State} (hnew : ∀ p ∈ s.peers, p.regBase ≠ base)
    (h : (s.engine = .busy ∧ f.conflicts s.pending = true) ∨ s.peerConflict f = true) :
    s.acceptPeer base f = .fault .hazardFootprint := by
  have hfree : ¬(s.peers.any fun p => p.regBase = base) = true := by simpa using hnew
  have hhazard : ((s.busy && f.conflicts s.pending) || s.peerConflict f) = true := by
    rwa [Bool.or_eq_true, Bool.and_eq_true, busy_iff]
  rw [State.acceptPeer, if_neg hfree, if_pos hhazard]

/-- Settles O58: whichever footprint comes second is compared with every one in flight. -/
theorem conflictingInstancesFault : Obligations.ConflictingInstancesFault := by
  refine fun base w f g s => ⟨fun hb hc hnew => ?_, fun hr hi hc hf => ?_, fun other hg hc hnew => ?_⟩
  · exact acceptPeer_fault hnew (.inl ⟨hb, hc⟩)
  · exact (hostEffect_issue_released hr w).trans (issue_fault hi (peerConflict_of_mem hf hc))
  · exact acceptPeer_fault hnew (.inr (peerConflict_of_mem hg hc))

end Sys2Proof.Machine
end

section
/-! PROOFS. Whose turn it is: the device with nothing to do, and a command in flight that waits for the engine's turn
(70_reset_and_hazards.md R260, R263, R270). -/

namespace Sys2Proof.Machine

/-! ### The outside's step and runs -/

theorem step_of_outsideTurn {s : State} (h : s.engineTurn = false) : step s = hostStep s := by
  simp [step, machineStep, h]

/-- An idle engine has no turn (R263). -/
theorem engineTurn_of_idle {s : State} (h : s.engine = .idle) : s.engineTurn = false := by
  simp [State.engineTurn, State.busy, h]

/-- The engine's turn comes with the end of the latency (R270). -/
theorem engineTurn_of_latencyPassed {s : State} (hb : s.engine = .busy) (hd : s.delay = 0) : s.engineTurn = true := by
  simp [State.engineTurn, State.busy, hb, hd]

/-- The engine's turn comes when the outside has nothing left to do. -/
theorem engineTurn_of_nothingPending {s : State} (hb : s.engine = .busy) (hh : s.host = []) : s.engineTurn = true := by
  simp [State.engineTurn, State.busy, hb, hh]

/-- While the latency lasts, a step performs the outside's next operation and counts it. -/
theorem step_of_latency {s : State} {op : HostOp} {rest : List HostOp} {d : Nat} (hh : s.host = op :: rest)
    (hd : s.delay = d + 1) : step s = hostEffect op { s with host := rest, delay := d } := by
  have hturn : s.engineTurn = false := by simp [State.engineTurn, hh, hd]
  rw [step_of_outsideTurn hturn, hostStep, hh, hd]
  rfl

/-- A run whose first step gives a next state goes on from there. -/
theorem run_succ {M : Host.Core} {s t : M.State} (h : M.step s = .next t) (n : Nat) : M.run (n + 1) s = M.run n t := by
  rw [Host.Core.run, h]

theorem run_one (M : Host.Core) (s : M.State) : M.run 1 s = M.step s := by
  rw [Host.Core.run]
  cases M.step s <;> rfl

/-- Settles O7: an idle engine has no turn, and the outside has nothing to do. -/
theorem idleDeviceWaits : Obligations.IdleDeviceWaits := by
  intro s hi hh
  rw [step_of_outsideTurn (engineTurn_of_idle hi), hostStep, hh]

/-! ### What one operation of the outside can do to the device -/

/-- The ways an operation of the outside can take `s` to `t`. -/
inductive OutsideChange (s t : State) : Prop where
  /-- The device is left alone. -/
  | outside {mem : Memory} {host : List HostOp} {seen : List Observation} {errs : List (Nat × AccessKind)}
      {peers : List Peer}
      (ht : t = { s with mem := mem, host := host, seen := seen, memErr := errs, peers := peers })
  /-- A register is written (10_state.md R20). -/
  | register {r : Reg} {v : Word} (hr : s.resetHeld = false) (hwrite : s.writeReg r v = .next t)
  /-- The reset input is asserted (70_reset_and_hazards.md R260). -/
  | asserted (hr : s.resetHeld = false) (ht : t = { s.afterReset with resetHeld := true })
  /-- The reset input is released (R260). -/
  | released (ht : t = s.releaseReset)

theorem outsideChange_of_hostEffect {op : HostOp} {s t : State} (he : hostEffect op s = .next t) : OutsideChange s t := by
  cases op with
  | writeReg width addr v =>
    obtain ⟨offset, -, -, hport⟩ := portAccess_next he
    rcases portWrite_next hport with ⟨-, rfl⟩ | ⟨hr, hwrite⟩
    · exact .outside rfl
    · exact .register hr hwrite
  | readReg width addr =>
    obtain ⟨offset, -, -, hread⟩ := portAccess_next he
    obtain rfl := Host.Outcome.next.inj hread
    exact .outside rfl
  | wait =>
    obtain rfl := Host.Outcome.next.inj he
    exact .outside (poll_eq s)
  | memWrite addr v => exact .outside (hostStore_next he).2
  | memRead addr => exact .outside (hostLoad_next he).2
  | assertReset =>
    rcases assertReset_next he with ⟨-, rfl⟩ | ⟨hr, -, ht⟩
    · exact .outside rfl
    · exact .asserted hr ht
  | releaseReset => exact .released (Host.Outcome.next.inj he).symm
  | memAnswers errs => exact .outside (Host.Outcome.next.inj he).symm
  | peerAccept base f =>
    rcases acceptPeer_next he with rfl | ⟨-, -, ht⟩
    · exact .outside rfl
    · exact .outside ht
  | peerComplete base stores =>
    obtain rfl := Host.Outcome.next.inj he
    rcases completePeer_cases base stores s with hsame | ⟨p, -, hstored⟩
    · exact .outside hsame
    · exact .outside hstored

/-! ### WAIT -/

/-- A poll of a busy engine stays the next operation (30_encoding.md R94). -/
theorem step_wait_of_latency {s : State} {rest : List HostOp} {d : Nat} (hb : s.engine = .busy)
    (hh : s.host = .wait :: rest) (hd : s.delay = d + 1) :
    step s = .next { s with seen := .register 0x08#6 s.statusWord :: s.seen, delay := d } := by
  rw [step_of_latency hh hd, hostEffect, poll_eq, if_pos hb, ← hh]
  rfl

/-- A `WAIT` over the whole latency changes what the host has seen and nothing else. -/
theorem run_wait {s : State} {rest : List HostOp} (hb : s.engine = .busy) (hh : s.host = .wait :: rest) :
    ∃ seen, Sys2Proof.core.run s.delay s = .next { s with seen := seen, delay := 0 } := by
  induction hd : s.delay generalizing s with
  | zero =>
    have hpassed : s = { s with delay := 0 } := by rw [← hd]
    exact ⟨s.seen, congrArg Host.Outcome.next hpassed⟩
  | succ d ih =>
    rw [run_succ (M := Sys2Proof.core) (step_wait_of_latency hb hh hd)]
    exact ih hb hh rfl

/-- Settles O8: the polls use up the latency, and with none left it is the engine's turn. -/
theorem waitReachesTheCompletionStep : Obligations.WaitReachesTheCompletionStep := by
  intro s rest hb hh
  obtain ⟨seen, hrun⟩ := run_wait hb hh
  exact ⟨_, hrun, engineTurn_of_latencyPassed hb rfl, rfl, rfl, rfl, rfl, rfl⟩

/-! ### Weak fairness -/

/-- The engine's turn still comes at the same time in `t` as in `s`, unless `t` has no command in flight. -/
def State.KeepsTurn (s t : State) : Prop := t.engine = .idle ∨ (t.engine = .busy ∧ t.delay = s.delay)

theorem keepsTurn_of_issue {w : Word} {s t : State} (hb : s.engine = .busy) (he : s.issue w = .next t) : s.KeepsTurn t := by
  rcases issue_next he with ⟨-, rfl⟩ | ⟨hi, -, -⟩
  · exact .inr ⟨hb, rfl⟩
  · cases hb.symm.trans hi

theorem keepsTurn_of_writeCtrl {v : Word} {s t : State} (hb : s.engine = .busy) (he : s.writeCtrl v = .next t) :
    s.KeepsTurn t := by
  rcases writeCtrl_next he with ⟨-, -, rfl⟩ | ⟨-, rfl⟩
  · exact .inl rfl
  · exact .inr ⟨hb, rfl⟩

/-- Of the register writes, only SRST and a word for CMD concern the engine, and a busy engine drops the word. -/
theorem keepsTurn_of_writeReg {r : Reg} {v : Word} {s t : State} (hb : s.engine = .busy) (he : s.writeReg r v = .next t) :
    s.KeepsTurn t := by
  cases r with
  | ctrl => exact keepsTurn_of_writeCtrl hb he
  | cmd => exact keepsTurn_of_issue hb he
  | _ =>
    obtain rfl := Host.Outcome.next.inj he
    exact .inr ⟨hb, rfl⟩

/-- Nothing outside postpones the engine's turn: an operation leaves the command in flight and its count alone, or resets. -/
theorem keepsTurn_of_hostEffect {op : HostOp} {s t : State} (hb : s.engine = .busy) (he : hostEffect op s = .next t) :
    s.KeepsTurn t := by
  cases outsideChange_of_hostEffect he with
  | outside ht => exact ht ▸ .inr ⟨hb, rfl⟩
  | register _ hwrite => exact keepsTurn_of_writeReg hb hwrite
  | asserted _ ht => exact ht ▸ .inl rfl
  | released ht => exact ht ▸ .inr ⟨hb, rfl⟩

/-- While the latency lasts, a step of a busy device counts it down by one, or resets. -/
theorem step_next_of_latency {s t : State} {op : HostOp} {rest : List HostOp} {d : Nat} (hb : s.engine = .busy)
    (hh : s.host = op :: rest) (hd : s.delay = d + 1) (he : step s = .next t) :
    t.engine = .idle ∨ (t.engine = .busy ∧ t.delay = d) := by
  rw [step_of_latency hh hd] at he
  exact keepsTurn_of_hostEffect (s := { s with host := rest, delay := d }) hb he

/-- The wait for the engine's turn ends with this outcome: it is the engine's turn, no command is in flight any more, or
the run has stopped. -/
def EndsTheWait (r : Result) : Prop := ∀ t, r = .next t → t.engineTurn = true ∨ t.engine = .idle

/-- Within the latency the wait is over: each step of it is counted, and none is added (R270). -/
theorem exists_run_endsTheWait {s : State} (hb : s.engine = .busy) :
    ∃ n, n ≤ s.delay ∧ EndsTheWait (Sys2Proof.core.run n s) := by
  have now {s : State} (h : s.engineTurn = true ∨ s.engine = .idle) : EndsTheWait (Sys2Proof.core.run 0 s) :=
    fun t ht => Host.Outcome.next.inj ht ▸ h
  induction hd : s.delay generalizing s with
  | zero => exact ⟨0, le_rfl, now (.inl (engineTurn_of_latencyPassed hb hd))⟩
  | succ d ih =>
    cases hh : s.host with
    | nil => exact ⟨0, Nat.zero_le _, now (.inl (engineTurn_of_nothingPending hb hh))⟩
    | cons op rest =>
      cases he : step s with
      | next t =>
        rcases step_next_of_latency hb hh hd he with hidle | ⟨hbusy, hdelay⟩
        · exact ⟨1, Nat.le_add_left 1 d, run_succ (M := Sys2Proof.core) he 0 ▸ now (.inr hidle)⟩
        · obtain ⟨n, hn, hends⟩ := ih hbusy hdelay
          exact ⟨n + 1, Nat.succ_le_succ hn, run_succ (M := Sys2Proof.core) he n ▸ hends⟩
      | fault f => exact ⟨1, Nat.le_add_left 1 d, ((run_one Sys2Proof.core s).trans he) ▸ nofun⟩
      | refused r => exact ⟨1, Nat.le_add_left 1 d, ((run_one Sys2Proof.core s).trans he) ▸ nofun⟩

/-- Settles O9: the outcome after some number of steps within the latency ends the wait. -/
theorem commandInFlightGetsItsTurn : Obligations.CommandInFlightGetsItsTurn := by
  intro s hb
  obtain ⟨n, hn, hends⟩ := exists_run_endsTheWait hb
  refine ⟨n, hn, ?_⟩
  cases hrun : Sys2Proof.core.run n s with
  | next t => exact hends t hrun
  | fault _ => trivial
  | refused _ => trivial

end Sys2Proof.Machine
end

section
/-! PROOFS. The device held in reset, and host accesses to memory beside footprints in flight (70_reset_and_hazards.md R260,
R265). -/

namespace Sys2Proof.Machine

/-! ### While the reset input is asserted -/

/-- The port drops every legal register write while the reset input is asserted (R260). -/
theorem hostEffect_writeReg_held {k : Nat} (hk : k < 64) (ha : k % 4 = 0) {s : State} (hr : s.resetHeld = true) (v : Word) :
    hostEffect (.writeReg 4 (Config.regBase + k) v) s = .next s := by
  rw [hostEffect, portAccess_regBase_add hk ha, State.portWrite, if_pos hr]

theorem hostEffect_assertReset_held {s : State} (hr : s.resetHeld = true) : hostEffect .assertReset s = .next s := by
  rw [hostEffect, State.assertReset, if_pos hr]

/-- The device is in its reset state as the host sees it (10_state.md R40), whatever the reset input is. -/
structure State.AtReset (s : State) : Prop where
  engine : s.engine = .idle
  pending : s.pending = Footprint.none
  registers : ∀ r, s.readReg r = State.reset.readReg r

/-- A device at reset has IRQ_EN 0 (70_reset_and_hazards.md R263). -/
theorem State.AtReset.irq {s : State} (h : s.AtReset) : s.irq = false := irq_of_masked (h.registers .ctrl)

/-- The invariant's clause on the reset input, register by register. -/
theorem State.Invariant.atReset {s : State} (h : s.Invariant) (hr : s.resetHeld = true) : s.AtReset := by
  have hreset := h.reset
  simp only [State.resetConsistent, hr, Bool.not_true, Bool.false_or, Bool.and_eq_true, decide_eq_true_eq,
    Bool.not_eq_true'] at hreset
  obtain ⟨⟨⟨⟨⟨⟨⟨⟨⟨⟨⟨⟨⟨⟨⟨⟨engine, pending⟩, done⟩, err⟩, ovr⟩, errcode⟩, ctrl⟩, cmd⟩, src0⟩, src1⟩, src2⟩, dst⟩, dim⟩,
    edgeIn⟩, pixIn⟩, pos⟩, result⟩ := hreset
  refine ⟨engine, pending, fun r => ?_⟩
  cases r with
  | id | unassigned => rfl
  | status => simp [State.readReg, State.statusWord, State.busy, State.reset, engine, done, err, ovr, errcode]
  | _ => assumption

/-- What the host sees of a device held in reset depends neither on what lies outside the device nor on the reset input. -/
theorem State.AtReset.setOutside {s : State} (h : s.AtReset) {held : Bool} {mem : Memory} {host : List HostOp}
    {seen : List Observation} {delay : Nat} {errs : List (Nat × AccessKind)} {peers : List Peer} :
    ({ s with resetHeld := held, mem := mem, host := host, seen := seen, delay := delay, memErr := errs,
              peers := peers } : State).AtReset :=
  ⟨h.engine, h.pending, h.registers⟩

/-- No operation of the outside takes a device held in reset out of its reset state, its release included. -/
theorem State.AtReset.of_hostEffect {op : HostOp} {s t : State} (h : s.AtReset) (he : hostEffect op s = .next t)
    (hr : s.resetHeld = true) : t.AtReset := by
  cases outsideChange_of_hostEffect he with
  | outside ht => exact ht ▸ h.setOutside
  | register hreleased _ => cases hr.symm.trans hreleased
  | asserted hreleased _ => cases hr.symm.trans hreleased
  | released ht => exact ht ▸ h.setOutside

theorem State.AtReset.of_step {s t : State} (h : s.AtReset) (hr : s.resetHeld = true) (he : step s = .next t) :
    t.AtReset := by
  rw [step_of_outsideTurn (engineTurn_of_idle h.engine), hostStep] at he
  split at he
  · exact Host.Outcome.next.inj he ▸ h
  · exact (h.setOutside).of_hostEffect he hr

/-- Settles O56: the port drops writes, and the invariant gives the reset state that every operation then keeps. -/
theorem assertedResetHoldsTheDevice : Obligations.AssertedResetHoldsTheDevice := by
  refine ⟨fun _ v _ hr hk ha => hostEffect_writeReg_held hk ha hr v, fun _ hr => hostEffect_assertReset_held hr,
    fun s t hinv hr he => ?_⟩
  have ht := (((inv_iff s).1 hinv).atReset hr).of_step hr he
  exact ⟨ht.engine, ht.pending, ht.irq, ht.registers⟩

/-! ### Host accesses to memory -/

theorem hostStore_fault {a : BitVec 32} {s : State} (v : Byte) (hz : s.writeHazard a.toNat = true) :
    s.hostStore a v = .fault .hazardFootprint := by
  rw [State.hostStore, if_pos hz]

theorem hostLoad_fault {a : BitVec 32} {s : State} (hz : s.readHazard a.toNat = true) :
    s.hostLoad a = .fault .hazardFootprint := by
  rw [State.hostLoad, if_pos hz]

theorem hostStore_performed {a : BitVec 32} {s : State} (v : Byte) (hz : s.writeHazard a.toNat = false)
    (ho : inSpans s.nonOrdinary a.toNat = false) : s.hostStore a v = .next { s with mem := s.mem.write a.toNat v } := by
  simp [State.hostStore, hz, ho]

theorem hostLoad_performed {a : BitVec 32} {s : State} (hz : s.readHazard a.toNat = false)
    (ho : inSpans s.nonOrdinary a.toNat = false) : s.hostLoad a = .next (s.observe (.memory a (s.mem.read a.toNat))) := by
  simp [State.hostLoad, hz, ho]

theorem writeHazard_eq_false {a : Nat} {s : State}
    (hown : s.engine = .busy → inSpans (s.pending.reads ++ s.pending.writes) a = false)
    (hpeers : ∀ p ∈ s.peers, inSpans (p.footprint.reads ++ p.footprint.writes) a = false) : s.writeHazard a = false := by
  rw [← Bool.not_eq_true, writeHazard_iff]
  rintro (⟨hb, ha⟩ | ⟨p, hp, ha⟩)
  · cases (hown hb).symm.trans ha
  · cases (hpeers p hp).symm.trans ha

theorem readHazard_eq_false {a : Nat} {s : State} (hown : s.engine = .busy → inSpans s.pending.writes a = false)
    (hpeers : ∀ p ∈ s.peers, inSpans p.footprint.writes a = false) : s.readHazard a = false := by
  rw [← Bool.not_eq_true, readHazard_iff]
  rintro (⟨hb, ha⟩ | ⟨p, hp, ha⟩)
  · cases (hown hb).symm.trans ha
  · cases (hpeers p hp).symm.trans ha

/-- Settles O57: the four faults are the two ways into each hazard, and without one the access is performed. -/
theorem footprintHazardFaults : Obligations.FootprintHazardFaults := by
  refine fun addr v s => ⟨fun hb ha => ?_, fun hb ha => ?_, fun p hp ha => ?_, fun p hp ha => ?_,
    fun hown hpeers ho => ?_, fun hown hpeers ho hwf => ?_⟩
  · exact hostStore_fault v ((writeHazard_iff _ s).2 (.inl ⟨hb, ha⟩))
  · exact hostLoad_fault ((readHazard_iff _ s).2 (.inl ⟨hb, ha⟩))
  · exact hostStore_fault v ((writeHazard_iff _ s).2 (.inr ⟨p, hp, ha⟩))
  · exact hostLoad_fault ((readHazard_iff _ s).2 (.inr ⟨p, hp, ha⟩))
  · exact hostLoad_performed (readHazard_eq_false hown hpeers) ho
  · exact ⟨_, hostStore_performed v (writeHazard_eq_false hown hpeers) ho, read_write_same_wf hwf _ v,
      fun x hx => read_write_other s.mem v hx⟩

end Sys2Proof.Machine
end
